-- ==== Sys2Proof/Word.lean ====
section
/-!
DEFINITION. The word every register, operand and port of the block carries, and the byte a word is
serialised to (00_scope R13, 30_encoding R63, 20_memory R51).
-/

namespace Sys2Proof

/-- A 64-bit word: a header, or the binary64 pattern of a real value (00_scope R13). -/
abbrev Word := BitVec 64

/-- A byte of a serialised word (20_memory R51). -/
abbrev Byte := BitVec 8

/-- The pattern of +0.0. -/
abbrev Word.zero : Word := 0x0000000000000000#64

/-- The pattern of 1.0 (95_test_vectors, operand patterns). -/
abbrev Word.one : Word := 0x3FF0000000000000#64

end Sys2Proof
end

