-- ==== Sys2Proof/Syntax.lean ====
section
/-!
DEFINITION. The seven commands (30_encoding R64), one constructor for each row of the opcode table.
-/

namespace Sys2Proof

/-- A command with its payload words as they arrive, each the binary64 pattern of one operand, in
the order of 30_encoding R63. -/
inductive Instr where
  | setRates (r1 r2 r3 r4 : Word)
  | setLevels (l1 l2 l3 l4 : Word)
  | setSampleRate (fs : Word)
  | noteOn
  | noteOff
  | process
  | isActive
  deriving DecidableEq, Repr

/-- The words of the command's format: 5 for H4, 2 for H1, 1 for H0 (30_encoding R63, R68). -/
def Instr.words : Instr → Nat
  | .setRates .. => 5
  | .setLevels .. => 5
  | .setSampleRate _ => 2
  | .noteOn => 1
  | .noteOff => 1
  | .process => 1
  | .isActive => 1

end Sys2Proof
end

