-- ==== Sys2Proof/Decode.lean ====
section
/-!
DEFINITION. The decoder of command words (30_encoding R61 to R69), total on any list of words and
refusing by name, and the encoder written from the same tables. Serialised bytes are little-endian
(20_memory R51).
-/

namespace Sys2Proof

/-- Why a list of words is no command. -/
inductive DecodeError where
  /-- `rsv ≠ 0` (30_encoding R67), tested before the opcode (60_exceptions R136). -/
  | reservedBits
  /-- `op` is 0x0 or 0x8 to 0xF (30_encoding R66). -/
  | reservedOpcode
  /-- Fewer words than the format of `op` has (log 11). -/
  | incomplete
  deriving DecidableEq, Repr

/-- `op`, bits [3:0] of the header (30_encoding R62). -/
def headerOp (h : Word) : BitVec 4 := h.extractLsb' 0 4

/-- `rsv`, bits [63:4] of the header (30_encoding R62). -/
def headerRsv (h : Word) : BitVec 60 := h.extractLsb' 4 60

/-- The payload words of each opcode, none for a reserved one (30_encoding R64, R68). -/
def payloadWords (op : BitVec 4) : Option Nat :=
  match op.toNat with
  | 1 => some 4
  | 2 => some 4
  | 3 => some 1
  | 4 => some 0
  | 5 => some 0
  | 6 => some 0
  | 7 => some 0
  | _ => none

/-- The command of an opcode and its payload, and the words after it (30_encoding R63, R64). -/
def decodePayload (op : BitVec 4) (ws : List Word) : Except DecodeError (Instr × List Word) :=
  match op.toNat, ws with
  | 1, r1 :: r2 :: r3 :: r4 :: rest => .ok (.setRates r1 r2 r3 r4, rest)
  | 2, l1 :: l2 :: l3 :: l4 :: rest => .ok (.setLevels l1 l2 l3 l4, rest)
  | 3, fs :: rest => .ok (.setSampleRate fs, rest)
  | 4, rest => .ok (.noteOn, rest)
  | 5, rest => .ok (.noteOff, rest)
  | 6, rest => .ok (.process, rest)
  | 7, rest => .ok (.isActive, rest)
  | 1, _ => .error .incomplete
  | 2, _ => .error .incomplete
  | 3, _ => .error .incomplete
  | _, _ => .error .reservedOpcode

/-- Reads one command from the front of a list of words and gives the words after it (30_encoding
R68): the header tests first, `rsv` before `op` (60_exceptions R136), then the payload. -/
def decode : List Word → Except DecodeError (Instr × List Word)
  | [] => .error .incomplete
  | h :: rest => if headerRsv h = 0 then decodePayload (headerOp h) rest else .error .reservedBits

/-- The header of an opcode: `rsv` zero (30_encoding R62). -/
def header (op : BitVec 4) : Word := (0 : BitVec 60) ++ op

/-- The words of a command: the header, then the operands in order (30_encoding R63, R64). -/
def encode : Instr → List Word
  | .setRates r1 r2 r3 r4 => [header 0x1, r1, r2, r3, r4]
  | .setLevels l1 l2 l3 l4 => [header 0x2, l1, l2, l3, l4]
  | .setSampleRate fs => [header 0x3, fs]
  | .noteOn => [header 0x4]
  | .noteOff => [header 0x5]
  | .process => [header 0x6]
  | .isActive => [header 0x7]

/-- A word as bytes, byte 0 holding bits [7:0] (20_memory R51). -/
def bytesOfWord (w : Word) : List Byte :=
  [w.extractLsb' 0 8, w.extractLsb' 8 8, w.extractLsb' 16 8, w.extractLsb' 24 8,
   w.extractLsb' 32 8, w.extractLsb' 40 8, w.extractLsb' 48 8, w.extractLsb' 56 8]

/-- The words that whole groups of eight bytes spell (20_memory R51); a last group that is not
whole spells none. -/
def wordsOfBytes : List Byte → List Word
  | b0 :: b1 :: b2 :: b3 :: b4 :: b5 :: b6 :: b7 :: rest =>
    (b7 ++ b6 ++ b5 ++ b4 ++ b3 ++ b2 ++ b1 ++ b0) :: wordsOfBytes rest
  | _ => []

/-- Reads one command from serialised bytes and gives the bytes after it. -/
def decodeBytes (bs : List Byte) : Except DecodeError (Instr × List Byte) :=
  match decode (wordsOfBytes bs) with
  | .ok (i, _) => .ok (i, bs.drop (8 * i.words))
  | .error e => .error e

/-- A command serialised to bytes. -/
def encodeBytes (i : Instr) : List Byte := (encode i).flatMap bytesOfWord

/-- The five words that the opcode table's numbering gives a row: bit 0 is bit 0 of the first word
and every bit above `nbits` is 0. -/
def tableWords (nbits w : Nat) : List Word :=
  (List.range 5).map fun k => BitVec.ofNat 64 ((w % 2 ^ nbits) / 2 ^ (64 * k))

/-- The command the decoder reads from the table's bits `w`. -/
def decodeTableWord (nbits w : Nat) : Option Instr :=
  match decode (tableWords nbits w) with
  | .ok (i, _) => some i
  | .error _ => none

/-- The words the table's bits `w` present as one command: the header, and the payload its opcode
calls for. -/
def commandWords (nbits w : Nat) : List Word :=
  match tableWords nbits w with
  | [] => []
  | h :: payload => h :: payload.take ((payloadWords (headerOp h)).getD 0)

end Sys2Proof
end

