-- ==== Sys2Proof/Config.lean ====
section
/-!
DEFINITION. The implementation parameters of the block (00_scope R11, R12) and the values the spec
leaves free. The parameters are plain data, carried by the state (log 1); the free values are
constants without a body, so a proof holds whatever they are.
-/

namespace Sys2Proof

/-- `FMT`: the number format of every real-valued register and operation (00_scope R11). -/
inductive Fmt where
  | binary64
  | binary32
  deriving DecidableEq, Repr

/-- `RELEASE_TARGET`: the level the Release stage approaches (00_scope R11, 10_state R33). -/
inductive ReleaseTarget where
  | zero
  | level4
  deriving DecidableEq, Repr

/-- `SUSTAIN_MODE`: what Sustain does to the level (00_scope R11, 42_process R112). -/
inductive SustainMode where
  | freeze
  | trackL3
  deriving DecidableEq, Repr

/-- The implementation parameters of 00_scope R11 that are plain values: all but `EXP64`, which is
`Machine.exp64`. `nInst` is `N_INST`. -/
structure Config where
  fmt           : Fmt
  fsMin         : Word
  fsMax         : Word
  releaseTarget : ReleaseTarget
  sustainMode   : SustainMode
  kT0           : Word
  kSlope        : Word
  kAttack       : Word
  kEps          : Word
  kFloor        : Word
  rateMin       : Word
  rateMax       : Word
  lvlMin        : Word
  lvlMax        : Word
  nInst         : Nat
  deriving DecidableEq, Repr

/-- The default of every parameter (00_scope R11): each constant is the binary64 value nearest the
decimal literal. -/
def Config.default : Config where
  fmt           := .binary64
  fsMin         := 0x40BF400000000000#64  -- 8000.0
  fsMax         := 0x4117700000000000#64  -- 384000.0
  releaseTarget := .zero
  sustainMode   := .freeze
  kT0           := 0x4024000000000000#64  -- 10.0
  kSlope        := 0x3FB1A9FBE76C8B44#64  -- 0.069
  kAttack       := 0x3FEFAE147AE147AE#64  -- 0.99
  kEps          := 0x3F50624DD2F1A9FC#64  -- 0.001
  kFloor        := 0x3F50624DD2F1A9FC#64  -- 0.001
  rateMin       := 0x0000000000000000#64  -- 0.0
  rateMax       := 0x4058C00000000000#64  -- 99.0
  lvlMin        := 0x0000000000000000#64  -- 0.0
  lvlMax        := 0x3FF0000000000000#64  -- 1.0
  nInst         := 96

/-- FREE VALUE (log 3). Which of its two neighbours `EXP64` gives: for each format and each
representable lower neighbour, the size of the argument from which on the lower one is taken. -/
opaque Config.expSwitch : Fmt → Nat → Nat

/-- FREE VALUE (log 4). What `EXP64` gives outside [-7.0, 0.0], where 40_configuration R86 names no
property of it. -/
opaque Config.expOutside : Fmt → Word → Word

/-- FREE VALUE (log 6). The pattern an invalid operation or an operation on a NaN gives; 42_process
R123 says that none arises on the admitted domain. -/
opaque Config.nanResult : Word → Word → Word

end Sys2Proof
end

