-- ==== Sys2Proof/Machine/Float.lean ====
section
/-!
DEFINITION. The arithmetic of 00_scope R13: the IEEE 754 operations on binary64 patterns, each
correctly rounded to nearest, ties to even, with gradual underflow and no fused multiply-add
(42_process R123). A finite value is a sign and a count of units of 2^-1074, the least positive
binary64 value, so that every operation is exact arithmetic followed by one rounding. What IEEE 754
itself says is from general knowledge (log 5). With `Fmt.binary32` each result is rounded to a
binary32 value, which is also a binary64 value and is kept as its binary64 pattern (log 14).
-/

namespace Sys2Proof.Machine

/-- What a pattern stands for. -/
inductive Real64 where
  | nan
  | inf (neg : Bool)
  /-- The value `mag · 2^-1074`, negated if `neg`. -/
  | fin (neg : Bool) (mag : Nat)
  deriving DecidableEq, Repr

/-- The units in 1.0: `2^1074`. -/
def unitsPerOne : Nat := 2 ^ 1074

/-- The biased exponent, bits [62:52] (30_encoding R63). -/
def expField (w : Word) : Nat := w.toNat / 2 ^ 52 % 2 ^ 11

/-- The fraction, bits [51:0] (30_encoding R63). -/
def fracField (w : Word) : Nat := w.toNat % 2 ^ 52

/-- Reads a pattern (30_encoding R63). -/
def unpack (w : Word) : Real64 :=
  if expField w = 2047 then
    if fracField w = 0 then .inf w.msb else .nan
  else if expField w = 0 then .fin w.msb (fracField w)
  else .fin w.msb ((2 ^ 52 + fracField w) * 2 ^ (expField w - 1))

/-- The exponent of the last place that `prec` significant bits leave to `m` units, at least
`least`. -/
def lastPlace (prec least m : Nat) : Nat := max least (m.log2 - (prec - 1))

/-- The pattern of `m` units, for an `m` that 53 significant bits hold. -/
def packMag (m : Nat) : Nat := lastPlace 53 0 m * 2 ^ 52 + m / 2 ^ lastPlace 53 0 m

/-- The pattern of a sign and a magnitude in units. -/
def pack (neg : Bool) (m : Nat) : Word := BitVec.ofNat 64 ((if neg then 2 ^ 63 else 0) + packMag m)

/-- The pattern of an infinity. -/
def infinity (neg : Bool) : Word := pack neg (2 ^ 2098)

/-- The significant bits of a format. -/
def precision : Fmt → Nat
  | .binary64 => 53
  | .binary32 => 24

/-- The least last place of a format, in units as a power of two: 2^-1074 or 2^-149. -/
def leastPlace : Fmt → Nat
  | .binary64 => 0
  | .binary32 => 925

/-- The first magnitude, in units, beyond a format's finite values: 2^1024 or 2^128. -/
def overflowMag : Fmt → Nat
  | .binary64 => 2 ^ 2098
  | .binary32 => 2 ^ 1202

/-- The distance of neighbouring values of the format at a magnitude of `m` units. -/
def gap (fmt : Fmt) (m : Nat) : Nat := 2 ^ lastPlace (precision fmt) (leastPlace fmt) m

/-- `m` units are a finite value of the format. -/
def IsValue (fmt : Fmt) (m : Nat) : Prop := m < overflowMag fmt ∧ gap fmt m ∣ m

/-- `n / d` units rounded to a value of the format, to nearest, ties to even. -/
def roundNearest (fmt : Fmt) (n d : Nat) : Nat :=
  let step := gap fmt (n / d)
  let q := n / (d * step)
  let r := n % (d * step)
  if d * step < 2 * r ∨ (2 * r = d * step ∧ q % 2 = 1) then (q + 1) * step else q * step

/-- The pattern of `n / d` units, rounded: a magnitude beyond the format's is an infinity. -/
def packRounded (fmt : Fmt) (neg : Bool) (n d : Nat) : Word :=
  let m := roundNearest fmt n d
  if m < overflowMag fmt then pack neg m else infinity neg

/-- The integer a sign and a magnitude stand for. -/
def signedMag (neg : Bool) (m : Nat) : Int := if neg then -(m : Int) else m

/-- Exact negation (00_scope R13). -/
def fneg (a : Word) : Word := a ^^^ 0x8000000000000000#64

/-- Exact absolute value (00_scope R13). -/
def fabs (a : Word) : Word := a &&& 0x7FFFFFFFFFFFFFFF#64

/-- `a ⊕ b` (00_scope R13). A sum of zero is -0.0 only when both operands are (log 5). -/
def fadd (fmt : Fmt) (a b : Word) : Word :=
  match unpack a, unpack b with
  | .fin sa ma, .fin sb mb =>
    let x := signedMag sa ma + signedMag sb mb
    if x = 0 then pack (sa && sb) 0 else packRounded fmt (decide (x < 0)) x.natAbs 1
  | .inf sa, .fin _ _ => infinity sa
  | .fin _ _, .inf sb => infinity sb
  | .inf sa, .inf sb => if sa = sb then infinity sa else Config.nanResult a b
  | _, _ => Config.nanResult a b

/-- `a ⊖ b` (00_scope R13). -/
def fsub (fmt : Fmt) (a b : Word) : Word := fadd fmt a (fneg b)

/-- `a ⊗ b` (00_scope R13). -/
def fmul (fmt : Fmt) (a b : Word) : Word :=
  match unpack a, unpack b with
  | .fin sa ma, .fin sb mb => packRounded fmt (sa != sb) (ma * mb) unitsPerOne
  | .inf sa, .inf sb => infinity (sa != sb)
  | .inf sa, .fin sb mb => if mb = 0 then Config.nanResult a b else infinity (sa != sb)
  | .fin sa ma, .inf sb => if ma = 0 then Config.nanResult a b else infinity (sa != sb)
  | _, _ => Config.nanResult a b

/-- `a ⊘ b` (00_scope R13). -/
def fdiv (fmt : Fmt) (a b : Word) : Word :=
  match unpack a, unpack b with
  | .fin sa ma, .fin sb mb =>
    if mb = 0 then
      if ma = 0 then Config.nanResult a b else infinity (sa != sb)
    else packRounded fmt (sa != sb) (ma * unitsPerOne) mb
  | .inf sa, .fin sb _ => infinity (sa != sb)
  | .fin sa _, .inf sb => pack (sa != sb) 0
  | _, _ => Config.nanResult a b

/-- The order of the non-NaN values: a finite value by its units, an infinity beyond them all. -/
def orderKey : Real64 → Option Int
  | .nan => none
  | .inf neg => some (signedMag neg (2 ^ 2098))
  | .fin neg m => some (signedMag neg m)

/-- `a < b`, the ordered comparison: false with a NaN (00_scope R13). -/
def flt (a b : Word) : Bool :=
  match orderKey (unpack a), orderKey (unpack b) with
  | some x, some y => decide (x < y)
  | _, _ => false

/-- `a ≤ b`, the ordered comparison; `b ≥ a` is the same (00_scope R13). -/
def fle (a b : Word) : Bool :=
  match orderKey (unpack a), orderKey (unpack b) with
  | some x, some y => decide (x ≤ y)
  | _, _ => false

/-- Neither a NaN nor an infinity (30_encoding R69). -/
def isFinite (w : Word) : Bool :=
  match unpack w with
  | .fin _ _ => true
  | _ => false

/-- A payload value as a register of the format holds it: as it is in binary64 (30_encoding R69),
rounded to nearest in binary32 (log 14). -/
def narrow : Fmt → Word → Word
  | .binary64, w => w
  | .binary32, w =>
    match unpack w with
    | .fin neg m => packRounded .binary32 neg m 1
    | _ => w

end Sys2Proof.Machine
end

