-- ==== Sys2Proof/Machine/Exp.lean ====
section
/-!
DEFINITION. `EXP64` (40_configuration R86): a configuration function of which only E1 to E4 may be
assumed. On [-7.0, 0.0] it is a faithful rounding of the exponential (E4), 1.0 at 0.0 (E1), and
never decreasing (E3); which of the two neighbours of the exact value it gives is free (log 3).
Outside [-7.0, 0.0] its value is free (log 4).
-/

namespace Sys2Proof.Machine

/-- The numerator of the sum of `(-a / 2^s)^j / j!` for `j` from 0 to `n`, over `expDen s n`. -/
def expNum (a s : Nat) : Nat → Int
  | 0 => 1
  | n + 1 => expNum a s n * (2 ^ s * (n + 1)) + (-(a : Int)) ^ (n + 1)

/-- The denominator `2^(s·n) · n!` of the same sum. -/
def expDen (s : Nat) : Nat → Nat
  | 0 => 1
  | n + 1 => expDen s n * (2 ^ s * (n + 1))

/-- The largest value of the format that is at most the eighth power of the sum with `n` as its
last index, in units. For `a / 2^s` from 0 to 1 the sum is above the exponential of `-a / 2^s` when
`n` is even and below it when `n` is odd. -/
def expFloor (fmt : Fmt) (a s n : Nat) : Nat :=
  let q := (expNum a s n).toNat ^ 8 * unitsPerOne / expDen s n ^ 8
  q / gap fmt q * gap fmt q

/-- `EXP64` at minus `v` units, for `v` up to 7.0, in units, given the free switch between the
neighbours. The argument is taken as eight times `a / 2^s`, where `a` is the significand of `v`. If
no value of the format lies between the two bounds, the exact value has one lower neighbour and the
switch chooses between it and the next; else the exact value is within 2^-150 of the value between
the bounds, and that is the result. -/
def expMag (switch : Fmt → Nat → Nat) (fmt : Fmt) (v : Nat) : Nat :=
  if v = 0 then unitsPerOne
  else
    let t := v.log2 - 52
    let above := expFloor fmt (v / 2 ^ t) (1077 - t) 40
    let below := expFloor fmt (v / 2 ^ t) (1077 - t) 41
    if below = above ∧ v < switch fmt above then above + gap fmt above else above

/-- The exponential function for a given switch and given values outside [-7.0, 0.0]. -/
def expOf (switch : Fmt → Nat → Nat) (outside : Fmt → Word → Word) (fmt : Fmt) (x : Word) : Word :=
  match unpack x with
  | .fin neg v =>
    if (neg ∨ v = 0) ∧ v ≤ 7 * unitsPerOne then pack false (expMag switch fmt v) else outside fmt x
  | _ => outside fmt x

/-- `EXP64`, the configured function (40_configuration R86). -/
def exp64 (fmt : Fmt) (x : Word) : Word := expOf Config.expSwitch Config.expOutside fmt x

end Sys2Proof.Machine
end

