-- ==== Sys2Proof/Machine/State.lean ====
section
/-!
DEFINITION. The state: the `N_INST` instances with the elements of 10_state R23, the command ports with
what the controller has presented, the response port, and the configuration record. Plain data.
-/

namespace Sys2Proof.Machine

/-- `STAGE` (10_state R24). Codes 0b110 and 0b111 are never held and have no constructor (log 20). -/
inductive Stage where
  | idle
  | attack
  | decay1
  | decay2
  | sustain
  | release
  deriving DecidableEq, Repr

/-- The mark of a set of registers (10_state R31). -/
inductive Mark where
  | unset
  | written
  deriving DecidableEq, Repr

/-- Four registers numbered from 1: `RATE[1..4]`, `LVL[1..4]` or `COEF[1..4]` (00_scope R13). -/
structure Quad where
  v1 : Word
  v2 : Word
  v3 : Word
  v4 : Word
  deriving DecidableEq, Repr

/-- One instance (10_state R23), with the marks of R31. -/
structure Envelope where
  stage    : Stage
  level    : Word
  rate     : Quad
  rateMark : Mark
  lvl      : Quad
  lvlMark  : Mark
  fs       : Word
  fsMark   : Mark
  coef     : Quad
  coefMark : Mark
  deriving DecidableEq, Repr

/-- The name of an instance: its voice slot and its operator index (60_exceptions R144). `N_INST`
says which names there are (log 21); with the default, the voice slots are 0 to 15. -/
structure InstId where
  voice    : Nat
  operator : Fin 6
  deriving DecidableEq, Repr

/-- A response (30_encoding R65). -/
inductive Response where
  /-- process: the binary64 pattern of the level. -/
  | level (w : Word)
  /-- isActive: the active bit. -/
  | active (b : Bool)
  deriving DecidableEq, Repr

/-- One presentation at an instance's command port: the words of one or more commands, or none
(30_encoding R61, R73), and the reset input (70_reset R151, R153). -/
structure Input where
  inst  : InstId
  reset : Bool
  words : List Word
  deriving DecidableEq, Repr

/-- The machine. `cfg` is the configuration (log 1). `insts` holds the `N_INST` instances,
voice by voice (log 21). `sel` is the instance whose command is being performed (log 2). `stream` is what the controller has
presented and the machine has not taken, oldest first (log 10). `response` is the response of the
command performed last (log 9). -/
structure State where
  cfg      : Config
  insts    : List Envelope
  sel      : InstId
  stream   : List Input
  response : Option Response
  deriving DecidableEq, Repr

/-- Why the machine stops (60_exceptions R132, R134). -/
inductive Fault where
  /-- `UnprogrammedRead`: raised by process in the stage given, when its arm would read an UNSET
  register. The spec states this outcome (42_process R114, 60_exceptions R132 and R134,
  92_eei_decisions D20, 93_implementation_defined U6) and tests it (95_test_vectors Q21, Q22, P5a).
  Safe: no value is invented for a register that has none. -/
  | unprogrammedRead (stage : Stage)
  deriving DecidableEq, Repr

/-- Why a command has no step (60_exceptions R132, R133). -/
inductive Refusal where
  /-- Raised by the arm of an instruction without a meaning; no arm raises it. Safe. -/
  | notModelled (mnemonic : String)
  /-- `ReservedOpcode`: raised by the decoder (30_encoding R66). Safe. -/
  | reservedOpcode
  /-- `ReservedBits`: raised by the decoder (30_encoding R67). Safe. -/
  | reservedBits
  /-- Raised by the decoder when fewer words are presented than the format has (log 11). Safe. -/
  | incompleteCommand
  /-- Raised by the command stream when a presentation names an instance that `N_INST` does not give
  (log 21). Safe. -/
  | noSuchInstance
  /-- `RateOutOfDomain`: raised by setRates (40_configuration R83). Safe. -/
  | rateOutOfDomain
  /-- `LevelOutOfDomain`: raised by setLevels (40_configuration R88). Safe. -/
  | levelOutOfDomain
  /-- `SampleRateOutOfDomain`: raised by setSampleRate (40_configuration R92). Safe. -/
  | sampleRateOutOfDomain
  deriving DecidableEq, Repr

/-- Four registers that hold +0.0. -/
def Quad.zero : Quad := ⟨Word.zero, Word.zero, Word.zero, Word.zero⟩

/-- One instance after reset (10_state R38). The values under an UNSET mark are the model's choice,
and nothing reads them (log 7). -/
def Envelope.reset : Envelope where
  stage    := .idle
  level    := Word.zero
  rate     := Quad.zero
  rateMark := .unset
  lvl      := Quad.zero
  lvlMark  := .unset
  fs       := Word.zero
  fsMark   := .unset
  coef     := Quad.zero
  coefMark := .unset

/-- The machine after reset: every instance at its reset state (60_exceptions R144), the default
configuration (00_scope R11), nothing presented and no response (log 18). -/
def State.reset : State where
  cfg      := Config.default
  insts    := List.replicate Config.default.nInst Envelope.reset
  sel      := ⟨0, 0⟩
  stream   := []
  response := none

end Sys2Proof.Machine
end

