-- ==== Sys2Proof/Machine/Operands.lean ====
section
/-!
DEFINITION. The operands of the configuration commands: their domains (40_configuration R83, R88,
R92; 30_encoding R69) and the values the registers take.
-/

namespace Sys2Proof.Machine

/-- Finite and between two bounds, both included; -0.0 compares equal to 0.0 (30_encoding R69). -/
def inDomain (low high x : Word) : Bool := isFinite x && fle low x && fle x high

/-- `RateInDomain` (40_configuration R83). -/
def rateInDomain (cfg : Config) (r : Word) : Bool := inDomain cfg.rateMin cfg.rateMax r

/-- `LevelInDomain` (40_configuration R88). -/
def levelInDomain (cfg : Config) (l : Word) : Bool := inDomain cfg.lvlMin cfg.lvlMax l

/-- `SampleRateInDomain` (40_configuration R92). -/
def sampleRateInDomain (cfg : Config) (fs : Word) : Bool := inDomain cfg.fsMin cfg.fsMax fs

/-- A test of all four, in order (60_exceptions R136). -/
def Quad.all (q : Quad) (p : Word → Bool) : Bool := p q.v1 && p q.v2 && p q.v3 && p q.v4

/-- One function of each of the four. -/
def Quad.map (q : Quad) (f : Word → Word) : Quad := ⟨f q.v1, f q.v2, f q.v3, f q.v4⟩

/-- The four operands as the registers of the configured format hold them (log 14). -/
def narrowed (cfg : Config) (q : Quad) : Quad := q.map (narrow cfg.fmt)

end Sys2Proof.Machine
end

