-- ==== Sys2Proof/Machine/Ops.lean ====
section
/-!
DEFINITION. The named operations: selecting an instance, writing its registers, deriving the
coefficients (40_configuration R84, R85), the approach (42_process R107), the programming check
(R114), the response, and taking the next command from the stream. The block has no trap, so there
is no exception entry and no return from one (60_exceptions R131, R137, R138).
-/

namespace Sys2Proof.Machine

/-! Instances -/

/-- The place of an instance: six operators to a voice (60_exceptions R144). -/
def InstId.index (k : InstId) : Nat := k.voice * 6 + k.operator.val

/-- The configuration gives an instance of this name: its place is one of the first `N_INST`
(00_scope R11; log 21). -/
def State.has (s : State) (k : InstId) : Bool := decide (k.index < s.cfg.nInst)

/-- The instance `k`. Past the end of the list, where no state of `N_INST` instances has a name it
serves, every instance is in the reset state. -/
def State.inst (s : State) (k : InstId) : Envelope := s.insts.getD k.index Envelope.reset

/-- One place of a list of instances written. Past the end the list grows by instances in the reset
state, unless the write is of that state. -/
def setPlace (l : List Envelope) (n : Nat) (e : Envelope) : List Envelope :=
  if n < l.length then l.set n e
  else if e = Envelope.reset then l
  else l ++ List.replicate (n - l.length) Envelope.reset ++ [e]

/-- Puts `e` in the place of instance `k` and leaves every other instance alone (00_scope R7). -/
def State.putInst (s : State) (k : InstId) (e : Envelope) : State :=
  { s with insts := setPlace s.insts k.index e }

/-- The instance whose command is being performed. -/
def State.current (s : State) : Envelope := s.inst s.sel

/-- Completes a command: the instance's new state and the response, if the command gives one
(30_encoding R65). -/
def State.finish (s : State) (e : Envelope) (r : Option Response) : State :=
  { s.putInst s.sel e with response := r }

/-! Configuration -/

/-- `CoefOf(rate, fs)` (40_configuration R85), for an exponential function given as `ex`. -/
def coefWith (ex : Word → Word) (cfg : Config) (fs rate : Word) : Word :=
  let m := fneg (fmul cfg.fmt cfg.kSlope rate)
  let e1 := ex m
  let t := fmul cfg.fmt cfg.kT0 e1
  let q := fmul cfg.fmt t fs
  let y := fdiv cfg.fmt Word.one q
  let e2 := ex (fneg y)
  fsub cfg.fmt Word.one e2

/-- `CoefOf(rate, fs)` with the configured `EXP64` (40_configuration R85, R86). -/
def coefOf (cfg : Config) (fs rate : Word) : Word := coefWith (exp64 cfg.fmt) cfg fs rate

/-- `RecomputeCoefficients()` (40_configuration R84): nothing unless `RATE` and `FS` are both
written. -/
def Envelope.recompute (cfg : Config) (e : Envelope) : Envelope :=
  if e.rateMark = .written ∧ e.fsMark = .written then
    { e with coef := e.rate.map (coefOf cfg e.fs), coefMark := .written }
  else e

/-- Writes the four rates and their mark, then recomputes (40_configuration R82). -/
def Envelope.writeRates (cfg : Config) (q : Quad) (e : Envelope) : Envelope :=
  ({ e with rate := narrowed cfg q, rateMark := .written } : Envelope).recompute cfg

/-- Writes the four target levels and their mark (40_configuration R89). -/
def Envelope.writeLevels (cfg : Config) (q : Quad) (e : Envelope) : Envelope :=
  { e with lvl := narrowed cfg q, lvlMark := .written }

/-- Writes the sample rate and its mark, then recomputes (40_configuration R90). -/
def Envelope.writeSampleRate (cfg : Config) (fs : Word) (e : Envelope) : Envelope :=
  ({ e with fs := narrow cfg.fmt fs, fsMark := .written } : Envelope).recompute cfg

/-! The sample -/

/-- `Approach(c, target)` (42_process R107): the level after one sample, each operation rounded, in
the order written. -/
def approached (fmt : Fmt) (level c target : Word) : Word :=
  fadd fmt level (fmul fmt c (fsub fmt target level))

/-- `ReleaseTarget()` (10_state R33, 42_process R113). -/
def releaseTarget (cfg : Config) (e : Envelope) : Word :=
  match cfg.releaseTarget with
  | .zero => Word.zero
  | .level4 => e.lvl.v4

/-- `CheckProgrammed()` (42_process R114): the arm of the current stage reads no UNSET element. -/
def Envelope.programmed (cfg : Config) (e : Envelope) : Bool :=
  match e.stage with
  | .idle => true
  | .attack => decide (e.coefMark = .written ∧ e.lvlMark = .written)
  | .decay1 => decide (e.coefMark = .written ∧ e.lvlMark = .written)
  | .decay2 => decide (e.coefMark = .written ∧ e.lvlMark = .written)
  | .sustain =>
    match cfg.sustainMode with
    | .freeze => true
    | .trackL3 => decide (e.lvlMark = .written)
  | .release =>
    match cfg.releaseTarget with
    | .zero => decide (e.coefMark = .written)
    | .level4 => decide (e.coefMark = .written ∧ e.lvlMark = .written)

/-! The command stream -/

/-- The refusal a decoding error is reported as (60_exceptions R132). -/
def refusalOf : DecodeError → Refusal
  | .reservedBits => .reservedBits
  | .reservedOpcode => .reservedOpcode
  | .incomplete => .incompleteCommand

/-- What the machine finds when it takes the next presentation. -/
inductive Taken where
  /-- Nothing to perform: an idle port (30_encoding R73), or a reset, which is done in `s`. -/
  | done (s : State)
  /-- A command to perform in `s`, its instance selected and its words taken. -/
  | command (i : Instr) (s : State)
  /-- No command, presented at `k`; `s` is the state without the refused presentation (60_exceptions
  R133). -/
  | refused (r : Refusal) (k : InstId) (s : State)
  deriving DecidableEq, Repr

/-- The reset input of instance `k` (70_reset R151): its reset state, and no response. -/
def State.resetInst (s : State) (k : InstId) : State :=
  { s.putInst k Envelope.reset with response := none }

/-- The stream once a command of `inp` has been taken and `left` are the words after it. -/
def streamAfter (inp : Input) (left : List Word) (rest : List Input) : List Input :=
  match left with
  | [] => rest
  | _ :: _ => { inp with words := left } :: rest

/-- Takes the next presentation: an idle port does nothing (30_encoding R73); a name without an
instance is refused (log 21); a reset wins over the words presented with it (70_reset R153); else
one command is decoded (30_encoding R68) and the words after it stay for the next step (log 12). -/
def State.take (s : State) : Taken :=
  match s.stream with
  | [] => .done s
  | inp :: rest =>
    if inp.reset = false ∧ inp.words = [] then .done { s with stream := rest }
    else if s.has inp.inst = false then
      .refused .noSuchInstance inp.inst { s with stream := rest, response := none }
    else if inp.reset then .done ({ s with stream := rest }.resetInst inp.inst)
    else
      match decode inp.words with
      | .ok (i, left) => .command i { s with sel := inp.inst, stream := streamAfter inp left rest }
      | .error e => .refused (refusalOf e) inp.inst { s with stream := rest, response := none }

/-- The state with the table's bits `w` presented as the next command, at the instance selected
(log 10). -/
def State.presentTableWord (s : State) (nbits w : Nat) : State :=
  { s with stream := ⟨s.sel, false, commandWords nbits w⟩ :: s.stream }

end Sys2Proof.Machine
end

