-- ==== Sys2Proof/Machine/Configuration.lean ====
section
/-!
DEFINITION. The configuration commands (40_configuration). None changes the stage, the level or the
active flag, and none gives a response (R81). Each is refused as a whole if an operand is outside
its domain.
-/

namespace Sys2Proof.Machine

/-- `setRates` (40_configuration R82). -/
def execSetRates (r1 r2 r3 r4 : Word) (s : State) : Host.Outcome State Fault Refusal :=
  if (Quad.mk r1 r2 r3 r4).all (rateInDomain s.cfg) then
    .next (s.finish (s.current.writeRates s.cfg ⟨r1, r2, r3, r4⟩) none)
  else .refused .rateOutOfDomain

/-- `setLevels` (40_configuration R89). -/
def execSetLevels (l1 l2 l3 l4 : Word) (s : State) : Host.Outcome State Fault Refusal :=
  if (Quad.mk l1 l2 l3 l4).all (levelInDomain s.cfg) then
    .next (s.finish (s.current.writeLevels s.cfg ⟨l1, l2, l3, l4⟩) none)
  else .refused .levelOutOfDomain

/-- `setSampleRate` (40_configuration R90). -/
def execSetSampleRate (fs : Word) (s : State) : Host.Outcome State Fault Refusal :=
  if sampleRateInDomain s.cfg fs then
    .next (s.finish (s.current.writeSampleRate s.cfg fs) none)
  else .refused .sampleRateOutOfDomain

end Sys2Proof.Machine
end

