-- ==== Sys2Proof/Machine/Flags.lean ====
section
/-!
DEFINITION. The active flag, which is derived from the stage (10_state R29), and the observation
outputs (10_state R37).
-/

namespace Sys2Proof.Machine

/-- The code of a stage (10_state R24). -/
def Stage.code : Stage → BitVec 3
  | .idle => 0b000#3
  | .attack => 0b001#3
  | .decay1 => 0b010#3
  | .decay2 => 0b011#3
  | .sustain => 0b100#3
  | .release => 0b101#3

/-- `ACTIVE = (STAGE ≠ Idle)` (10_state R29). -/
def Envelope.active (e : Envelope) : Bool := decide (e.stage ≠ .idle)

/-- The output `level_o` (10_state R37). -/
def Envelope.levelOut (e : Envelope) : Word := e.level

/-- The output `stage_o` (10_state R37). -/
def Envelope.stageOut (e : Envelope) : BitVec 3 := e.stage.code

/-- The output `active_o` (10_state R37). -/
def Envelope.activeOut (e : Envelope) : Bool := e.active

end Sys2Proof.Machine
end

