-- ==== Sys2Proof/Machine/Gate.lean ====
section
/-!
DEFINITION. The gate commands and the activity query (41_note_control). They read no programming
register, so none can fault.
-/

namespace Sys2Proof.Machine

/-- The gate opens (41_note_control R96): Attack at +0.0 from every stage, the programming kept. -/
def Envelope.gateOn (e : Envelope) : Envelope := { e with stage := .attack, level := Word.zero }

/-- The gate closes (41_note_control R97): Release at the same level, unless the stage is Idle. -/
def Envelope.gateOff (e : Envelope) : Envelope :=
  if e.stage = .idle then e else { e with stage := .release }

/-- `noteOn` (41_note_control R96). -/
def execNoteOn (s : State) : Host.Outcome State Fault Refusal :=
  .next (s.finish s.current.gateOn none)

/-- `noteOff` (41_note_control R97). -/
def execNoteOff (s : State) : Host.Outcome State Fault Refusal :=
  .next (s.finish s.current.gateOff none)

/-- `isActive` (41_note_control R98): responds with the active bit and changes no instance. -/
def execIsActive (s : State) : Host.Outcome State Fault Refusal :=
  .next (s.finish s.current (some (.active s.current.active)))

end Sys2Proof.Machine
end

