-- ==== Sys2Proof/Machine/Sample.lean ====
section
/-!
DEFINITION. The sample command, process (42_process): the only command that advances time. Each arm
approaches first and tests the new level after, and makes at most one transition (R115).
-/

namespace Sys2Proof.Machine

/-- The Attack arm (42_process R109): toward `LVL[1]`; Decay1 when the new level is at least
`K_ATTACK ⊗ LVL[1]`, with no snap. -/
def Envelope.attackArm (cfg : Config) (e : Envelope) : Envelope :=
  let level := approached cfg.fmt e.level e.coef.v1 e.lvl.v1
  { e with
    level := level
    stage := if fle (fmul cfg.fmt cfg.kAttack e.lvl.v1) level then .decay1 else .attack }

/-- The completion test of a decay (42_process R110, R111): strictly within `K_EPS` of the target. -/
def withinEps (cfg : Config) (level target : Word) : Bool :=
  flt (fabs (fsub cfg.fmt level target)) cfg.kEps

/-- The Decay1 arm (42_process R110). -/
def Envelope.decay1Arm (cfg : Config) (e : Envelope) : Envelope :=
  let level := approached cfg.fmt e.level e.coef.v2 e.lvl.v2
  { e with level := level, stage := if withinEps cfg level e.lvl.v2 then .decay2 else .decay1 }

/-- The Decay2 arm (42_process R111). -/
def Envelope.decay2Arm (cfg : Config) (e : Envelope) : Envelope :=
  let level := approached cfg.fmt e.level e.coef.v3 e.lvl.v3
  { e with level := level, stage := if withinEps cfg level e.lvl.v3 then .sustain else .decay2 }

/-- The Sustain arm (42_process R112): nothing with `FREEZE`; the level jumps to `LVL[3]` with
`TRACK_L3`. -/
def Envelope.sustainArm (cfg : Config) (e : Envelope) : Envelope :=
  match cfg.sustainMode with
  | .freeze => e
  | .trackL3 => { e with level := e.lvl.v3 }

/-- The Release arm (42_process R113): toward the release target; below `K_FLOOR` the level snaps to
+0.0 and the stage is Idle. -/
def Envelope.releaseArm (cfg : Config) (e : Envelope) : Envelope :=
  let level := approached cfg.fmt e.level e.coef.v4 (releaseTarget cfg e)
  if flt level cfg.kFloor then { e with level := Word.zero, stage := .idle }
  else { e with level := level }

/-- One sample (42_process R106): the arm of the current stage, and no other (R115). -/
def Envelope.sample (cfg : Config) (e : Envelope) : Envelope :=
  match e.stage with
  | .idle => e
  | .attack => e.attackArm cfg
  | .decay1 => e.decay1Arm cfg
  | .decay2 => e.decay2Arm cfg
  | .sustain => e.sustainArm cfg
  | .release => e.releaseArm cfg

/-- `process` (42_process R106): the programming check before any write (R114), one sample, and the
level at the end of the command as the response (R116). -/
def execProcess (s : State) : Host.Outcome State Fault Refusal :=
  if s.current.programmed s.cfg then
    .next (s.finish (s.current.sample s.cfg) (some (.level (s.current.sample s.cfg).level)))
  else .fault (.unprogrammedRead s.current.stage)

end Sys2Proof.Machine
end

