-- ==== Sys2Proof/Machine/Dispatch.lean ====
section
/-! DEFINITION. The dispatch: one arm per command, each one call of its meaning. -/

namespace Sys2Proof.Machine

def exec (i : Instr) (s : State) : Host.Outcome State Fault Refusal :=
  match i with
  | .setRates r1 r2 r3 r4 => Sys2Proof.Machine.execSetRates r1 r2 r3 r4 s
  | .setLevels l1 l2 l3 l4 => Sys2Proof.Machine.execSetLevels l1 l2 l3 l4 s
  | .setSampleRate fs => Sys2Proof.Machine.execSetSampleRate fs s
  | .noteOn => Sys2Proof.Machine.execNoteOn s
  | .noteOff => Sys2Proof.Machine.execNoteOff s
  | .process => Sys2Proof.Machine.execProcess s
  | .isActive => Sys2Proof.Machine.execIsActive s

end Sys2Proof.Machine
end

