-- ==== Sys2Proof/Machine/Step.lean ====
section
/-!
DEFINITION. One step of the machine: it takes the next presentation and performs the command in it
(00_scope R6, 20_memory R54).
-/

namespace Sys2Proof.Machine

/-- One step. A reset or an idle port is a step of its own; a refused presentation has no step
(60_exceptions R133). -/
def step (s : State) : Host.Outcome State Fault Refusal :=
  match s.take with
  | .done t => .next t
  | .command i t => exec i t
  | .refused r _ _ => .refused r

/-- The state with the table's bits `w` as the next command (log 10). -/
def State.withFetchWord (s : State) (nbits w : Nat) : State := s.presentTableWord nbits w

end Sys2Proof.Machine
end

