-- ==== Sys2Proof/Machine/Environment.lean ====
section
/-!
DEFINITION. The commands the M2DX environment issues to the block: the expansions of 30_encoding
R72, the parameter addresses of 20_memory R47 and R48, the clamps of R49 and R72, and the fan-out of
R50. What the environment itself holds is no state of the block (10_state R39) and is an argument
here (log 15).
-/

namespace Sys2Proof.Machine

/-- What an expansion reads of the environment: the note each Voice holds, and the rates and levels
last written for each operator. -/
structure EnvView where
  notes  : List Nat
  rates  : Vector Quad 6
  levels : Vector Quad 6
  deriving DecidableEq, Repr

/-- An operation of the environment that reaches the block (00_scope R8, 30_encoding R72,
41_note_control R99, 92_eei_decisions D33). -/
inductive EnvOp where
  | operatorNoteOn (k : InstId) (baseFrequency : Word)
  | operatorNoteOff (k : InstId)
  | operatorProcess (k : InstId) (modulation : Word)
  | operatorIsActive (k : InstId)
  | operatorRates (k : InstId) (q : Quad)
  | operatorLevels (k : InstId) (q : Quad)
  | operatorSampleRate (k : InstId) (sampleRate : Word)
  | voiceNoteOn (v note velocity : Nat)
  | voiceNoteOff (v : Nat)
  | voiceProcess (v : Nat)
  | kernelNoteOn (note velocity : Nat)
  | kernelNoteOff (note : Nat)
  | allNotesOff
  | envelopeRates (operator : Int) (q : Quad)
  | envelopeLevels (operator : Int) (q : Quad)
  | kernelInitialize (sampleRate : Word)
  | parameterWrite (address : Nat) (x : Word)
  deriving DecidableEq, Repr

/-- A register that a parameter address reaches (20_memory R48); `j` counts from 0. -/
inductive ParamTarget where
  | rate (operator : Fin 6) (j : Fin 4)
  | level (operator : Fin 6) (j : Fin 4)
  deriving DecidableEq, Repr

/-- The address of a rate or level (20_memory R47, R48). -/
def paramAddress : ParamTarget → Nat
  | .rate k j => 100 + 100 * k.val + 10 + j.val
  | .level k j => 100 + 100 * k.val + 20 + j.val

/-- What an address reaches in the block, if anything (20_memory R48). -/
def paramTarget (address : Nat) : Option ParamTarget :=
  if address < 100 then none
  else
    let k := (address - 100) / 100
    let offset := (address - 100) % 100
    if hk : k < 6 then
      if hr : 10 ≤ offset ∧ offset < 14 then some (.rate ⟨k, hk⟩ ⟨offset - 10, by omega⟩)
      else if hl : 20 ≤ offset ∧ offset < 24 then some (.level ⟨k, hk⟩ ⟨offset - 20, by omega⟩)
      else none
    else none

/-- The clamp of an operator index into [0, 5] (20_memory R49). -/
def clampOperator (k : Int) : Fin 6 := ⟨(max 0 (min k 5)).toNat, by omega⟩

/-- The clamp of a value into its domain (30_encoding R72). -/
def clampValue (low high x : Word) : Word :=
  if flt x low then low else if flt high x then high else x

/-- The size of the Voice pool, six operators to a Voice: 16 by default (00_scope R7; log 21). -/
def voiceCount (cfg : Config) : Nat := cfg.nInst / 6

/-- The six instances of a Voice. -/
def voiceInsts (v : Nat) : List InstId := (List.finRange 6).map fun k => ⟨v, k⟩

/-- The instances of an operator, one in every Voice (20_memory R50). -/
def operatorInsts (cfg : Config) (k : Fin 6) : List InstId :=
  (List.range (voiceCount cfg)).map fun v => ⟨v, k⟩

/-- The name of the instance at a place (60_exceptions R144). -/
def InstId.ofIndex (n : Nat) : InstId := ⟨n / 6, n % 6, Nat.mod_lt n (by decide)⟩

/-- Every instance, voice by voice. -/
def allInsts (cfg : Config) : List InstId := (List.range cfg.nInst).map InstId.ofIndex

/-- A Voice is active iff one of its envelopes is (41_note_control R99). -/
def State.voiceActive (s : State) (v : Nat) : Bool :=
  (voiceInsts v).any fun k => (s.inst k).active

/-- The first Voice in pool order that is not active, else pool slot 0, which is stolen
(30_encoding R72, 90_conflicts C10). -/
def State.allocatedVoice (s : State) : Nat :=
  ((List.range (voiceCount s.cfg)).find? fun v => !s.voiceActive v).getD 0

/-- One command to each of some instances. -/
def toEach (ks : List InstId) (i : Instr) : List (InstId × Instr) := ks.map fun k => (k, i)

/-- `setRates` with clamped operands to every instance of an operator (30_encoding R72). -/
def fanOutRates (cfg : Config) (k : Fin 6) (q : Quad) : List (InstId × Instr) :=
  let c := q.map (clampValue cfg.rateMin cfg.rateMax)
  toEach (operatorInsts cfg k) (.setRates c.v1 c.v2 c.v3 c.v4)

/-- `setLevels` with clamped operands to every instance of an operator (30_encoding R72). -/
def fanOutLevels (cfg : Config) (k : Fin 6) (q : Quad) : List (InstId × Instr) :=
  let c := q.map (clampValue cfg.lvlMin cfg.lvlMax)
  toEach (operatorInsts cfg k) (.setLevels c.v1 c.v2 c.v3 c.v4)

/-- One of four registers replaced. -/
def Quad.replace (q : Quad) (j : Fin 4) (x : Word) : Quad :=
  match j with
  | 0 => { q with v1 := x }
  | 1 => { q with v2 := x }
  | 2 => { q with v3 := x }
  | 3 => { q with v4 := x }

/-- `noteOff` to the instances of every active Voice that holds `note` (30_encoding R72). -/
def noteOffHolders (view : EnvView) (s : State) (note : Nat) : List (InstId × Instr) :=
  ((List.range (voiceCount s.cfg)).filter fun v =>
    s.voiceActive v && view.notes[v]? == some note).flatMap fun v => toEach (voiceInsts v) .noteOff

/-- The commands an operation of the environment expands to, in order (30_encoding R72). The
Operator passes rates, levels and its sample rate through as they are (00_scope R8; 92_eei_decisions
D33). A Voice that is not active is not processed (41_note_control R99). -/
def expand (view : EnvView) (s : State) : EnvOp → List (InstId × Instr)
  | .operatorNoteOn k _ => [(k, .noteOn)]
  | .operatorNoteOff k => [(k, .noteOff)]
  | .operatorProcess k _ => [(k, .process)]
  | .operatorIsActive k => [(k, .isActive)]
  | .operatorRates k q => [(k, .setRates q.v1 q.v2 q.v3 q.v4)]
  | .operatorLevels k q => [(k, .setLevels q.v1 q.v2 q.v3 q.v4)]
  | .operatorSampleRate k sampleRate => [(k, .setSampleRate sampleRate)]
  | .voiceNoteOn v _ _ => toEach (voiceInsts v) .noteOn
  | .voiceNoteOff v => toEach (voiceInsts v) .noteOff
  | .voiceProcess v => if s.voiceActive v then toEach (voiceInsts v) .process else []
  | .kernelNoteOn note velocity =>
    if velocity = 0 then noteOffHolders view s note
    else toEach (voiceInsts s.allocatedVoice) .noteOn
  | .kernelNoteOff note => noteOffHolders view s note
  | .allNotesOff => toEach (allInsts s.cfg) .noteOff
  | .envelopeRates k q => fanOutRates s.cfg (clampOperator k) q
  | .envelopeLevels k q => fanOutLevels s.cfg (clampOperator k) q
  | .kernelInitialize sampleRate => toEach (allInsts s.cfg) (.setSampleRate sampleRate)
  | .parameterWrite address x =>
    match paramTarget address with
    | some (.rate k j) => fanOutRates s.cfg k (view.rates[k.val].replace j x)
    | some (.level k j) => fanOutLevels s.cfg k (view.levels[k.val].replace j x)
    | none => []

/-- Presents commands, each at its instance's port, after what is already presented. -/
def State.issue (s : State) (cs : List (InstId × Instr)) : State :=
  { s with stream := s.stream ++ cs.map fun c => ⟨c.1, false, encode c.2⟩ }

end Sys2Proof.Machine
end

