-- ==== Sys2Proof/Machine/Run.lean ====
section
/-!
DEFINITION. A run (00_scope R10): what the machine shows, and the refusal and fault marks, which
belong to the run and not to the block (60_exceptions R132 to R134; log 8). A run goes on after a
refused or a faulting command, which changed no register, keeps the mark for good, and shows nothing
more of the instance that has it.
-/

namespace Sys2Proof.Machine

/-- A refused command: its position in the stream, its instance and the reason (R132). -/
structure RefusalRecord where
  position : Nat
  inst     : InstId
  reason   : Refusal
  deriving DecidableEq, Repr

/-- A faulting command: its position in the stream, its instance and the reason, which names the
stage (R132). -/
structure FaultRecord where
  position : Nat
  inst     : InstId
  reason   : Fault
  deriving DecidableEq, Repr

/-- A run so far. `position` counts the commands taken; `shown` holds the responses, oldest first. -/
structure Run where
  state    : State
  position : Nat
  shown    : List (InstId × Response)
  refusals : List RefusalRecord
  faults   : List FaultRecord
  deriving DecidableEq, Repr

/-- The run that has taken nothing. -/
def Run.start (s : State) : Run := ⟨s, 0, [], [], []⟩

/-- The run of instance `k` has reached a refusal or a fault (60_exceptions R133, R134). -/
def Run.marked (r : Run) (k : InstId) : Bool :=
  r.refusals.any (fun m => m.inst = k) || r.faults.any (fun m => m.inst = k)

/-- What the run shows of instance `k` besides its state: its responses, oldest first (00_scope
R10). -/
def Run.shownAt (r : Run) (k : InstId) : List Response :=
  (r.shown.filter fun p => p.1 = k).map Prod.snd

/-- What `k`'s response adds to what the run shows: nothing more once the instance's run has a mark
(00_scope R10). -/
def Run.showing (r : Run) (k : InstId) (v : Option Response) : List (InstId × Response) :=
  if r.marked k then [] else v.toList.map fun x => (k, x)

/-- One more presentation taken: the outcome of `step`, with what it shows or the mark it leaves. -/
def Run.advance (r : Run) : Run :=
  match r.state.take with
  | .done t => { r with state := t }
  | .refused e k t =>
    { r with state := t, position := r.position + 1
             refusals := r.refusals ++ [⟨r.position, k, e⟩] }
  | .command i t =>
    match exec i t with
    | .next u =>
      { r with state := u, position := r.position + 1
               shown := r.shown ++ r.showing u.sel u.response }
    | .fault f =>
      { r with state := { t with response := none }, position := r.position + 1
               faults := r.faults ++ [⟨r.position, t.sel, f⟩] }
    | .refused e =>
      { r with state := { t with response := none }, position := r.position + 1
               refusals := r.refusals ++ [⟨r.position, t.sel, e⟩] }

/-- The run after `n` more presentations. -/
def Run.steps : Nat → Run → Run
  | 0, r => r
  | n + 1, r => Run.steps n r.advance

end Sys2Proof.Machine
end

