-- ==== Sys2Proof/WellFormed.lean ====
section
/-!
DEFINITION. Well-formed commands: those that keep the controller's duty of 00_scope R9, every
operand in its domain. A command that is not well-formed decodes all the same and is refused by its
meaning (30_encoding R69).
-/

namespace Sys2Proof

/-- Every operand is in its domain (40_configuration R83, R88, R92). -/
def Instr.wellFormed (cfg : Config) : Instr → Bool
  | .setRates r1 r2 r3 r4 => (Machine.Quad.mk r1 r2 r3 r4).all (Machine.rateInDomain cfg)
  | .setLevels l1 l2 l3 l4 => (Machine.Quad.mk l1 l2 l3 l4).all (Machine.levelInDomain cfg)
  | .setSampleRate fs => Machine.sampleRateInDomain cfg fs
  | .noteOn => true
  | .noteOff => true
  | .process => true
  | .isActive => true

end Sys2Proof
end

