-- ==== Sys2Proof/Safety.lean ====
section
/-!
DEFINITION. What claims are stated with: good runs (60_exceptions R133, R134), the controller's
duties (00_scope R9, 70_reset R155), and the invariants of the state (10_state section 4).
-/

namespace Sys2Proof

/-- The admitted domain of 40_configuration R87: binary64, the time-constant formula and the operand
domains at their defaults. The other parameters may have any value. -/
def Config.Admitted (cfg : Config) : Prop :=
  cfg.fmt = .binary64 ∧ cfg.kT0 = Config.default.kT0 ∧ cfg.kSlope = Config.default.kSlope ∧
  cfg.fsMin = Config.default.fsMin ∧ cfg.fsMax = Config.default.fsMax ∧
  cfg.rateMin = Config.default.rateMin ∧ cfg.rateMax = Config.default.rateMax ∧
  cfg.lvlMin = Config.default.lvlMin ∧ cfg.lvlMax = Config.default.lvlMax

end Sys2Proof

namespace Sys2Proof.Machine

/-- A good run carries neither mark (60_exceptions R133, R134). -/
abbrev Run.Good (r : Run) : Prop := r.refusals = [] ∧ r.faults = []

/-- The boot of 70_reset R155 is done. -/
abbrev Envelope.Booted (e : Envelope) : Prop :=
  e.rateMark = .written ∧ e.lvlMark = .written ∧ e.fsMark = .written ∧ e.coefMark = .written

/-- A value in [0, 1]. -/
abbrev inUnit (w : Word) : Bool := inDomain Word.zero Word.one w

/-- In Idle the level is +0.0 (10_state R35). -/
abbrev Envelope.Silent (e : Envelope) : Prop := e.stage = .idle → e.level = Word.zero

/-- The coefficients are written exactly when both their inputs are (40_configuration R84), and are
then those of the current rates and sample rate (R91). -/
def Envelope.Derived (cfg : Config) (e : Envelope) : Prop :=
  (e.coefMark = .written ↔ e.rateMark = .written ∧ e.fsMark = .written) ∧
  (e.coefMark = .written → e.coef = e.rate.map (coefOf cfg e.fs))

/-- Every written programming register is in its domain (10_state R23). -/
def Envelope.InDomains (cfg : Config) (e : Envelope) : Prop :=
  (e.rateMark = .written → e.rate.all (rateInDomain cfg) = true) ∧
  (e.lvlMark = .written → e.lvl.all (levelInDomain cfg) = true) ∧
  (e.fsMark = .written → sampleRateInDomain cfg e.fs = true)

/-- Every instance has the property. -/
def State.Every (s : State) (p : Envelope → Prop) : Prop := ∀ k : InstId, p (s.inst k)

/-- The level invariant of 10_state R34, with what it needs to be kept by every step: the admitted
domain, operands in their domains, and coefficients derived from them. -/
def State.LevelInv (s : State) : Prop :=
  s.cfg.Admitted ∧
  s.Every fun e => e.Derived s.cfg ∧ e.InDomains s.cfg ∧ inUnit e.level = true

/-- The state holds the `N_INST` instances of its configuration, and the one selected is one of them
(00_scope R7, 60_exceptions R144). -/
def State.Sized (s : State) : Prop := s.insts.length = s.cfg.nInst ∧ s.has s.sel = true

/-- The table of 10_state R36, but for reset: the command that causes a change of stage. noteOff in
Idle and in Release changes nothing, and process changes the stage only where the completion test
holds. -/
def stageCause : Instr → Stage → Stage → Bool
  | .noteOn, _, .attack => true
  | .noteOff, .attack, .release => true
  | .noteOff, .decay1, .release => true
  | .noteOff, .decay2, .release => true
  | .noteOff, .sustain, .release => true
  | .process, .attack, .decay1 => true
  | .process, .decay1, .decay2 => true
  | .process, .decay2, .sustain => true
  | .process, .release, .idle => true
  | _, _, _ => false

/-- The completion test of the stage (10_state section 3), made on the level that this sample's
approach gives (42_process R109 to R113, R115). -/
def completionTest (cfg : Config) (e : Envelope) : Bool :=
  match e.stage with
  | .idle => false
  | .attack =>
    fle (fmul cfg.fmt cfg.kAttack e.lvl.v1) (approached cfg.fmt e.level e.coef.v1 e.lvl.v1)
  | .decay1 =>
    flt (fabs (fsub cfg.fmt (approached cfg.fmt e.level e.coef.v2 e.lvl.v2) e.lvl.v2)) cfg.kEps
  | .decay2 =>
    flt (fabs (fsub cfg.fmt (approached cfg.fmt e.level e.coef.v3 e.lvl.v3) e.lvl.v3)) cfg.kEps
  | .sustain => false
  | .release => flt (approached cfg.fmt e.level e.coef.v4 (releaseTarget cfg e)) cfg.kFloor

/-- `y` is `x` clamped into a domain (30_encoding R72): `x` itself inside it, the nearer bound
outside. -/
def ClampsTo (low high x y : Word) : Prop :=
  (inDomain low high x = true → y = x) ∧
  (flt x low = true → y = low) ∧
  (flt high x = true → y = high)

/-- A relation between the first of each, the second of each, and so on. -/
def Quad.Pairs (p : Word → Word → Prop) (q r : Quad) : Prop :=
  p q.v1 r.v1 ∧ p q.v2 r.v2 ∧ p q.v3 r.v3 ∧ p q.v4 r.v4

/-- `n` process commands at the selected instance, one after the other. -/
def processTimes : Nat → State → Host.Outcome State Fault Refusal
  | 0, s => .next s
  | n + 1, s =>
    match exec .process s with
    | .next t => processTimes n t
    | .fault f => .fault f
    | .refused r => .refused r

/-- The rational a finite pattern stands for (30_encoding R63); 0 for the others. -/
def valueOf (w : Word) : ℚ :=
  match unpack w with
  | .fin neg m => (signedMag neg m : ℚ) / unitsPerOne
  | _ => 0

/-- `x` is a finite value in [-7.0, 0.0], and its size is `v` units (40_configuration R86). -/
def ExpArgument (x : Word) (v : Nat) : Prop :=
  (unpack x = .fin true v ∨ (v = 0 ∧ unpack x = .fin false 0)) ∧ v ≤ 7 * unitsPerOne

/-- The least coefficient of the admitted domain is above 2.6e-7 and the greatest below 0.49
(40_configuration R87, 42_process R117, R118); a coefficient between the two. -/
abbrev inCoefRange (c : Word) : Bool := inDomain 0x3E9172C417C771EF#64 0x3FDF5C28F5C28F5C#64 c

end Sys2Proof.Machine
end

