-- ==== Sys2Proof/Certificates/Slice0/Obligations.lean ====
section
/-!
DEFINITION. The statements for the provers. Each docstring names the rule of spec/ it formalises.
-/

open Sys2Proof Sys2Proof.Machine

/-! Reset and the ports -/

/-- 10_state R38: what every instance holds after reset. -/
def Obligations.ResetStateOfEveryInstance : Prop :=
  ∀ k : InstId,
    (State.reset.inst k).stage = .idle ∧ (State.reset.inst k).level = Word.zero ∧
    (State.reset.inst k).rateMark = .unset ∧ (State.reset.inst k).lvlMark = .unset ∧
    (State.reset.inst k).fsMark = .unset ∧ (State.reset.inst k).coefMark = .unset ∧
    (State.reset.inst k).active = false

/-- 70_reset R153, with R151 and 10_state R38: a reset asserted with words wins over them, brings its
instance to the reset state, leaves the others, and gives no response. The model's own choices in it
are the +0.0 that the reset state holds under an UNSET mark (log 7), the response port that the
reset clears (log 9), and that all words presented are dropped and one instance is reset (log 13). -/
def Obligations.ResetInputTakesPrecedence : Prop :=
  ∀ (s : State) (inp : Input) (rest : List Input), s.stream = inp :: rest →
    s.has inp.inst = true → inp.reset = true →
    ∃ t, step s = .next t ∧ t.stream = rest ∧ t.response = none ∧ t.cfg = s.cfg ∧
      t.inst inp.inst = Envelope.reset ∧ ∀ k, k ≠ inp.inst → t.inst k = s.inst k

/-- 30_encoding R73: an idle port is no command and has no effect. -/
def Obligations.IdlePortHasNoEffect : Prop :=
  (∀ s : State, s.stream = [] → step s = .next s) ∧
  (∀ (s : State) (inp : Input) (rest : List Input), s.stream = inp :: rest → inp.reset = false →
    inp.words = [] → step s = .next { s with stream := rest })

/-- 30_encoding R61, R68: a step runs the command decoded from the words presented, at the instance
they are presented to, after its words are taken. The model's own choices in it: `sel` names that
instance (log 2), and the words after the command stay first in the stream (log 12), which the last
two clauses say. -/
def Obligations.StepRunsDecodedCommand : Prop :=
  (∀ (s : State) (inp : Input) (rest : List Input) (i : Instr) (left : List Word),
    s.stream = inp :: rest → s.has inp.inst = true → inp.reset = false →
    decode inp.words = .ok (i, left) →
    step s = exec i { s with sel := inp.inst, stream := streamAfter inp left rest }) ∧
  (∀ (inp : Input) (rest : List Input), streamAfter inp [] rest = rest) ∧
  (∀ (inp : Input) (w : Word) (ws : List Word) (rest : List Input),
    streamAfter inp (w :: ws) rest = ⟨inp.inst, inp.reset, w :: ws⟩ :: rest)

/-- 30_encoding R66, R67 and 60_exceptions R133: a header with a reserved bit or opcode is refused,
the reserved bits being tested first; no register changes and the run is marked. -/
def Obligations.ReservedHeadersAreRefused : Prop :=
  ∀ (r : Run) (inp : Input) (rest : List Input) (h : Word) (ws : List Word) (e : Refusal),
    r.state.stream = inp :: rest → r.state.has inp.inst = true → inp.reset = false →
    inp.words = h :: ws →
    (headerRsv h ≠ 0 ∧ e = .reservedBits ∨
      headerRsv h = 0 ∧ (headerOp h = 0 ∨ 8 ≤ (headerOp h).toNat) ∧ e = .reservedOpcode) →
    step r.state = .refused e ∧
    r.advance.refusals = r.refusals ++ [⟨r.position, inp.inst, e⟩] ∧
    r.advance.shown = r.shown ∧ ∀ k, r.advance.state.inst k = r.state.inst k

/-! Encoding -/

/-- 95_test_vectors section 2.1 (EN1 to EN13) with 30_encoding R64: the headers. -/
def Obligations.HeaderWordsDecode : Prop :=
  ∀ a b c d : Word,
    decode [0x0000000000000001#64, a, b, c, d] = .ok (.setRates a b c d, []) ∧
    decode [0x0000000000000002#64, a, b, c, d] = .ok (.setLevels a b c d, []) ∧
    decode [0x0000000000000003#64, a] = .ok (.setSampleRate a, []) ∧
    decode [0x0000000000000004#64] = .ok (.noteOn, []) ∧
    decode [0x0000000000000005#64] = .ok (.noteOff, []) ∧
    decode [0x0000000000000006#64] = .ok (.process, []) ∧
    decode [0x0000000000000007#64] = .ok (.isActive, []) ∧
    decode [0x0000000000000000#64, a] = .error .reservedOpcode ∧
    decode [0x0000000000000008#64] = .error .reservedOpcode ∧
    decode [0x000000000000000F#64] = .error .reservedOpcode ∧
    decode [0x0000000000000016#64] = .error .reservedBits ∧
    decode [0x8000000000000004#64] = .error .reservedBits ∧
    decode [0x0000000000000010#64] = .error .reservedBits

/-- 30_encoding R61 to R64: the words that decode to a command are exactly its encoding. -/
def Obligations.DecodeIffEncode : Prop :=
  ∀ (ws : List Word) (i : Instr) (rest : List Word),
    decode ws = .ok (i, rest) ↔ ws = encode i ++ rest

/-- 20_memory R51 with 30_encoding R61 to R64: serialised to bytes and read back, every command is
itself, with the bytes after it untouched. -/
def Obligations.DecodeEncodeBytes : Prop :=
  ∀ (i : Instr) (rest : List Byte), decodeBytes (encodeBytes i ++ rest) = .ok (i, rest)

/-- 30_encoding R68: the opcode alone fixes the length. Fewer words than that are no command, which
is the model's own reading (log 11). -/
def Obligations.OpcodeAloneFixesLength : Prop :=
  ∀ (h : Word) (ws : List Word) (n : Nat), headerRsv h = 0 → payloadWords (headerOp h) = some n →
    (n ≤ ws.length → ∃ i, decode (h :: ws) = .ok (i, ws.drop n) ∧ i.words = n + 1) ∧
    (ws.length < n → decode (h :: ws) = .error .incomplete)

/-! Configuration commands -/

/-- 40_configuration R82, R84: setRates with operands in their domain writes the four rates, and the
four coefficients when the sample rate is written, and nothing else. In binary64 the rates are the
operands as they are; in binary32 they are rounded (log 14). -/
def Obligations.SetRatesWritesRatesAndCoefficients : Prop :=
  (∀ (s : State) (r1 r2 r3 r4 : Word), (Quad.mk r1 r2 r3 r4).all (rateInDomain s.cfg) = true →
    ∃ t, exec (.setRates r1 r2 r3 r4) s = .next t ∧
      t.inst s.sel = { s.inst s.sel with
        rate := narrowed s.cfg ⟨r1, r2, r3, r4⟩
        rateMark := .written
        coef := if (s.inst s.sel).fsMark = .written
          then (narrowed s.cfg ⟨r1, r2, r3, r4⟩).map (coefOf s.cfg (s.inst s.sel).fs)
          else (s.inst s.sel).coef
        coefMark := if (s.inst s.sel).fsMark = .written then .written
          else (s.inst s.sel).coefMark } ∧
      t.response = none ∧ t.cfg = s.cfg ∧ t.stream = s.stream ∧
      ∀ k, k ≠ s.sel → t.inst k = s.inst k) ∧
  (∀ (cfg : Config) (q : Quad), cfg.fmt = .binary64 → narrowed cfg q = q)

/-- 40_configuration R83: the rate domain at the default bounds, in units, and the refusal of the
whole command. -/
def Obligations.RatesOutOfDomainAreRefused : Prop :=
  (∀ r : Word, rateInDomain Config.default r = true ↔
    ∃ neg m, unpack r = .fin neg m ∧ 0 ≤ signedMag neg m ∧ signedMag neg m ≤ 99 * unitsPerOne) ∧
  (∀ (s : State) (r1 r2 r3 r4 : Word),
    rateInDomain s.cfg r1 = false ∨ rateInDomain s.cfg r2 = false ∨
      rateInDomain s.cfg r3 = false ∨ rateInDomain s.cfg r4 = false →
    exec (.setRates r1 r2 r3 r4) s = .refused .rateOutOfDomain)

/-- 40_configuration R89: setLevels with operands in their domain writes the four target levels and
nothing else; the coefficients are not recomputed. -/
def Obligations.SetLevelsWritesLevels : Prop :=
  ∀ (s : State) (l1 l2 l3 l4 : Word), (Quad.mk l1 l2 l3 l4).all (levelInDomain s.cfg) = true →
    ∃ t, exec (.setLevels l1 l2 l3 l4) s = .next t ∧
      t.inst s.sel = { s.inst s.sel with
        lvl := narrowed s.cfg ⟨l1, l2, l3, l4⟩
        lvlMark := .written } ∧
      t.response = none ∧ t.cfg = s.cfg ∧ t.stream = s.stream ∧
      ∀ k, k ≠ s.sel → t.inst k = s.inst k

/-- 40_configuration R88: the level domain at the default bounds, in units, and the refusal. -/
def Obligations.LevelsOutOfDomainAreRefused : Prop :=
  (∀ l : Word, levelInDomain Config.default l = true ↔
    ∃ neg m, unpack l = .fin neg m ∧ 0 ≤ signedMag neg m ∧ signedMag neg m ≤ unitsPerOne) ∧
  (∀ (s : State) (l1 l2 l3 l4 : Word),
    levelInDomain s.cfg l1 = false ∨ levelInDomain s.cfg l2 = false ∨
      levelInDomain s.cfg l3 = false ∨ levelInDomain s.cfg l4 = false →
    exec (.setLevels l1 l2 l3 l4) s = .refused .levelOutOfDomain)

/-- 40_configuration R90, R84: setSampleRate with its operand in its domain writes the sample rate,
and the four coefficients when the rates are written, and nothing else. -/
def Obligations.SetSampleRateWritesRateAndCoefficients : Prop :=
  ∀ (s : State) (fs : Word), sampleRateInDomain s.cfg fs = true →
    ∃ t, exec (.setSampleRate fs) s = .next t ∧
      t.inst s.sel = { s.inst s.sel with
        fs := narrow s.cfg.fmt fs
        fsMark := .written
        coef := if (s.inst s.sel).rateMark = .written
          then (s.inst s.sel).rate.map (coefOf s.cfg (narrow s.cfg.fmt fs))
          else (s.inst s.sel).coef
        coefMark := if (s.inst s.sel).rateMark = .written then .written
          else (s.inst s.sel).coefMark } ∧
      t.response = none ∧ t.cfg = s.cfg ∧ t.stream = s.stream ∧
      ∀ k, k ≠ s.sel → t.inst k = s.inst k

/-- 40_configuration R92: the sample-rate domain at the default bounds, in units, and the refusal. -/
def Obligations.SampleRateOutOfDomainIsRefused : Prop :=
  (∀ fs : Word, sampleRateInDomain Config.default fs = true ↔
    ∃ m, unpack fs = .fin false m ∧ 8000 * unitsPerOne ≤ m ∧ m ≤ 384000 * unitsPerOne) ∧
  (∀ (s : State) (fs : Word), sampleRateInDomain s.cfg fs = false →
    exec (.setSampleRate fs) s = .refused .sampleRateOutOfDomain)

/-- 40_configuration R81: no configuration command that answers a next state changes the stage, the
level or the active flag of any instance, or gives a response; and what each leaves of the registers
it does not name (R82, R89, R90). -/
def Obligations.ConfigurationCommandFrame : Prop :=
  ∀ (i : Instr) (s t : State), exec i s = .next t →
    i ≠ .noteOn → i ≠ .noteOff → i ≠ .process → i ≠ .isActive →
    t.response = none ∧ t.cfg = s.cfg ∧ t.sel = s.sel ∧ t.stream = s.stream ∧
    (∀ k, k ≠ s.sel → t.inst k = s.inst k) ∧
    (∀ k, (t.inst k).stage = (s.inst k).stage ∧ (t.inst k).level = (s.inst k).level ∧
      (t.inst k).active = (s.inst k).active) ∧
    ((∀ r1 r2 r3 r4, i ≠ .setRates r1 r2 r3 r4) → ∀ k,
      (t.inst k).rate = (s.inst k).rate ∧ (t.inst k).rateMark = (s.inst k).rateMark) ∧
    ((∀ l1 l2 l3 l4, i ≠ .setLevels l1 l2 l3 l4) → ∀ k,
      (t.inst k).lvl = (s.inst k).lvl ∧ (t.inst k).lvlMark = (s.inst k).lvlMark) ∧
    ((∀ fs, i ≠ .setSampleRate fs) → ∀ k,
      (t.inst k).fs = (s.inst k).fs ∧ (t.inst k).fsMark = (s.inst k).fsMark) ∧
    ((∃ l1 l2 l3 l4, i = .setLevels l1 l2 l3 l4) → ∀ k,
      (t.inst k).coef = (s.inst k).coef ∧ (t.inst k).coefMark = (s.inst k).coefMark)

/-- 40_configuration R91: setRates and setSampleRate in either order end in the same state. -/
def Obligations.RatesAndSampleRateCommute : Prop :=
  ∀ (s : State) (r1 r2 r3 r4 fs : Word),
    (Quad.mk r1 r2 r3 r4).all (rateInDomain s.cfg) = true → sampleRateInDomain s.cfg fs = true →
    ∃ a b t, exec (.setRates r1 r2 r3 r4) s = .next a ∧ exec (.setSampleRate fs) s = .next b ∧
      exec (.setSampleRate fs) a = .next t ∧ exec (.setRates r1 r2 r3 r4) b = .next t ∧
      (t.inst s.sel).coefMark = .written ∧
      (t.inst s.sel).coef = (t.inst s.sel).rate.map (coefOf s.cfg (t.inst s.sel).fs)

/-- 20_memory R53: every command but process leaves, done twice, the state it leaves done once. -/
def Obligations.CommandsButProcessAreIdempotent : Prop :=
  ∀ (i : Instr) (s t : State), i ≠ .process → exec i s = .next t → exec i t = .next t

/-! Gate commands and the query -/

/-- 41_note_control R96: from every stage, Attack at +0.0, with the programming kept; two noteOn in a
row leave the same state as one. -/
def Obligations.NoteOnArmsFromEveryStage : Prop :=
  ∀ s : State, ∃ t, exec .noteOn s = .next t ∧ exec .noteOn t = .next t ∧
    t.inst s.sel = { s.inst s.sel with stage := .attack, level := Word.zero } ∧
    (t.inst s.sel).active = true ∧ t.response = none ∧ t.cfg = s.cfg ∧ t.stream = s.stream ∧
    ∀ k, k ≠ s.sel → t.inst k = s.inst k

/-- 41_note_control R97: to Release with the level kept, unless the stage is Idle; nothing in Idle
and nothing in Release; after noteOn, Release at +0.0. -/
def Obligations.NoteOffReleasesUnlessIdle : Prop :=
  (∀ s : State, ∃ t, exec .noteOff s = .next t ∧ t.response = none ∧ t.cfg = s.cfg ∧
    t.stream = s.stream ∧ (∀ k, k ≠ s.sel → t.inst k = s.inst k) ∧
    (t.inst s.sel).active = (s.inst s.sel).active ∧
    ((s.inst s.sel).stage ≠ .idle → t.inst s.sel = { s.inst s.sel with stage := .release }) ∧
    ((s.inst s.sel).stage = .idle ∨ (s.inst s.sel).stage = .release →
      t.inst s.sel = s.inst s.sel)) ∧
  (∀ s : State, ∃ a t, exec .noteOn s = .next a ∧ exec .noteOff a = .next t ∧
    (t.inst s.sel).stage = .release ∧ (t.inst s.sel).level = Word.zero)

/-- 41_note_control R98: isActive responds 1 unless the stage is Idle, and changes no state but the
response port. -/
def Obligations.IsActiveAnswersAndChangesNothing : Prop :=
  ∀ s : State, exec .isActive s =
    .next { s with response := some (.active (decide ((s.inst s.sel).stage ≠ .idle))) }

/-- 41_note_control R96, R97: what a gate command that answers a next state leaves unchanged. -/
def Obligations.GateCommandFrame : Prop :=
  ∀ (i : Instr) (s t : State), i = .noteOn ∨ i = .noteOff ∨ i = .isActive → exec i s = .next t →
    t.cfg = s.cfg ∧ t.sel = s.sel ∧ t.stream = s.stream ∧
    (∀ k, k ≠ s.sel → t.inst k = s.inst k) ∧
    ∀ k, t.inst k = { s.inst k with stage := (t.inst k).stage, level := (t.inst k).level } ∧
      (i ≠ .noteOn → (t.inst k).level = (s.inst k).level) ∧
      (i = .isActive → (t.inst k).stage = (s.inst k).stage)

/-- 41_note_control R97, 42_process R113: noteOn, noteOff and one process end in Idle at +0.0, with
the default release target and any finite coefficient. -/
def Obligations.NoteOnNoteOffProcessIsIdle : Prop :=
  ∀ s : State, s.cfg.releaseTarget = .zero → flt Word.zero s.cfg.kFloor = true →
    (s.inst s.sel).coefMark = .written → isFinite (s.inst s.sel).coef.v4 = true →
    ∃ a b t, exec .noteOn s = .next a ∧ exec .noteOff a = .next b ∧ exec .process b = .next t ∧
      (t.inst s.sel).stage = .idle ∧ (t.inst s.sel).level = Word.zero ∧
      t.response = some (.level Word.zero)

/-! The sample -/

/-- 42_process R108: in Idle process changes nothing and responds with the level, +0.0 where the
Idle invariant holds (10_state R35). -/
def Obligations.ProcessInIdleChangesNothing : Prop :=
  ∀ s : State, (s.inst s.sel).stage = .idle →
    exec .process s = .next { s with response := some (.level (s.inst s.sel).level) } ∧
    ((s.inst s.sel).Silent →
      exec .process s = .next { s with response := some (.level Word.zero) })

/-- 42_process R106, R107, R109: the Attack arm. With a target of +0.0 it lasts one sample. -/
def Obligations.ProcessInAttack : Prop :=
  (∀ (s : State) (level : Word), (s.inst s.sel).stage = .attack →
    (s.inst s.sel).coefMark = .written → (s.inst s.sel).lvlMark = .written →
    level = fadd s.cfg.fmt (s.inst s.sel).level
      (fmul s.cfg.fmt (s.inst s.sel).coef.v1
        (fsub s.cfg.fmt (s.inst s.sel).lvl.v1 (s.inst s.sel).level)) →
    ∃ t, exec .process s = .next t ∧ t.response = some (.level level) ∧ t.cfg = s.cfg ∧
      t.stream = s.stream ∧ (∀ k, k ≠ s.sel → t.inst k = s.inst k) ∧
      t.inst s.sel = { s.inst s.sel with
        level := level
        stage := if fle (fmul s.cfg.fmt s.cfg.kAttack (s.inst s.sel).lvl.v1) level
          then .decay1 else .attack }) ∧
  (∀ s : State, (s.inst s.sel).stage = .attack →
    (s.inst s.sel).coefMark = .written → (s.inst s.sel).lvlMark = .written →
    (s.inst s.sel).level = Word.zero → (s.inst s.sel).lvl.v1 = Word.zero →
    isFinite (s.inst s.sel).coef.v1 = true → isFinite s.cfg.kAttack = true →
    ∃ t, exec .process s = .next t ∧ (t.inst s.sel).stage = .decay1 ∧
      (t.inst s.sel).level = Word.zero)

/-- 42_process R106, R107, R110: the Decay1 arm. -/
def Obligations.ProcessInDecay1 : Prop :=
  ∀ (s : State) (level : Word), (s.inst s.sel).stage = .decay1 →
    (s.inst s.sel).coefMark = .written → (s.inst s.sel).lvlMark = .written →
    level = fadd s.cfg.fmt (s.inst s.sel).level
      (fmul s.cfg.fmt (s.inst s.sel).coef.v2
        (fsub s.cfg.fmt (s.inst s.sel).lvl.v2 (s.inst s.sel).level)) →
    ∃ t, exec .process s = .next t ∧ t.response = some (.level level) ∧ t.cfg = s.cfg ∧
      t.stream = s.stream ∧ (∀ k, k ≠ s.sel → t.inst k = s.inst k) ∧
      t.inst s.sel = { s.inst s.sel with
        level := level
        stage := if flt (fabs (fsub s.cfg.fmt level (s.inst s.sel).lvl.v2)) s.cfg.kEps
          then .decay2 else .decay1 }

/-- 42_process R106, R107, R111: the Decay2 arm. -/
def Obligations.ProcessInDecay2 : Prop :=
  ∀ (s : State) (level : Word), (s.inst s.sel).stage = .decay2 →
    (s.inst s.sel).coefMark = .written → (s.inst s.sel).lvlMark = .written →
    level = fadd s.cfg.fmt (s.inst s.sel).level
      (fmul s.cfg.fmt (s.inst s.sel).coef.v3
        (fsub s.cfg.fmt (s.inst s.sel).lvl.v3 (s.inst s.sel).level)) →
    ∃ t, exec .process s = .next t ∧ t.response = some (.level level) ∧ t.cfg = s.cfg ∧
      t.stream = s.stream ∧ (∀ k, k ≠ s.sel → t.inst k = s.inst k) ∧
      t.inst s.sel = { s.inst s.sel with
        level := level
        stage := if flt (fabs (fsub s.cfg.fmt level (s.inst s.sel).lvl.v3)) s.cfg.kEps
          then .sustain else .decay2 }

/-- 42_process R112: with FREEZE process changes nothing in Sustain; with TRACK_L3 the level becomes
`LVL[3]`. The stage stays Sustain. -/
def Obligations.ProcessInSustain : Prop :=
  (∀ s : State, (s.inst s.sel).stage = .sustain → s.cfg.sustainMode = .freeze →
    exec .process s = .next { s with response := some (.level (s.inst s.sel).level) }) ∧
  (∀ s : State, (s.inst s.sel).stage = .sustain → s.cfg.sustainMode = .trackL3 →
    (s.inst s.sel).lvlMark = .written →
    ∃ t, exec .process s = .next t ∧
      t.inst s.sel = { s.inst s.sel with level := (s.inst s.sel).lvl.v3 } ∧
      t.response = some (.level (s.inst s.sel).lvl.v3) ∧ t.cfg = s.cfg ∧ t.stream = s.stream ∧
      ∀ k, k ≠ s.sel → t.inst k = s.inst k)

/-- 42_process R113, 10_state R33: the Release arm, for both release targets; below the floor the
level snaps to +0.0, Idle is entered and the response is +0.0. -/
def Obligations.ProcessInRelease : Prop :=
  ∀ (s : State) (target level : Word), (s.inst s.sel).stage = .release →
    (s.inst s.sel).coefMark = .written →
    (s.cfg.releaseTarget = .zero ∧ target = Word.zero ∨
      s.cfg.releaseTarget = .level4 ∧ (s.inst s.sel).lvlMark = .written ∧
        target = (s.inst s.sel).lvl.v4) →
    level = fadd s.cfg.fmt (s.inst s.sel).level
      (fmul s.cfg.fmt (s.inst s.sel).coef.v4 (fsub s.cfg.fmt target (s.inst s.sel).level)) →
    ∃ t, exec .process s = .next t ∧ t.cfg = s.cfg ∧ t.stream = s.stream ∧
      (∀ k, k ≠ s.sel → t.inst k = s.inst k) ∧
      (flt level s.cfg.kFloor = true → t.response = some (.level Word.zero) ∧
        t.inst s.sel = { s.inst s.sel with level := Word.zero, stage := .idle }) ∧
      (flt level s.cfg.kFloor = false → t.response = some (.level level) ∧
        t.inst s.sel = { s.inst s.sel with level := level })

/-- 42_process R114: process faults exactly when its arm would read an UNSET element, by the table of
the rule. -/
def Obligations.ProcessFaultsExactlyWhenUnprogrammed : Prop :=
  ∀ (s : State) (f : Fault), exec .process s = .fault f ↔
    f = .unprogrammedRead (s.inst s.sel).stage ∧
    (((s.inst s.sel).stage = .attack ∨ (s.inst s.sel).stage = .decay1 ∨
        (s.inst s.sel).stage = .decay2) ∧
        ((s.inst s.sel).coefMark = .unset ∨ (s.inst s.sel).lvlMark = .unset) ∨
      (s.inst s.sel).stage = .sustain ∧ s.cfg.sustainMode = .trackL3 ∧
        (s.inst s.sel).lvlMark = .unset ∨
      (s.inst s.sel).stage = .release ∧
        ((s.inst s.sel).coefMark = .unset ∨
          s.cfg.releaseTarget = .level4 ∧ (s.inst s.sel).lvlMark = .unset))

/-- 42_process R106: a process that answers a next state changes the stage and the level of its
instance and nothing else, and responds with the level it leaves (R116). -/
def Obligations.ProcessFrameAndResponse : Prop :=
  ∀ s t : State, exec .process s = .next t →
    t.cfg = s.cfg ∧ t.sel = s.sel ∧ t.stream = s.stream ∧
    t.response = some (.level (t.inst s.sel).level) ∧
    (∀ k, k ≠ s.sel → t.inst k = s.inst k) ∧
    t.inst s.sel = { s.inst s.sel with
      stage := (t.inst s.sel).stage, level := (t.inst s.sel).level }

/-! Rules of the whole machine -/

/-- 60_exceptions R132: which commands step, which are refused and which fault. -/
def Obligations.OutcomesOfCommands : Prop :=
  ∀ (i : Instr) (s : State),
    ((∃ t, exec i s = .next t) ↔ i.wellFormed s.cfg = true ∧
      (i = .process → (s.inst s.sel).programmed s.cfg = true)) ∧
    ((∃ r, exec i s = .refused r) ↔ i.wellFormed s.cfg = false) ∧
    ((∃ f, exec i s = .fault f) ↔ i = .process ∧ (s.inst s.sel).programmed s.cfg = false)

/-- 00_scope R7, 60_exceptions R144: a step touches at most one instance, the one presented to,
and never the configuration, and it keeps the `N_INST` instances. What is presented to a name that
has no instance is refused, which is the model's choice (log 21). -/
def Obligations.StepTouchesOneInstance : Prop :=
  (∀ s t : State, step s = .next t → t.cfg = s.cfg ∧
    (s.stream = [] → t = s) ∧
    (s.Sized → t.Sized) ∧
    ∀ (inp : Input) (rest : List Input), s.stream = inp :: rest →
      ∀ k, k ≠ inp.inst → t.inst k = s.inst k) ∧
  (∀ (s : State) (inp : Input) (rest : List Input), s.stream = inp :: rest →
    s.has inp.inst = false → inp.reset = true ∨ inp.words ≠ [] →
    step s = .refused .noSuchInstance)

/-- 00_scope R7: what a command makes of its instance, and what it responds, depend on that instance
and the configuration alone. -/
def Obligations.InstancesShareNoState : Prop :=
  ∀ (i : Instr) (s t s' : State), s.cfg = t.cfg → s.inst s.sel = t.inst t.sel →
    exec i s = .next s' →
    ∃ t', exec i t = .next t' ∧ t'.inst t.sel = s'.inst s.sel ∧ t'.response = s'.response

/-- 10_state R36, 42_process R109 to R113: every change of stage is an edge of the table, caused by
the command or the reset that the table gives it, and a process causes it only where its completion
test holds. -/
def Obligations.StageChangesOnlyByTheTable : Prop :=
  ∀ (s t : State) (k : InstId), step s = .next t → (t.inst k).stage ≠ (s.inst k).stage →
    ∃ inp rest, s.stream = inp :: rest ∧ inp.inst = k ∧
      (inp.reset = true ∧ (t.inst k).stage = .idle ∨
       inp.reset = false ∧ ∃ i left, decode inp.words = .ok (i, left) ∧
         stageCause i (s.inst k).stage (t.inst k).stage = true ∧
         (i = .process → completionTest s.cfg (s.inst k) = true))

/-- 10_state R29: the flag is `STAGE ≠ Idle`; only noteOn sets it, and only a process that enters
Idle or a reset clears it. -/
def Obligations.ActiveFlagChanges : Prop :=
  (∀ e : Envelope, e.active = decide (e.stage ≠ .idle) ∧ e.activeOut = e.active) ∧
  ∀ (s t : State) (k : InstId), step s = .next t → (t.inst k).active ≠ (s.inst k).active →
    ∃ inp rest, s.stream = inp :: rest ∧ inp.inst = k ∧
      (inp.reset = true ∧ (t.inst k).active = false ∨
       inp.reset = false ∧ ∃ i left, decode inp.words = .ok (i, left) ∧
         (i = .noteOn ∧ (t.inst k).active = true ∨
          i = .process ∧ (t.inst k).stage = .idle ∧ (t.inst k).active = false))

/-- 10_state R35: the Idle invariant is kept by every step, Idle is entered only by reset and by the
completion of Release, and no step changes the level of an instance that is in Idle. -/
def Obligations.IdleIsSilent : Prop :=
  ∀ s t : State, s.Every Envelope.Silent → step s = .next t →
    t.Every Envelope.Silent ∧
    (∀ k, (s.inst k).stage ≠ .idle → (t.inst k).stage = .idle →
      ∃ inp rest, s.stream = inp :: rest ∧ inp.inst = k ∧
        (inp.reset = true ∨ (s.inst k).stage = .release ∧
          ∃ left, decode inp.words = .ok (.process, left))) ∧
    ∀ k, (s.inst k).stage = .idle → (t.inst k).level = (s.inst k).level

/-- 40_configuration R84, R91: every step keeps the coefficients those of the current rates and
sample rate. -/
def Obligations.CoefficientsStayDerived : Prop :=
  ∀ s t : State, s.Every (Envelope.Derived s.cfg) → step s = .next t →
    t.Every (Envelope.Derived t.cfg)

/-- 10_state R23: in binary64 every step keeps the written programming registers in their domains. -/
def Obligations.ProgrammingStaysInDomain : Prop :=
  ∀ s t : State, s.cfg.fmt = .binary64 → s.Every (Envelope.InDomains s.cfg) → step s = .next t →
    t.Every (Envelope.InDomains t.cfg)

/-- 10_state R34, 42_process R117: on the admitted domain every step keeps every level in [0, 1]. -/
def Obligations.LevelStaysInUnitInterval : Prop :=
  ∀ s t : State, s.LevelInv → step s = .next t → t.LevelInv

/-- The invariants hold at reset (10_state R34, R35; 40_configuration R91; 00_scope R7). -/
def Obligations.InvariantsHoldAtReset : Prop :=
  State.reset.LevelInv ∧ State.reset.Every Envelope.Silent ∧ State.reset.Sized

/-! Arithmetic -/

/-- 00_scope R11: each default constant is the binary64 value nearest its decimal literal, and the
other parameters have the table's defaults. -/
def Obligations.DefaultConstantsAreNearest : Prop :=
  Config.default.kT0 = packRounded .binary64 false (10 * unitsPerOne) 1 ∧
  Config.default.kSlope = packRounded .binary64 false (69 * unitsPerOne) 1000 ∧
  Config.default.kAttack = packRounded .binary64 false (99 * unitsPerOne) 100 ∧
  Config.default.kEps = packRounded .binary64 false unitsPerOne 1000 ∧
  Config.default.kFloor = packRounded .binary64 false unitsPerOne 1000 ∧
  Config.default.rateMin = packRounded .binary64 false 0 1 ∧
  Config.default.rateMax = packRounded .binary64 false (99 * unitsPerOne) 1 ∧
  Config.default.lvlMin = packRounded .binary64 false 0 1 ∧
  Config.default.lvlMax = packRounded .binary64 false unitsPerOne 1 ∧
  Config.default.fsMin = packRounded .binary64 false (8000 * unitsPerOne) 1 ∧
  Config.default.fsMax = packRounded .binary64 false (384000 * unitsPerOne) 1 ∧
  Config.default.fmt = .binary64 ∧ Config.default.releaseTarget = .zero ∧
  Config.default.sustainMode = .freeze ∧ Config.default.nInst = 96

/-- 00_scope R13: a finite binary64 result of `⊕`, `⊖`, `⊗` and `⊘` is within half a gap of the
exact result, the gap being that of binary64 at the exact result. -/
def Obligations.OperationsRoundToNearest : Prop :=
  ∀ (op : Word → Word → Word) (exact : ℚ → ℚ → ℚ) (a b : Word),
    (op = fadd .binary64 ∧ exact = (· + ·) ∨ op = fsub .binary64 ∧ exact = (· - ·) ∨
      op = fmul .binary64 ∧ exact = (· * ·) ∨
      op = fdiv .binary64 ∧ exact = (· / ·) ∧ valueOf b ≠ 0) →
    isFinite a = true → isFinite b = true → isFinite (op a b) = true →
    |valueOf (op a b) - exact (valueOf a) (valueOf b)| * unitsPerOne * 2 ≤
      gap .binary64 (⌊|exact (valueOf a) (valueOf b)| * unitsPerOne⌋₊)

/-- 40_configuration R86 (E1, E2): the range of `EXP64`. -/
def Obligations.ExpRange : Prop :=
  ∀ (x : Word) (v : Nat), ExpArgument x v →
    ∃ m, unpack (exp64 .binary64 x) = .fin false m ∧ 0 < m ∧ m ≤ unitsPerOne ∧
      (v = 0 → m = unitsPerOne) ∧
      (2 * unitsPerOne ≤ v * 10 ^ 7 → v * 10 ^ 4 ≤ 125 * unitsPerOne → m < unitsPerOne)

/-- 40_configuration R86 (E3): `EXP64` never decreases on [-7.0, 0.0]. -/
def Obligations.ExpMonotone : Prop :=
  ∀ (x y : Word) (v w : Nat), ExpArgument x v → ExpArgument y w → w ≤ v →
    fle (exp64 .binary64 x) (exp64 .binary64 y) = true

/-- 40_configuration R86 (E4): on [-7.0, 0.0] `EXP64` is within one gap of the exponential. -/
def Obligations.ExpWithinOneUlp : Prop :=
  ∀ (x : Word) (v : Nat), ExpArgument x v →
    |((valueOf (exp64 .binary64 x) : ℚ) : ℝ) - Real.exp (-((v : ℝ) / (unitsPerOne : ℝ)))| *
        (unitsPerOne : ℝ) ≤
      gap .binary64 ⌊Real.exp (-((v : ℝ) / (unitsPerOne : ℝ))) * (unitsPerOne : ℝ)⌋₊

/-- 40_configuration R87: the coefficients of the admitted domain. -/
def Obligations.CoefficientRange : Prop :=
  ∀ (cfg : Config) (rate fs : Word), cfg.Admitted →
    rateInDomain cfg rate = true → sampleRateInDomain cfg fs = true →
    isFinite (coefOf cfg fs rate) = true ∧
    (260416 : ℚ) / 10 ^ 12 ≤ valueOf (coefOf cfg fs rate) ∧
    valueOf (coefOf cfg fs rate) ≤ 115098 / 10 ^ 7

/-- 40_configuration R87: the coefficient never decreases with the rate and never increases with the
sample rate. -/
def Obligations.CoefficientMonotone : Prop :=
  ∀ (cfg : Config) (rate rate' fs fs' : Word), cfg.Admitted →
    rateInDomain cfg rate = true → rateInDomain cfg rate' = true →
    sampleRateInDomain cfg fs = true → sampleRateInDomain cfg fs' = true →
    fle rate rate' = true → fle fs' fs = true →
    fle (coefOf cfg fs rate) (coefOf cfg fs' rate') = true

/-- 42_process R117: for a level and a target in [0, 1] and a coefficient in (0, 0.49], the new level
lies in the closed interval between the two. -/
def Obligations.ApproachNeverOvershoots : Prop :=
  ∀ a b c : Word, inUnit a = true → inUnit b = true →
    flt Word.zero c = true → fle c 0x3FDF5C28F5C28F5C#64 = true →
    (fle a b = true → fle a (approached .binary64 a c b) = true ∧
      fle (approached .binary64 a c b) b = true) ∧
    (fle b a = true → fle b (approached .binary64 a c b) = true ∧
      fle (approached .binary64 a c b) a = true)

/-! Stage lengths -/

/-- 42_process R110, R111, R119: a decay that starts strictly within `K_EPS` of its target lasts one
sample. -/
def Obligations.DecayWithinEpsLastsOneSample : Prop :=
  ∀ s : State, s.cfg.fmt = .binary64 → (s.inst s.sel).coefMark = .written →
    (s.inst s.sel).lvlMark = .written → inUnit (s.inst s.sel).level = true →
    ((s.inst s.sel).stage = .decay1 → inUnit (s.inst s.sel).lvl.v2 = true →
      inCoefRange (s.inst s.sel).coef.v2 = true →
      flt (fabs (fsub .binary64 (s.inst s.sel).level (s.inst s.sel).lvl.v2)) s.cfg.kEps = true →
      ∃ t, exec .process s = .next t ∧ (t.inst s.sel).stage = .decay2) ∧
    ((s.inst s.sel).stage = .decay2 → inUnit (s.inst s.sel).lvl.v3 = true →
      inCoefRange (s.inst s.sel).coef.v3 = true →
      flt (fabs (fsub .binary64 (s.inst s.sel).level (s.inst s.sel).lvl.v3)) s.cfg.kEps = true →
      ∃ t, exec .process s = .next t ∧ (t.inst s.sel).stage = .sustain)

/-- 42_process R118: Release with the default target and floor reaches Idle at +0.0 after finitely
many samples. -/
def Obligations.ReleaseReachesIdle : Prop :=
  ∀ s : State, s.cfg.fmt = .binary64 → s.cfg.releaseTarget = .zero →
    s.cfg.kFloor = Config.default.kFloor → (s.inst s.sel).stage = .release →
    (s.inst s.sel).coefMark = .written → inUnit (s.inst s.sel).level = true →
    inCoefRange (s.inst s.sel).coef.v4 = true →
    ∃ n t, processTimes n s = .next t ∧ (t.inst s.sel).stage = .idle ∧
      (t.inst s.sel).level = Word.zero

/-- 42_process R118: both decays end after finitely many samples, with the default epsilon. -/
def Obligations.DecaysEnd : Prop :=
  ∀ s : State, s.cfg.fmt = .binary64 → s.cfg.kEps = Config.default.kEps →
    (s.inst s.sel).coefMark = .written → (s.inst s.sel).lvlMark = .written →
    inUnit (s.inst s.sel).level = true →
    ((s.inst s.sel).stage = .decay1 → inUnit (s.inst s.sel).lvl.v2 = true →
      inCoefRange (s.inst s.sel).coef.v2 = true →
      ∃ n t, processTimes n s = .next t ∧ (t.inst s.sel).stage = .decay2) ∧
    ((s.inst s.sel).stage = .decay2 → inUnit (s.inst s.sel).lvl.v3 = true →
      inCoefRange (s.inst s.sel).coef.v3 = true →
      ∃ n t, processTimes n s = .next t ∧ (t.inst s.sel).stage = .sustain)

/-- 42_process R118: Attack ends after finitely many samples when its target is zero or at least
2^-1000, with the default completion fraction. -/
def Obligations.AttackEnds : Prop :=
  ∀ s : State, s.cfg.fmt = .binary64 → s.cfg.kAttack = Config.default.kAttack →
    (s.inst s.sel).stage = .attack → (s.inst s.sel).coefMark = .written →
    (s.inst s.sel).lvlMark = .written → inUnit (s.inst s.sel).level = true →
    inCoefRange (s.inst s.sel).coef.v1 = true → inUnit (s.inst s.sel).lvl.v1 = true →
    (valueOf (s.inst s.sel).lvl.v1 = 0 ∨ 1 / 2 ^ 1000 ≤ valueOf (s.inst s.sel).lvl.v1) →
    ∃ n t, processTimes n s = .next t ∧ (t.inst s.sel).stage = .decay1

/-- 42_process R118, 90_conflicts C9: at the coefficient of rate 0 and 384000 Hz (table T1) an Attack
toward 1e-320 from +0.0 does not advance: process responds +0.0 and leaves the instance as it is. -/
def Obligations.TinyAttackTargetHangs : Prop :=
  ∀ s : State, s.cfg = Config.default → (s.inst s.sel).stage = .attack →
    (s.inst s.sel).level = Word.zero → (s.inst s.sel).coefMark = .written →
    (s.inst s.sel).lvlMark = .written → (s.inst s.sel).coef.v1 = 0x3E9179EC76A00000#64 →
    (s.inst s.sel).lvl.v1 = 0x00000000000007E8#64 →
    ∃ t, exec .process s = .next t ∧ t.inst s.sel = s.inst s.sel ∧
      t.response = some (.level Word.zero)

/-- 42_process R122: in binary32, at the coefficient of rate 0 and 48000 Hz, an Attack toward 1.0
stalls at 0.985714316368103: process leaves the instance as it is. -/
def Obligations.Binary32AttackStalls : Prop :=
  ∀ s : State, s.cfg = { Config.default with fmt := .binary32 } →
    (s.inst s.sel).stage = .attack → (s.inst s.sel).level = 0x3FEF8AF8C0000000#64 →
    (s.inst s.sel).coefMark = .written → (s.inst s.sel).lvlMark = .written →
    (s.inst s.sel).coef.v1 = 0x3EC1800000000000#64 → (s.inst s.sel).lvl.v1 = Word.one →
    ∃ t, exec .process s = .next t ∧ t.inst s.sel = s.inst s.sel

/-! Runs and the environment -/

/-- 60_exceptions R132 to R134, 00_scope R10: a refusal or a fault of a step leaves its mark in the
run, with its position and reason, and a step that answers a next state leaves none; the marks are
kept for good; a presentation that leaves a mark changes no register and shows nothing; and once an
instance's run has a mark, nothing more is shown of it. That the marks and the values shown are kept
instance by instance is the model's choice (log 8). -/
def Obligations.MarksAreKeptForGood : Prop :=
  (∀ (r : Run) (inp : Input) (rest : List Input), r.state.stream = inp :: rest →
    (∀ e, step r.state = .refused e →
      r.advance.refusals = r.refusals ++ [⟨r.position, inp.inst, e⟩] ∧
      r.advance.faults = r.faults) ∧
    (∀ f, step r.state = .fault f →
      r.advance.faults = r.faults ++ [⟨r.position, inp.inst, f⟩] ∧
      r.advance.refusals = r.refusals)) ∧
  (∀ (r : Run) (t : State), step r.state = .next t →
    r.advance.state = t ∧ r.advance.refusals = r.refusals ∧ r.advance.faults = r.faults) ∧
  (∀ (n : Nat) (r : Run), ∃ l m, (r.steps n).refusals = r.refusals ++ l ∧
    (r.steps n).faults = r.faults ++ m) ∧
  (∀ r : Run, r.advance.refusals ≠ r.refusals ∨ r.advance.faults ≠ r.faults →
    r.advance.shown = r.shown ∧ r.advance.state.cfg = r.state.cfg ∧
    ∀ k, r.advance.state.inst k = r.state.inst k) ∧
  (∀ (n : Nat) (r : Run) (k : InstId), r.marked k = true →
    (r.steps n).marked k = true ∧ (r.steps n).shownAt k = r.shownAt k)

/-- 30_encoding R72, 20_memory R49, R50: a write of finite rates or levels for an operator reaches
the instance of that operator in every Voice once, in pool order: the operator index clamped into
[0, 5], and each operand itself inside its domain and the nearer bound outside it, so that no command
of it is refused. With the default `N_INST` there are 96 / 6 = 16 Voices (log 21). -/
def Obligations.FanOutReachesEveryVoice : Prop :=
  ∀ (view : EnvView) (s : State) (n : Nat) (operator : Int) (q : Quad),
    s.cfg = { Config.default with nInst := n } → q.all isFinite = true →
    ∃ (k : Fin 6) (r l : Quad),
      (operator < 0 → k = 0) ∧ (0 ≤ operator → operator ≤ 5 → (k.val : Int) = operator) ∧
      (5 < operator → k = 5) ∧
      q.Pairs (ClampsTo Config.default.rateMin Config.default.rateMax) r ∧
      q.Pairs (ClampsTo Config.default.lvlMin Config.default.lvlMax) l ∧
      expand view s (.envelopeRates operator q) =
        (List.range (n / 6)).map (fun v => (⟨v, k⟩, .setRates r.v1 r.v2 r.v3 r.v4)) ∧
      expand view s (.envelopeLevels operator q) =
        (List.range (n / 6)).map (fun v => (⟨v, k⟩, .setLevels l.v1 l.v2 l.v3 l.v4)) ∧
      Instr.wellFormed s.cfg (.setRates r.v1 r.v2 r.v3 r.v4) = true ∧
      Instr.wellFormed s.cfg (.setLevels l.v1 l.v2 l.v3 l.v4) = true

/-- 20_memory R47, R48, 30_encoding R72: the parameter addresses of the block, both ways; a write at
one is the write of all four rates or levels of its operator, the other three as last written; and a
write at any other address reaches nothing, which is the model's reading of what the source leaves
out (log 15). -/
def Obligations.ParameterAddresses : Prop :=
  (∀ (a : Nat) (p : ParamTarget), paramTarget a = some p ↔ a = paramAddress p) ∧
  (∀ (k : Fin 6) (j : Fin 4), paramAddress (.rate k j) = 100 + 100 * k.val + 10 + j.val ∧
    paramAddress (.level k j) = 100 + 100 * k.val + 20 + j.val) ∧
  ∀ (view : EnvView) (s : State) (x : Word),
    (∀ (k : Fin 6) (q : Quad), view.rates[k.val] = q →
      expand view s (.parameterWrite (100 + 100 * k.val + 10) x) =
        expand view s (.envelopeRates k.val ⟨x, q.v2, q.v3, q.v4⟩) ∧
      expand view s (.parameterWrite (100 + 100 * k.val + 11) x) =
        expand view s (.envelopeRates k.val ⟨q.v1, x, q.v3, q.v4⟩) ∧
      expand view s (.parameterWrite (100 + 100 * k.val + 12) x) =
        expand view s (.envelopeRates k.val ⟨q.v1, q.v2, x, q.v4⟩) ∧
      expand view s (.parameterWrite (100 + 100 * k.val + 13) x) =
        expand view s (.envelopeRates k.val ⟨q.v1, q.v2, q.v3, x⟩)) ∧
    (∀ (k : Fin 6) (q : Quad), view.levels[k.val] = q →
      expand view s (.parameterWrite (100 + 100 * k.val + 20) x) =
        expand view s (.envelopeLevels k.val ⟨x, q.v2, q.v3, q.v4⟩) ∧
      expand view s (.parameterWrite (100 + 100 * k.val + 21) x) =
        expand view s (.envelopeLevels k.val ⟨q.v1, x, q.v3, q.v4⟩) ∧
      expand view s (.parameterWrite (100 + 100 * k.val + 22) x) =
        expand view s (.envelopeLevels k.val ⟨q.v1, q.v2, x, q.v4⟩) ∧
      expand view s (.parameterWrite (100 + 100 * k.val + 23) x) =
        expand view s (.envelopeLevels k.val ⟨q.v1, q.v2, q.v3, x⟩)) ∧
    (∀ a, (∀ p, a ≠ paramAddress p) → expand view s (.parameterWrite a x) = [])

/-- 30_encoding R72, 41_note_control R99, 90_conflicts C10: a note-on with a velocity arms the six
envelopes of the first Voice whose envelopes are all Idle, or of pool slot 0 if there is none; and a
Voice whose envelopes are all Idle is not processed, while the six envelopes of any other one are.
With the default `N_INST` there are 96 / 6 = 16 Voices (log 21). -/
def Obligations.NoteOnAllocatesFirstFreeVoice : Prop :=
  ∀ (view : EnvView) (s : State),
    (∀ note velocity : Nat, velocity ≠ 0 →
      ∃ v : Nat,
        expand view s (.kernelNoteOn note velocity) =
          (List.finRange 6).map (fun k => (⟨v, k⟩, .noteOn)) ∧
        (∀ w, w < v → ∃ k, (s.inst ⟨w, k⟩).stage ≠ .idle) ∧
        (v < s.cfg.nInst / 6 ∧ (∀ k, (s.inst ⟨v, k⟩).stage = .idle) ∨
         v = 0 ∧ ∀ w, w < s.cfg.nInst / 6 → ∃ k, (s.inst ⟨w, k⟩).stage ≠ .idle)) ∧
    ∀ v : Nat,
      ((∀ k, (s.inst ⟨v, k⟩).stage = .idle) → expand view s (.voiceProcess v) = []) ∧
      ((∃ k, (s.inst ⟨v, k⟩).stage ≠ .idle) →
        expand view s (.voiceProcess v) = (List.finRange 6).map (fun k => (⟨v, k⟩, .process)))

/-- 10_state R24, R37: the three outputs of an instance and the codes of the stages. After a process
and after an isActive the outputs carry what the command responds. -/
def Obligations.OutputsReflectTheState : Prop :=
  (∀ e : Envelope, e.levelOut = e.level ∧ e.stageOut = e.stage.code ∧ e.activeOut = e.active) ∧
  (Stage.code .idle = 0b000#3 ∧ Stage.code .attack = 0b001#3 ∧ Stage.code .decay1 = 0b010#3 ∧
    Stage.code .decay2 = 0b011#3 ∧ Stage.code .sustain = 0b100#3 ∧
    Stage.code .release = 0b101#3) ∧
  (∀ s t : State, exec .process s = .next t →
    t.response = some (.level (t.inst s.sel).levelOut)) ∧
  (∀ s t : State, exec .isActive s = .next t →
    t.response = some (.active (t.inst s.sel).activeOut))
end

