-- ==== Sys2Proof/Laws/Float.lean ====
section
/-!
SUPPORT. The laws of the arithmetic: rounding gives a value of the format, leaves a value alone, is
monotone and is off by at most half a gap; packing and unpacking undo each other.
-/

namespace Sys2Proof.Machine

/-! Gaps -/

theorem log2_lt_of_lt_pow {m N : Nat} (h : m < 2 ^ N) (hm : m ≠ 0) : m.log2 < N :=
  (Nat.log2_lt hm).2 h

theorem lt_pow_of_lt_pow {m j N : Nat} (h : m < 2 ^ j) (hN : j ≤ N) : m < 2 ^ N :=
  Nat.lt_of_lt_of_le h (Nat.pow_le_pow_right (by omega) hN)

theorem overflowMag_binary64 : overflowMag .binary64 = 2 ^ 2098 := rfl

theorem unitsPerOne_pos : 0 < unitsPerOne := by
  have h (n : Nat) : 0 < 2 ^ n := Nat.two_pow_pos n
  exact h 1074

theorem gap_pos (fmt : Fmt) (m : Nat) : 0 < gap fmt m := Nat.two_pow_pos _

theorem precision_pos (fmt : Fmt) : 0 < precision fmt := by cases fmt <;> decide

theorem lastPlace_mono (prec least : Nat) {m n : Nat} (h : m ≤ n) :
    lastPlace prec least m ≤ lastPlace prec least n := by
  have : m.log2 ≤ n.log2 := by
    rcases Nat.eq_zero_or_pos m with rfl | hm
    · simp
    · exact (Nat.le_log2 (by omega)).2 (Nat.le_trans (Nat.log2_self_le (by omega)) h)
  unfold lastPlace
  omega

/-- Below `2^(prec + k)` the last place is at most `k`. -/
theorem lastPlace_le {prec least k m : Nat} (hp : 0 < prec) (hk : least ≤ k)
    (hm : m < 2 ^ (prec + k)) : lastPlace prec least m ≤ k := by
  unfold lastPlace
  rcases Nat.eq_zero_or_pos m with rfl | hpos
  · simp; omega
  · have : m.log2 < prec + k := (Nat.log2_lt (by omega)).2 hm
    omega

/-- A magnitude is below `2^prec` of its last places. -/
theorem lt_two_pow_lastPlace (prec least m : Nat) (hp : 0 < prec) :
    m < 2 ^ (prec + lastPlace prec least m) := by
  refine Nat.lt_of_lt_of_le Nat.lt_log2_self (Nat.pow_le_pow_right (by omega) ?_)
  unfold lastPlace
  omega

theorem gap_dvd_gap (fmt : Fmt) {m n : Nat} (h : m ≤ n) : gap fmt m ∣ gap fmt n :=
  Nat.pow_dvd_pow 2 (lastPlace_mono _ _ h)

/-- A multiple of a last place that is at most `2^prec` of it is a multiple of its own gap. -/
theorem gap_dvd_of_le (fmt : Fmt) {k m : Nat} (hk : leastPlace fmt ≤ k) (hd : 2 ^ k ∣ m)
    (hm : m ≤ 2 ^ (precision fmt + k)) : gap fmt m ∣ m := by
  have hp := precision_pos fmt
  rcases Nat.lt_or_eq_of_le hm with hlt | rfl
  · exact Nat.dvd_trans (Nat.pow_dvd_pow 2 (lastPlace_le hp hk hlt)) hd
  · refine Nat.pow_dvd_pow 2 ?_
    simp only [lastPlace, Nat.log2_two_pow]
    omega

/-! Rounding -/

section rounding
variable (fmt : Fmt) (n d : Nat)

/-- The two candidates of a rounding, and how far the one taken is off. -/
theorem roundNearest_cases (hd : 0 < d) :
    ∃ q, q = n / (d * gap fmt (n / d)) ∧
      ((roundNearest fmt n d = q * gap fmt (n / d) ∧
          2 * (n - d * (q * gap fmt (n / d))) ≤ d * gap fmt (n / d)) ∨
       (roundNearest fmt n d = (q + 1) * gap fmt (n / d) ∧
          2 * (d * ((q + 1) * gap fmt (n / d)) - n) ≤ d * gap fmt (n / d))) := by
  refine ⟨_, rfl, ?_⟩
  have hs : 0 < d * gap fmt (n / d) := Nat.mul_pos hd (gap_pos _ _)
  unfold roundNearest
  dsimp only
  generalize gap fmt (n / d) = g at *
  have hdiv := Nat.div_add_mod n (d * g)
  have hlt := Nat.mod_lt n hs
  have e1 : d * (n / (d * g) * g) = d * g * (n / (d * g)) := by ring
  have e2 : d * ((n / (d * g) + 1) * g) = d * g * (n / (d * g)) + d * g := by ring
  split
  · next h => refine .inr ⟨rfl, ?_⟩; rw [e2]; omega
  · next h => refine .inl ⟨rfl, ?_⟩; rw [e1]; omega

theorem roundNearest_le (hd : 0 < d) :
    roundNearest fmt n d ≤ 2 ^ (precision fmt + lastPlace (precision fmt) (leastPlace fmt) (n / d)) := by
  obtain ⟨q, hq, h⟩ := roundNearest_cases fmt n d hd
  have hlt := lt_two_pow_lastPlace (precision fmt) (leastPlace fmt) (n / d) (precision_pos fmt)
  have hq' : q < 2 ^ precision fmt := by
    rw [hq, ← Nat.div_div_eq_div_mul]
    refine Nat.div_lt_of_lt_mul ?_
    rw [gap, ← Nat.pow_add, Nat.add_comm]
    exact hlt
  rw [Nat.pow_add]
  have : (q + 1) * gap fmt (n / d) ≤ 2 ^ precision fmt * gap fmt (n / d) :=
    Nat.mul_le_mul_right _ hq'
  have : q * gap fmt (n / d) ≤ (q + 1) * gap fmt (n / d) := Nat.mul_le_mul_right _ (by omega)
  unfold gap at *
  omega

theorem gap_dvd_roundNearest (hd : 0 < d) : gap fmt (n / d) ∣ roundNearest fmt n d := by
  obtain ⟨q, -, ⟨h, -⟩ | ⟨h, -⟩⟩ := roundNearest_cases fmt n d hd <;> rw [h] <;> exact Nat.dvd_mul_left _ _

/-- A rounded result is a value of the format, unless it overflows. -/
theorem roundNearest_isValue (hd : 0 < d) (ho : roundNearest fmt n d < overflowMag fmt) :
    IsValue fmt (roundNearest fmt n d) :=
  ⟨ho, gap_dvd_of_le fmt (Nat.le_max_left _ _) (gap_dvd_roundNearest fmt n d hd)
    (roundNearest_le fmt n d hd)⟩

/-- Rounding is off by at most half a gap. -/
theorem roundNearest_error (hd : 0 < d) :
    2 * n ≤ 2 * (d * roundNearest fmt n d) + d * gap fmt (n / d) ∧
    2 * (d * roundNearest fmt n d) ≤ 2 * n + d * gap fmt (n / d) := by
  have hs : 0 < d * gap fmt (n / d) := Nat.mul_pos hd (gap_pos _ _)
  obtain ⟨q, hq, ⟨h, he⟩ | ⟨h, he⟩⟩ := roundNearest_cases fmt n d hd
  all_goals
    have hdiv := Nat.div_add_mod n (d * gap fmt (n / d))
    have hlt := Nat.mod_lt n hs
    rw [← hq] at hdiv
    rw [h]
    generalize gap fmt (n / d) = g at *
  · have e1 : d * (q * g) = d * g * q := by ring
    rw [e1] at he ⊢
    omega
  · have e2 : d * ((q + 1) * g) = d * g * q + d * g := by ring
    rw [e2] at he ⊢
    omega

end rounding

/-- A value of the format is its own rounding. -/
theorem roundNearest_of_dvd (fmt : Fmt) {m : Nat} (h : gap fmt m ∣ m) :
    roundNearest fmt m 1 = m := by
  obtain ⟨c, hc⟩ := h
  have hp := gap_pos fmt m
  simp only [roundNearest, Nat.div_one, Nat.one_mul]
  have hr : m % gap fmt m = 0 := Nat.mod_eq_zero_of_dvd ⟨c, hc⟩
  rw [hr, if_neg (by omega)]
  exact Nat.div_mul_cancel ⟨c, hc⟩

/-- Rounding is monotone. -/
theorem roundNearest_mono (fmt : Fmt) {n d n' d' : Nat} (hd : 0 < d) (hd' : 0 < d')
    (h : n * d' ≤ n' * d) : roundNearest fmt n d ≤ roundNearest fmt n' d' := by
  have hfloor : n / d ≤ n' / d' := by
    rw [Nat.le_div_iff_mul_le hd']
    refine Nat.le_of_mul_le_mul_right ?_ hd
    calc n / d * d' * d = n / d * d * d' := by ring
      _ ≤ n * d' := Nat.mul_le_mul_right _ (Nat.div_mul_le_self n d)
      _ ≤ n' * d := h
  have hplace := lastPlace_mono (precision fmt) (leastPlace fmt) hfloor
  rcases Nat.lt_or_eq_of_le hplace with hlt | heq
  · -- a power of two lies between the two results
    have hp := precision_pos fmt
    have hle := roundNearest_le fmt n d hd
    have hk : lastPlace (precision fmt) (leastPlace fmt) (n' / d') =
        (n' / d').log2 - (precision fmt - 1) := by
      unfold lastPlace at hlt ⊢; omega
    have hk0 : 0 < (n' / d').log2 - (precision fmt - 1) := by omega
    have hpos : n' / d' ≠ 0 := by
      intro h0
      rw [h0] at hk0
      simp at hk0
    obtain ⟨q, hq, hc⟩ := roundNearest_cases fmt n' d' hd'
    have hself := Nat.log2_self_le hpos
    have hqlow : 2 ^ (precision fmt - 1) ≤ q := by
      rw [hq, ← Nat.div_div_eq_div_mul, Nat.le_div_iff_mul_le (gap_pos _ _), gap, hk, ← Nat.pow_add]
      refine Nat.le_trans (Nat.pow_le_pow_right (by omega) ?_) hself
      omega
    have hlow : 2 ^ (precision fmt - 1) * gap fmt (n' / d') ≤ roundNearest fmt n' d' := by
      obtain ⟨hr, -⟩ | ⟨hr, -⟩ := hc <;> rw [hr]
      · exact Nat.mul_le_mul_right _ hqlow
      · exact Nat.mul_le_mul_right _ (by omega)
    refine Nat.le_trans hle (Nat.le_trans ?_ hlow)
    rw [gap, ← Nat.pow_add]
    exact Nat.pow_le_pow_right (by omega) (by omega)
  · -- the two are rounded to the same last place
    have hg : gap fmt (n / d) = gap fmt (n' / d') := by unfold gap; rw [heq]
    simp only [roundNearest, hg]
    generalize hgg : gap fmt (n' / d') = g
    have gpos : 0 < g := hgg ▸ gap_pos _ _
    have hs : 0 < d * g := Nat.mul_pos hd gpos
    have hs' : 0 < d' * g := Nat.mul_pos hd' gpos
    have hdiv := Nat.div_add_mod n (d * g)
    have hdiv' := Nat.div_add_mod n' (d' * g)
    have hrlt := Nat.mod_lt n hs
    have hrlt' := Nat.mod_lt n' hs'
    have hq : n / (d * g) ≤ n' / (d' * g) := by
      rw [← Nat.div_div_eq_div_mul, ← Nat.div_div_eq_div_mul]
      exact Nat.div_le_div_right hfloor
    generalize n / (d * g) = q at *
    generalize n' / (d' * g) = q' at *
    generalize n % (d * g) = r at *
    generalize n' % (d' * g) = r' at *
    rcases Nat.lt_or_eq_of_le hq with hqlt | rfl
    · have h1 : (q + 1) * g ≤ q' * g := Nat.mul_le_mul_right _ hqlt
      have h2 : q * g ≤ (q + 1) * g := Nat.mul_le_mul_right _ (by omega)
      have h3 : q' * g ≤ (q' + 1) * g := Nat.mul_le_mul_right _ (by omega)
      split <;> split <;> omega
    · have hrr : r * d' ≤ r' * d := by
        have e1 : n * d' = (d * g * q) * d' + r * d' := by rw [← hdiv]; ring
        have e2 : n' * d = (d * g * q) * d' + r' * d := by rw [← hdiv']; ring
        omega
      have h2 : q * g ≤ (q + 1) * g := Nat.mul_le_mul_right _ (by omega)
      split
      · next hup =>
        have hup' : d' * g < 2 * r' ∨ (2 * r' = d' * g ∧ q % 2 = 1) := by
          rcases hup with hup | ⟨hup, hodd⟩
          · refine .inl (Nat.lt_of_mul_lt_mul_right (a := d) ?_)
            have : d * g * d' < 2 * r * d' := Nat.mul_lt_mul_of_pos_right hup hd'
            calc d' * g * d = d * g * d' := by ring
              _ < 2 * r * d' := this
              _ = 2 * (r * d') := by ring
              _ ≤ 2 * (r' * d) := by omega
              _ = 2 * r' * d := by ring
          · have : d' * g ≤ 2 * r' := by
              refine Nat.le_of_mul_le_mul_right (c := d) ?_ hd
              calc d' * g * d = 2 * r * d' := by rw [hup]; ring
                _ = 2 * (r * d') := by ring
                _ ≤ 2 * (r' * d) := by omega
                _ = 2 * r' * d := by ring
            omega
        rw [if_pos hup']
      · split <;> omega

/-- A bound by a value of the format survives rounding. -/
theorem roundNearest_le_of_value (fmt : Fmt) {n d b : Nat} (hd : 0 < d) (hb : gap fmt b ∣ b)
    (h : n ≤ b * d) : roundNearest fmt n d ≤ b := by
  rw [← roundNearest_of_dvd fmt hb]
  exact roundNearest_mono fmt hd Nat.one_pos (by omega)

/-- A bound from below by a value of the format survives rounding. -/
theorem le_roundNearest_of_value (fmt : Fmt) {n d b : Nat} (hd : 0 < d) (hb : gap fmt b ∣ b)
    (h : b * d ≤ n) : b ≤ roundNearest fmt n d := by
  rw [← roundNearest_of_dvd fmt hb]
  exact roundNearest_mono fmt Nat.one_pos hd (by omega)

/-! Packing -/

/-- The pattern of a binary64 value is below the sign bit. -/
theorem packMag_spec {m : Nat} (h : IsValue .binary64 m) :
    packMag m < 2047 * 2 ^ 52 ∧
    ((m < 2 ^ 52 ∧ packMag m = m) ∨
     (2 ^ 52 ≤ m ∧ ∃ k f, f < 2 ^ 52 ∧ m = (2 ^ 52 + f) * 2 ^ k ∧
        packMag m = (k + 1) * 2 ^ 52 + f)) := by
  obtain ⟨hlt, hdvd⟩ := h
  have hk : lastPlace 53 0 m = m.log2 - 52 := by simp [lastPlace]
  change gap .binary64 m ∣ m at hdvd
  simp only [gap, precision, leastPlace, hk] at hdvd
  rw [overflowMag_binary64] at hlt
  have hhigh : m ≠ 0 → m.log2 < 2098 := log2_lt_of_lt_pow hlt
  clear hlt
  simp only [packMag, hk]
  rcases Nat.lt_or_ge m (2 ^ 52) with hm | hm
  · have h0 : m.log2 - 52 = 0 := by
      rcases Nat.eq_zero_or_pos m with rfl | hpos
      · simp
      · have := (Nat.log2_lt (by omega)).2 hm
        omega
    rw [h0]
    simp only [Nat.zero_mul, Nat.pow_zero, Nat.div_one, Nat.zero_add]
    exact ⟨by omega, .inl ⟨hm, trivial⟩⟩
  · have hpos : m ≠ 0 := by omega
    have hlow : 52 ≤ m.log2 := (Nat.le_log2 hpos).2 hm
    have hhigh := hhigh hpos
    obtain ⟨c, hc⟩ := hdvd
    have hself := Nat.log2_self_le hpos
    have hnext := @Nat.lt_log2_self m
    generalize hj : m.log2 - 52 = k at *
    have hL : m.log2 = 52 + k := by omega
    rw [hL] at hself hnext
    have hp : 0 < 2 ^ k := Nat.two_pow_pos k
    have hc1 : 2 ^ 52 ≤ c := by
      refine Nat.le_of_mul_le_mul_left (c := 2 ^ k) ?_ hp
      rw [← hc, Nat.mul_comm, ← Nat.pow_add]; exact hself
    have hc2 : c < 2 ^ 53 := by
      refine Nat.lt_of_mul_lt_mul_left (a := 2 ^ k) ?_
      rw [← hc, Nat.mul_comm, ← Nat.pow_add]
      have : 52 + k + 1 = 53 + k := by omega
      rw [← this]; exact hnext
    have hdiv : m / 2 ^ k = c := by rw [hc]; exact Nat.mul_div_cancel_left c hp
    have hm' : m = (2 ^ 52 + (c - 2 ^ 52)) * 2 ^ k := by
      rw [Nat.add_sub_cancel' hc1, Nat.mul_comm]; exact hc
    rw [hdiv]
    clear hself hnext hc hdiv
    have hk2 : k < 2046 := by omega
    refine ⟨by omega, .inr ⟨hm, k, c - 2 ^ 52, by omega, hm', by omega⟩⟩

/-- Unpacking a packed value gives it back. -/
theorem unpack_pack (neg : Bool) {m : Nat} (h : IsValue .binary64 m) :
    unpack (pack neg m) = .fin neg m := by
  obtain ⟨hb, hc⟩ := packMag_spec h
  have hN : (pack neg m).toNat = (if neg then 2 ^ 63 else 0) + packMag m := by
    simp only [pack, BitVec.toNat_ofNat]
    refine Nat.mod_eq_of_lt ?_
    split <;> omega
  have hs : (pack neg m).msb = neg := by
    rw [BitVec.msb_eq_decide, hN]
    cases neg
    · simp only [Bool.false_eq_true, ↓reduceIte, decide_eq_false_iff_not]; omega
    · simp only [↓reduceIte, decide_eq_true_eq]; omega
  have he : expField (pack neg m) = packMag m / 2 ^ 52 := by
    unfold expField
    rw [hN]
    cases neg
    · simp only [Bool.false_eq_true, ↓reduceIte]; omega
    · simp only [↓reduceIte]; omega
  have hf : fracField (pack neg m) = packMag m % 2 ^ 52 := by
    unfold fracField
    rw [hN]
    cases neg
    · simp only [Bool.false_eq_true, ↓reduceIte, Nat.zero_add]
    · simp only [↓reduceIte]; omega
  unfold unpack
  rw [he, hf, hs]
  rw [if_neg (by omega)]
  rcases hc with ⟨hm, hp⟩ | ⟨-, k, f, hf', hm, hp⟩
  · rw [hp, if_pos (by omega), Nat.mod_eq_of_lt hm]
  · have e1 : packMag m / 2 ^ 52 = k + 1 := by omega
    have e2 : packMag m % 2 ^ 52 = f := by omega
    rw [if_neg (by omega), e1, e2, Nat.add_sub_cancel, ← hm]

/-- A finite pattern stands for a binary64 value. -/
theorem unpack_isValue {w : Word} {neg : Bool} {m : Nat} (h : unpack w = .fin neg m) :
    IsValue .binary64 m := by
  unfold unpack at h
  have hf : fracField w < 2 ^ 52 := Nat.mod_lt _ (by decide)
  have he : expField w < 2048 := Nat.mod_lt _ (by decide)
  split at h
  · split at h <;> cases h
  · next h1 =>
    split at h
    · cases h
      rw [IsValue, overflowMag_binary64]
      refine ⟨lt_pow_of_lt_pow hf (by omega), ?_⟩
      exact gap_dvd_of_le .binary64 (k := 0) (by decide) (by simp)
        (Nat.le_trans (Nat.le_of_lt hf) (Nat.pow_le_pow_right (by omega) (by simp [precision])))
    · cases h
      have hlt : (2 ^ 52 + fracField w) * 2 ^ (expField w - 1) < 2 ^ (53 + (expField w - 1)) := by
        rw [Nat.pow_add]
        exact Nat.mul_lt_mul_of_pos_right (by omega) (Nat.two_pow_pos _)
      have hexp : 53 + (expField w - 1) ≤ 2098 := by omega
      rw [IsValue, overflowMag_binary64]
      refine ⟨lt_pow_of_lt_pow hlt hexp, ?_⟩
      exact gap_dvd_of_le .binary64 (k := expField w - 1) (Nat.zero_le _)
        (Nat.dvd_mul_left _ _) (Nat.le_of_lt hlt)

/-- Packing what a finite pattern stands for gives it back. -/
theorem pack_unpack {w : Word} {neg : Bool} {m : Nat} (h : unpack w = .fin neg m) :
    pack neg m = w := by
  have hv := unpack_isValue h
  obtain ⟨hb, hc⟩ := packMag_spec hv
  have hf : fracField w < 2 ^ 52 := Nat.mod_lt _ (by decide)
  have he : expField w < 2048 := Nat.mod_lt _ (by decide)
  have hw : w.toNat < 2 ^ 64 := w.isLt
  have hmsb : w.msb = decide (2 ^ 63 ≤ w.toNat) := by rw [BitVec.msb_eq_decide]
  have key : packMag m = expField w * 2 ^ 52 + fracField w ∧ neg = w.msb := by
    unfold unpack at h
    split at h
    · split at h <;> cases h
    · next h1 =>
      split at h
      · next h0 =>
        cases h
        refine ⟨?_, rfl⟩
        rcases hc with ⟨-, hp⟩ | ⟨hge, -⟩
        · rw [hp, h0]; simp
        · omega
      · next h0 =>
        cases h
        refine ⟨?_, rfl⟩
        have hj : lastPlace 53 0 ((2 ^ 52 + fracField w) * 2 ^ (expField w - 1)) = expField w - 1 := by
          have hl : ((2 ^ 52 + fracField w) * 2 ^ (expField w - 1)).log2 = 52 + (expField w - 1) := by
            have hpos : (2 ^ 52 + fracField w) * 2 ^ (expField w - 1) ≠ 0 :=
              Nat.mul_ne_zero (by omega) (Nat.two_pow_pos _).ne'
            refine (Nat.log2_eq_iff hpos).2 ⟨?_, ?_⟩
            · rw [Nat.pow_add]; exact Nat.mul_le_mul_right _ (by omega)
            · rw [show 52 + (expField w - 1) + 1 = 53 + (expField w - 1) by omega, Nat.pow_add]
              exact Nat.mul_lt_mul_of_pos_right (by omega) (Nat.two_pow_pos _)
          simp only [lastPlace, hl]
          omega
        simp only [packMag, hj]
        rw [Nat.mul_div_cancel _ (Nat.two_pow_pos _)]
        have : expField w = expField w - 1 + 1 := by omega
        omega
  obtain ⟨hp, rfl⟩ := key
  apply BitVec.eq_of_toNat_eq
  simp only [pack, BitVec.toNat_ofNat, hp, hmsb]
  unfold expField fracField at *
  by_cases hs : 2 ^ 63 ≤ w.toNat
  · simp only [hs, decide_true, ↓reduceIte]; omega
  · simp only [hs, decide_false, Bool.false_eq_true, ↓reduceIte]; omega

end Sys2Proof.Machine
end

