-- ==== Sys2Proof/Laws/Exp.lean ====
section
/-!
SUPPORT. What the bounds of `EXP64` are: the quotient `expNum / expDen` is a partial sum of the
exponential series of a negative argument, above the exponential when its last index is even and
below it when it is odd.
-/

namespace Sys2Proof.Machine

open Finset Filter Topology

theorem expDen_pos (s n : Nat) : 0 < expDen s n := by
  induction n with
  | zero => exact Nat.one_pos
  | succ n ih => exact Nat.mul_pos ih (Nat.mul_pos (Nat.two_pow_pos s) (Nat.succ_pos n))

theorem expDen_eq (s n : Nat) : expDen s n = 2 ^ (s * n) * n.factorial := by
  induction n with
  | zero => simp [expDen]
  | succ n ih => rw [expDen, ih, Nat.factorial_succ, Nat.mul_succ s n, Nat.pow_add]; ring

/-- The quotient is the partial sum of the series of `exp (-(a / 2^s))`. -/
theorem expNum_div_expDen (a s n : Nat) :
    (expNum a s n : ℝ) / expDen s n =
      ∑ j ∈ range (n + 1), (-1) ^ j * ((a / 2 ^ s : ℝ) ^ j / j.factorial) := by
  induction n with
  | zero => simp [expNum, expDen]
  | succ n ih =>
    rw [sum_range_succ, ← ih]
    have hd : (expDen s n : ℝ) ≠ 0 := by exact_mod_cast (expDen_pos s n).ne'
    have h2 : ((2 : ℝ) ^ s) ≠ 0 := by positivity
    have hf : ((n + 1).factorial : ℝ) ≠ 0 := by exact_mod_cast (n + 1).factorial_ne_zero
    have hn : ((n : ℝ) + 1) ≠ 0 := by positivity
    have hden : (expDen s n : ℝ) * (2 ^ s * (n + 1)) = 2 ^ (s * (n + 1)) * (n + 1).factorial := by
      have := expDen_eq s (n + 1)
      rw [expDen] at this
      exact_mod_cast this
    have e1 : (expDen s (n + 1) : ℝ) = expDen s n * (2 ^ s * (n + 1)) := by
      simp [expDen]
    have e2 : (expNum a s (n + 1) : ℝ) =
        expNum a s n * (2 ^ s * (n + 1)) + (-(a : ℝ)) ^ (n + 1) := by
      simp [expNum]
    rw [e1, e2, add_div]
    congr 1
    · field_simp
    · rw [hden, div_pow, ← pow_mul, neg_pow]
      field_simp

/-- The terms of the series of `exp (-z)` tend to it. -/
theorem exp_neg_tendsto (z : ℝ) :
    Tendsto (fun n => ∑ j ∈ range n, (-1) ^ j * (z ^ j / j.factorial)) atTop (𝓝 (Real.exp (-z))) := by
  have h := (NormedSpace.expSeries_div_hasSum_exp (𝔸 := ℝ) (-z)).tendsto_sum_nat
  rw [← Real.exp_eq_exp_ℝ] at h
  refine h.congr fun n => sum_congr rfl fun j _ => ?_
  rw [neg_pow, mul_div_assoc]

theorem exp_terms_antitone {z : ℝ} (h0 : 0 ≤ z) (h1 : z ≤ 1) :
    Antitone fun j : Nat => z ^ j / (j.factorial : ℝ) := by
  refine antitone_nat_of_succ_le fun j => ?_
  have hj : (0 : ℝ) < j.factorial := by exact_mod_cast j.factorial_pos
  rw [Nat.factorial_succ, Nat.cast_mul, pow_succ]
  rw [div_le_div_iff₀ (by positivity) hj]
  have : z * (1 : ℝ) ≤ 1 * ((j + 1 : Nat) : ℝ) := by
    have : (1 : ℝ) ≤ ((j + 1 : Nat) : ℝ) := by exact_mod_cast Nat.succ_le_succ (Nat.zero_le j)
    nlinarith
  have hp : 0 ≤ z ^ j * (j.factorial : ℝ) := by positivity
  nlinarith [mul_le_mul_of_nonneg_left this hp]

/-- With an even last index the quotient is at least the exponential. -/
theorem exp_le_expNum_div (a s k : Nat) (h : a ≤ 2 ^ s) :
    Real.exp (-(a / 2 ^ s : ℝ)) ≤ (expNum a s (2 * k) : ℝ) / expDen s (2 * k) := by
  have h1 : (a / 2 ^ s : ℝ) ≤ 1 := by
    rw [div_le_one (by positivity)]; exact_mod_cast h
  rw [expNum_div_expDen]
  exact (exp_terms_antitone (by positivity) h1).tendsto_le_alternating_series (exp_neg_tendsto _) k

/-- With an odd last index the quotient is at most the exponential. -/
theorem expNum_div_le_exp (a s k : Nat) (h : a ≤ 2 ^ s) :
    (expNum a s (2 * k + 1) : ℝ) / expDen s (2 * k + 1) ≤ Real.exp (-(a / 2 ^ s : ℝ)) := by
  have h1 : (a / 2 ^ s : ℝ) ≤ 1 := by
    rw [div_le_one (by positivity)]; exact_mod_cast h
  rw [expNum_div_expDen]
  exact (exp_terms_antitone (by positivity) h1).alternating_series_le_tendsto (exp_neg_tendsto _)
    (k + 1)

end Sys2Proof.Machine
end

