-- ==== Sys2Proof/Laws/State.lean ====
section
/-!
SUPPORT. The small lemmas of the state's operations: what each leaves in each field, and that writing
one instance leaves the others alone.
-/

namespace Sys2Proof.Machine

theorem InstId.index_injective {j k : InstId} (h : j.index = k.index) : j = k := by
  obtain ⟨v, o, ho⟩ := j
  obtain ⟨v', o', ho'⟩ := k
  simp only [InstId.index] at h
  simp only [InstId.mk.injEq, Fin.mk.injEq]
  omega

@[simp] theorem InstId.index_inj {j k : InstId} : j.index = k.index ↔ j = k :=
  ⟨InstId.index_injective, fun h => h ▸ rfl⟩

/-! One place of a list of instances. -/

/-- What a written list reads as, at every place. -/
theorem getD_setPlace (l : List Envelope) (n m : Nat) (e : Envelope) :
    (setPlace l n e).getD m Envelope.reset = if m = n then e else l.getD m Envelope.reset := by
  unfold setPlace
  split
  · next hn =>
    by_cases hm : m = n
    · subst hm; simp [hn]
    · simp [hm, List.getElem?_set_ne (Ne.symm hm)]
  · next hn =>
    split
    · next he =>
      by_cases hm : m = n
      · subst hm; simp [he, List.getElem?_eq_none (Nat.le_of_not_lt hn)]
      · simp [hm]
    · simp only [List.getD_eq_getElem?_getD, List.getElem?_append, List.getElem?_replicate,
        List.length_append, List.length_replicate, List.getElem?_singleton]
      grind

/-- A place written with what it holds. -/
@[simp] theorem setPlace_getD (l : List Envelope) (n : Nat) :
    setPlace l n (l.getD n Envelope.reset) = l := by
  unfold setPlace
  split
  · next hn => simp [hn]
  · next hn => simp [List.getElem?_eq_none (Nat.le_of_not_lt hn)]

/-- A place written twice keeps the second value. -/
theorem setPlace_setPlace (l : List Envelope) (n : Nat) (d e : Envelope)
    (h : n < l.length ∨ e ≠ Envelope.reset) :
    setPlace (setPlace l n d) n e = setPlace l n e := by
  by_cases hn : n < l.length
  · simp [setPlace, hn]
  · have he : e ≠ Envelope.reset := h.resolve_left hn
    by_cases hd : d = Envelope.reset
    · simp [setPlace, hn, he, hd]
    · have hlen : n < l.length + (n - l.length + 1) := by omega
      simp [setPlace, hn, he, hd, hlen, List.set_append]

theorem length_setPlace {l : List Envelope} {n : Nat} (e : Envelope) (h : n < l.length) :
    (setPlace l n e).length = l.length := by
  simp [setPlace, h]

/-! One instance. -/

@[simp] theorem inst_reset (k : InstId) : State.reset.inst k = Envelope.reset := by
  simp only [State.inst, State.reset, List.getD_eq_getElem?_getD, List.getElem?_replicate]
  split <;> rfl

theorem inst_putInst (s : State) (j k : InstId) (e : Envelope) :
    (s.putInst k e).inst j = if j = k then e else s.inst j := by
  simp only [State.inst, State.putInst, getD_setPlace, InstId.index_inj]

@[simp] theorem inst_putInst_same (s : State) (k : InstId) (e : Envelope) :
    (s.putInst k e).inst k = e := by
  rw [inst_putInst, if_pos rfl]

theorem inst_putInst_other (s : State) {j k : InstId} (e : Envelope) (h : j ≠ k) :
    (s.putInst k e).inst j = s.inst j := by
  rw [inst_putInst, if_neg h]

/-- Writing what an instance holds changes nothing. -/
@[simp] theorem putInst_inst (s : State) (k : InstId) : s.putInst k (s.inst k) = s := by
  simp only [State.putInst, State.inst, setPlace_getD]

/-- Writing an instance that is in the list keeps the list's length. -/
theorem length_putInst (s : State) {k : InstId} (e : Envelope) (h : k.index < s.insts.length) :
    (s.putInst k e).insts.length = s.insts.length := length_setPlace e h

@[simp] theorem putInst_has (s : State) (j k : InstId) (e : Envelope) :
    (s.putInst k e).has j = s.has j := rfl

@[simp] theorem putInst_cfg (s : State) (k : InstId) (e : Envelope) :
    (s.putInst k e).cfg = s.cfg := rfl
@[simp] theorem putInst_sel (s : State) (k : InstId) (e : Envelope) :
    (s.putInst k e).sel = s.sel := rfl
@[simp] theorem putInst_stream (s : State) (k : InstId) (e : Envelope) :
    (s.putInst k e).stream = s.stream := rfl
@[simp] theorem putInst_response (s : State) (k : InstId) (e : Envelope) :
    (s.putInst k e).response = s.response := rfl

@[simp] theorem finish_cfg (s : State) (e : Envelope) (r : Option Response) :
    (s.finish e r).cfg = s.cfg := rfl
@[simp] theorem finish_sel (s : State) (e : Envelope) (r : Option Response) :
    (s.finish e r).sel = s.sel := rfl
@[simp] theorem finish_stream (s : State) (e : Envelope) (r : Option Response) :
    (s.finish e r).stream = s.stream := rfl
@[simp] theorem finish_response (s : State) (e : Envelope) (r : Option Response) :
    (s.finish e r).response = r := rfl
@[simp] theorem finish_inst_sel (s : State) (e : Envelope) (r : Option Response) :
    (s.finish e r).inst s.sel = e := inst_putInst_same s s.sel e
@[simp] theorem finish_current (s : State) (e : Envelope) (r : Option Response) :
    (s.finish e r).current = e := inst_putInst_same s s.sel e

theorem finish_inst (s : State) (e : Envelope) (r : Option Response) (j : InstId) :
    (s.finish e r).inst j = if j = s.sel then e else s.inst j := inst_putInst s j s.sel e

theorem finish_inst_other (s : State) (e : Envelope) (r : Option Response) {j : InstId}
    (h : j ≠ s.sel) : (s.finish e r).inst j = s.inst j := inst_putInst_other s e h

theorem resetInst_inst (s : State) (j k : InstId) :
    (s.resetInst k).inst j = if j = k then Envelope.reset else s.inst j :=
  inst_putInst s j k Envelope.reset

@[simp] theorem resetInst_cfg (s : State) (k : InstId) : (s.resetInst k).cfg = s.cfg := rfl
@[simp] theorem resetInst_sel (s : State) (k : InstId) : (s.resetInst k).sel = s.sel := rfl
@[simp] theorem resetInst_stream (s : State) (k : InstId) : (s.resetInst k).stream = s.stream := rfl
@[simp] theorem resetInst_response (s : State) (k : InstId) : (s.resetInst k).response = none := rfl

@[simp] theorem inst_update_stream (s : State) (l : List Input) (k : InstId) :
    ({ s with stream := l } : State).inst k = s.inst k := rfl
@[simp] theorem inst_update_sel_stream (s : State) (j : InstId) (l : List Input) (k : InstId) :
    ({ s with sel := j, stream := l } : State).inst k = s.inst k := rfl
@[simp] theorem inst_update_cfg (s : State) (c : Config) (k : InstId) :
    ({ s with cfg := c } : State).inst k = s.inst k := rfl
@[simp] theorem inst_update_response (s : State) (r : Option Response) (k : InstId) :
    ({ s with response := r } : State).inst k = s.inst k := rfl

/-- Writing an instance twice keeps the second value. -/
theorem putInst_putInst (s : State) (k : InstId) (d e : Envelope)
    (h : k.index < s.insts.length ∨ e ≠ Envelope.reset) :
    (s.putInst k d).putInst k e = s.putInst k e := by
  simp only [State.putInst, setPlace_setPlace _ _ _ _ h]

/-- Completing a command twice keeps the second outcome. -/
theorem finish_finish (s : State) (d e : Envelope) (q r : Option Response)
    (h : s.sel.index < s.insts.length ∨ e ≠ Envelope.reset) :
    (s.finish d q).finish e r = s.finish e r :=
  congrArg (fun t : State => { t with response := r }) (putInst_putInst s s.sel d e h)

/-- Completing a command that leaves its instance as it is changes the response only. -/
@[simp] theorem finish_current_self (s : State) (r : Option Response) :
    s.finish s.current r = { s with response := r } :=
  congrArg (fun t : State => { t with response := r }) (putInst_inst s s.sel)

/-- Completing a command twice with the same outcome for its instance. -/
@[simp] theorem finish_again (s : State) (e : Envelope) (q r : Option Response) :
    (s.finish e q).finish e r = s.finish e r := by
  have h := finish_current_self (s.finish e q) r
  rw [finish_current] at h
  exact h

/-- Completing a command at an instance that is in the list keeps the list's length. -/
theorem length_finish (s : State) (e : Envelope) (r : Option Response)
    (h : s.sel.index < s.insts.length) : (s.finish e r).insts.length = s.insts.length :=
  length_setPlace e h

end Sys2Proof.Machine
end

