-- ==== Sys2Proof/Laws/Ops.lean ====
section
/-!
SUPPORT. For each shared operation, what it can do, said once: the recomputation, the register
writes, the sample, a command's outcome, and taking the next presentation,
and one more presentation of a run.
-/

namespace Sys2Proof.Machine

/-! The recomputation changes the coefficients and their mark only (40_configuration R84). -/

section recompute
variable (cfg : Config) (e : Envelope)

theorem recompute_cases :
    (e.rateMark = .written ∧ e.fsMark = .written ∧
      e.recompute cfg = { e with coef := e.rate.map (coefOf cfg e.fs), coefMark := .written }) ∨
    (¬(e.rateMark = .written ∧ e.fsMark = .written) ∧ e.recompute cfg = e) := by
  unfold Envelope.recompute
  split
  · next h => exact .inl ⟨h.1, h.2, rfl⟩
  · next h => exact .inr ⟨h, rfl⟩

@[simp] theorem recompute_stage : (e.recompute cfg).stage = e.stage := by
  obtain ⟨-, -, h⟩ | ⟨-, h⟩ := recompute_cases cfg e <;> rw [h]
@[simp] theorem recompute_level : (e.recompute cfg).level = e.level := by
  obtain ⟨-, -, h⟩ | ⟨-, h⟩ := recompute_cases cfg e <;> rw [h]
@[simp] theorem recompute_rate : (e.recompute cfg).rate = e.rate := by
  obtain ⟨-, -, h⟩ | ⟨-, h⟩ := recompute_cases cfg e <;> rw [h]
@[simp] theorem recompute_rateMark : (e.recompute cfg).rateMark = e.rateMark := by
  obtain ⟨-, -, h⟩ | ⟨-, h⟩ := recompute_cases cfg e <;> rw [h]
@[simp] theorem recompute_lvl : (e.recompute cfg).lvl = e.lvl := by
  obtain ⟨-, -, h⟩ | ⟨-, h⟩ := recompute_cases cfg e <;> rw [h]
@[simp] theorem recompute_lvlMark : (e.recompute cfg).lvlMark = e.lvlMark := by
  obtain ⟨-, -, h⟩ | ⟨-, h⟩ := recompute_cases cfg e <;> rw [h]
@[simp] theorem recompute_fs : (e.recompute cfg).fs = e.fs := by
  obtain ⟨-, -, h⟩ | ⟨-, h⟩ := recompute_cases cfg e <;> rw [h]
@[simp] theorem recompute_fsMark : (e.recompute cfg).fsMark = e.fsMark := by
  obtain ⟨-, -, h⟩ | ⟨-, h⟩ := recompute_cases cfg e <;> rw [h]

end recompute

/-! The sample changes the stage and the level only (42_process R106). -/

section sample
variable (cfg : Config) (e : Envelope)

/-- A sample is a write of the level and the stage. -/
theorem sample_eq :
    e.sample cfg = { e with level := (e.sample cfg).level, stage := (e.sample cfg).stage } := by
  unfold Envelope.sample
  split
  · rfl
  · rfl
  · rfl
  · rfl
  · unfold Envelope.sustainArm; split <;> rfl
  · unfold Envelope.releaseArm; dsimp only; split <;> rfl

@[simp] theorem sample_rate : (e.sample cfg).rate = e.rate := by rw [sample_eq]
@[simp] theorem sample_rateMark : (e.sample cfg).rateMark = e.rateMark := by rw [sample_eq]
@[simp] theorem sample_lvl : (e.sample cfg).lvl = e.lvl := by rw [sample_eq]
@[simp] theorem sample_lvlMark : (e.sample cfg).lvlMark = e.lvlMark := by rw [sample_eq]
@[simp] theorem sample_fs : (e.sample cfg).fs = e.fs := by rw [sample_eq]
@[simp] theorem sample_fsMark : (e.sample cfg).fsMark = e.fsMark := by rw [sample_eq]
@[simp] theorem sample_coef : (e.sample cfg).coef = e.coef := by rw [sample_eq]
@[simp] theorem sample_coefMark : (e.sample cfg).coefMark = e.coefMark := by rw [sample_eq]

end sample

/-- What a command makes of its instance. -/
def Envelope.after (cfg : Config) (e : Envelope) : Instr → Envelope
  | .setRates r1 r2 r3 r4 => e.writeRates cfg ⟨r1, r2, r3, r4⟩
  | .setLevels l1 l2 l3 l4 => e.writeLevels cfg ⟨l1, l2, l3, l4⟩
  | .setSampleRate fs => e.writeSampleRate cfg fs
  | .noteOn => e.gateOn
  | .noteOff => e.gateOff
  | .process => e.sample cfg
  | .isActive => e

/-- What a command responds (30_encoding R65). -/
def Envelope.answer (cfg : Config) (e : Envelope) : Instr → Option Response
  | .process => some (.level (e.sample cfg).level)
  | .isActive => some (.active e.active)
  | .setRates .. | .setLevels .. | .setSampleRate _ | .noteOn | .noteOff => none

/-- The one lemma of `exec`: a command that answers a next state finishes at the selected instance,
and its operands were in their domains. -/
theorem exec_next {i : Instr} {s t : State} (h : exec i s = .next t) :
    i.wellFormed s.cfg = true ∧ (i = .process → s.current.programmed s.cfg = true) ∧
    t = s.finish (s.current.after s.cfg i) (s.current.answer s.cfg i) := by
  cases i <;>
    simp only [exec, execSetRates, execSetLevels, execSetSampleRate, execNoteOn, execNoteOff,
      execProcess, execIsActive] at h
  case noteOn => cases h; simp [Instr.wellFormed, Envelope.after, Envelope.answer]
  case noteOff => cases h; simp [Instr.wellFormed, Envelope.after, Envelope.answer]
  case isActive => cases h; simp [Instr.wellFormed, Envelope.after, Envelope.answer]
  all_goals
    split at h
    · next hd => cases h; simp [Instr.wellFormed, hd, Envelope.after, Envelope.answer]
    · cases h

/-- The converse: a well-formed command, programmed if it is process, answers a next state. -/
theorem exec_of_wellFormed {i : Instr} {s : State} (hw : i.wellFormed s.cfg = true)
    (hp : i = .process → s.current.programmed s.cfg = true) :
    exec i s = .next (s.finish (s.current.after s.cfg i) (s.current.answer s.cfg i)) := by
  cases i <;> simp_all [exec, execSetRates, execSetLevels, execSetSampleRate, execNoteOn,
    execNoteOff, execProcess, execIsActive, Instr.wellFormed, Envelope.after, Envelope.answer]

/-- What the machine does with the next presentation (70_reset R153, 30_encoding R68, R73). -/
theorem take_cases (s : State) :
    (s.stream = [] ∧ s.take = .done s) ∨
    (∃ inp rest, s.stream = inp :: rest ∧ s.has inp.inst = true ∧ inp.reset = true ∧
      s.take = .done ({ s with stream := rest }.resetInst inp.inst)) ∨
    (∃ inp rest, s.stream = inp :: rest ∧ inp.reset = false ∧ inp.words = [] ∧
      s.take = .done { s with stream := rest }) ∨
    (∃ inp rest i left, s.stream = inp :: rest ∧ s.has inp.inst = true ∧ inp.reset = false ∧
      decode inp.words = .ok (i, left) ∧
      s.take = .command i { s with sel := inp.inst, stream := streamAfter inp left rest }) ∨
    (∃ inp rest e, s.stream = inp :: rest ∧
      (s.has inp.inst = false ∧ (inp.reset = true ∨ inp.words ≠ []) ∧ e = .noSuchInstance ∨
       s.has inp.inst = true ∧ inp.reset = false ∧ inp.words ≠ [] ∧
         ∃ d, decode inp.words = .error d ∧ e = refusalOf d) ∧
      s.take = .refused e inp.inst { s with stream := rest, response := none }) := by
  unfold State.take
  cases hs : s.stream with
  | nil => exact .inl ⟨rfl, rfl⟩
  | cons inp rest =>
    refine .inr ?_
    by_cases hi : inp.reset = false ∧ inp.words = []
    · exact .inr (.inl ⟨inp, rest, rfl, hi.1, hi.2, by simp [hi]⟩)
    have hne : inp.reset = true ∨ inp.words ≠ [] := by
      cases hr : inp.reset <;> simp_all
    cases hh : s.has inp.inst with
    | false =>
      exact .inr (.inr (.inr ⟨inp, rest, _, rfl, .inl ⟨hh, hne, rfl⟩, by simp [hi, hh]⟩))
    | true =>
      cases hr : inp.reset with
      | true => exact .inl ⟨inp, rest, rfl, hh, hr, by simp [hh, hr]⟩
      | false =>
        have hw : inp.words ≠ [] := by simpa [hr] using hi
        cases hd : decode inp.words with
        | ok p =>
          exact .inr (.inr (.inl ⟨inp, rest, p.1, p.2, rfl, hh, hr, hd, by simp [hr, hw, hh, hd]⟩))
        | error e =>
          exact .inr (.inr (.inr ⟨inp, rest, _, rfl, .inr ⟨hh, hr, hw, e, hd, rfl⟩,
            by simp [hr, hw, hh, hd]⟩))

/-- What a step does to the instances, said once: nothing, a reset of one that the configuration
gives, or one command at one. -/
theorem step_next {s t : State} (h : step s = .next t) :
    t.cfg = s.cfg ∧
    ((t.insts = s.insts ∧ t.sel = s.sel) ∨
     (∃ j, s.has j = true ∧ t.insts = (s.putInst j Envelope.reset).insts ∧ t.sel = s.sel) ∨
     (∃ j i, s.has j = true ∧ i.wellFormed s.cfg = true ∧
       (i = .process → (s.inst j).programmed s.cfg = true) ∧
       t.insts = (s.putInst j ((s.inst j).after s.cfg i)).insts ∧ t.sel = j)) := by
  unfold step at h
  obtain ⟨-, ht⟩ | ⟨inp, rest, -, hh, -, ht⟩ | ⟨inp, rest, -, -, -, ht⟩ |
    ⟨inp, rest, i, left, -, hh, -, -, ht⟩ | ⟨inp, rest, e, -, -, ht⟩ := take_cases s <;>
    rw [ht] at h
  · cases h; exact ⟨rfl, .inl ⟨rfl, rfl⟩⟩
  · cases h; exact ⟨rfl, .inr (.inl ⟨inp.inst, hh, rfl, rfl⟩)⟩
  · cases h; exact ⟨rfl, .inl ⟨rfl, rfl⟩⟩
  · obtain ⟨hw, hp, rfl⟩ := exec_next h
    exact ⟨rfl, .inr (.inr ⟨inp.inst, i, hh, hw, hp, rfl, rfl⟩)⟩
  · cases h

/-- The same, instance by instance. -/
theorem step_next_inst {s t : State} (h : step s = .next t) :
    (∀ k, t.inst k = s.inst k) ∨
    (∃ j, ∀ k, t.inst k = if k = j then Envelope.reset else s.inst k) ∨
    (∃ j i, i.wellFormed s.cfg = true ∧
      (i = .process → (s.inst j).programmed s.cfg = true) ∧
      ∀ k, t.inst k = if k = j then (s.inst j).after s.cfg i else s.inst k) := by
  have read (u : State) (hu : t.insts = u.insts) (k : InstId) : t.inst k = u.inst k := by
    simp only [State.inst, hu]
  obtain ⟨-, ⟨hi, -⟩ | ⟨j, -, hi, -⟩ | ⟨j, i, -, hw, hp, hi, -⟩⟩ := step_next h
  · exact .inl (read s hi)
  · exact .inr (.inl ⟨j, fun k => by rw [read _ hi, inst_putInst]⟩)
  · exact .inr (.inr ⟨j, i, hw, hp, fun k => by rw [read _ hi, inst_putInst]⟩)

/-! A run. -/

/-- What one more presentation does to a run, said once. -/
theorem advance_cases (r : Run) :
    (∃ t v, step r.state = .next t ∧ r.advance.state = t ∧
      r.advance.refusals = r.refusals ∧ r.advance.faults = r.faults ∧
      r.advance.shown = r.shown ++ v ∧ ∀ p ∈ v, r.marked p.1 = false) ∨
    (∃ inp rest e, r.state.stream = inp :: rest ∧ step r.state = .refused e ∧
      r.advance.refusals = r.refusals ++ [⟨r.position, inp.inst, e⟩] ∧
      r.advance.faults = r.faults ∧ r.advance.shown = r.shown ∧
      r.advance.state.cfg = r.state.cfg ∧ r.advance.state.insts = r.state.insts) ∨
    (∃ inp rest f, r.state.stream = inp :: rest ∧ step r.state = .fault f ∧
      r.advance.faults = r.faults ++ [⟨r.position, inp.inst, f⟩] ∧
      r.advance.refusals = r.refusals ∧ r.advance.shown = r.shown ∧
      r.advance.state.cfg = r.state.cfg ∧ r.advance.state.insts = r.state.insts) := by
  have hshow (k : InstId) (v : Option Response) : ∀ p ∈ r.showing k v, r.marked p.1 = false := by
    unfold Run.showing
    split
    · simp
    · next h => intro p hp; obtain ⟨x, -, rfl⟩ := List.mem_map.1 hp; simpa using h
  obtain ⟨-, ht⟩ | ⟨inp, rest, -, -, -, ht⟩ | ⟨inp, rest, -, -, -, ht⟩ |
    ⟨inp, rest, i, left, hs, -, -, -, ht⟩ | ⟨inp, rest, e, hs, -, ht⟩ := take_cases r.state <;>
    unfold step Run.advance <;> rw [ht] <;> dsimp only
  iterate 3 exact .inl ⟨_, [], rfl, rfl, rfl, rfl, (List.append_nil _).symm, by simp⟩
  · generalize exec i _ = o
    cases o with
    | next u => exact .inl ⟨u, _, rfl, rfl, rfl, rfl, rfl, hshow _ _⟩
    | fault f => exact .inr (.inr ⟨inp, rest, f, hs, rfl, rfl, rfl, rfl, rfl, rfl⟩)
    | refused e => exact .inr (.inl ⟨inp, rest, e, hs, rfl, rfl, rfl, rfl, rfl, rfl⟩)
  · exact .inr (.inl ⟨inp, rest, e, hs, rfl, rfl, rfl, rfl, rfl, rfl⟩)

/-- A mark is kept, and nothing more is shown of the instance that has it. -/
theorem marked_advance {r : Run} {k : InstId} (h : r.marked k = true) :
    r.advance.marked k = true ∧ r.advance.shownAt k = r.shownAt k := by
  obtain ⟨t, v, -, -, hr, hf, hv, hp⟩ | ⟨inp, rest, e, -, -, hr, hf, hv, -, -⟩ |
    ⟨inp, rest, e, -, -, hf, hr, hv, -, -⟩ := advance_cases r
  · have hnil : v.filter (fun p => p.1 = k) = [] := by
      refine List.filter_eq_nil_iff.2 fun p hm hk => ?_
      have hpk : p.1 = k := of_decide_eq_true hk
      exact Bool.false_ne_true ((hp p hm).symm.trans (hpk ▸ h))
    exact ⟨by rw [← h, Run.marked, Run.marked, hr, hf], by simp [Run.shownAt, hv, hnil]⟩
  · refine ⟨?_, by rw [Run.shownAt, Run.shownAt, hv]⟩
    simp only [Run.marked, hr, hf, List.any_append, Bool.or_eq_true] at h ⊢
    exact h.imp .inl id
  · refine ⟨?_, by rw [Run.shownAt, Run.shownAt, hv]⟩
    simp only [Run.marked, hr, hf, List.any_append, Bool.or_eq_true] at h ⊢
    exact h.imp id .inl

end Sys2Proof.Machine
end

