-- ==== Sys2Proof/Laws/PerInstr.lean ====
section
/-!
SUPPORT. Statements made of every command as syntax, one lemma for each constructor.
-/

namespace Sys2Proof.Laws

/-- The framing of a command (30_encoding R61, R62, R64, R68): its encoding has the words of its
format, and starts with a header whose reserved bits are zero and whose opcode calls for the words
that follow. -/
def Framing.Statement (i : Instr) : Prop :=
  (encode i).length = i.words ∧
  ∃ h payload, encode i = h :: payload ∧ headerRsv h = 0 ∧
    payloadWords (headerOp h) = some payload.length

theorem Framing.setRates (r1 r2 r3 r4 : Word) : Framing.Statement (.setRates r1 r2 r3 r4) :=
  ⟨rfl, _, _, rfl, by decide, by rfl⟩

theorem Framing.setLevels (l1 l2 l3 l4 : Word) : Framing.Statement (.setLevels l1 l2 l3 l4) :=
  ⟨rfl, _, _, rfl, by decide, by rfl⟩

theorem Framing.setSampleRate (fs : Word) : Framing.Statement (.setSampleRate fs) :=
  ⟨rfl, _, _, rfl, by decide, by rfl⟩

theorem Framing.noteOn : Framing.Statement .noteOn := ⟨rfl, _, _, rfl, by decide, by rfl⟩

theorem Framing.noteOff : Framing.Statement .noteOff := ⟨rfl, _, _, rfl, by decide, by rfl⟩

theorem Framing.process : Framing.Statement .process := ⟨rfl, _, _, rfl, by decide, by rfl⟩

theorem Framing.isActive : Framing.Statement .isActive := ⟨rfl, _, _, rfl, by decide, by rfl⟩

end Sys2Proof.Laws
end

