-- ==== Sys2Proof/Tests/Slice0.lean ====
section
/-!
SUPPORT. Tests. Every expected value is a vector of spec/95_test_vectors.md, or is worked out by hand
from the rule named.
-/

set_option Elab.async false

namespace Sys2Proof.Tests

open Sys2Proof Sys2Proof.Machine

/-! Decoding: the words EN1 to EN13 of 95_test_vectors section 2.1, and operand patterns. -/

theorem test_decode_setRates :
    decode [0x0000000000000001#64, 0x4058C00000000000#64, 0x4049000000000000#64,
      0x0000000000000000#64, 0x404E000000000000#64, 0x0000000000000004#64] =
    .ok (.setRates 0x4058C00000000000#64 0x4049000000000000#64 0#64 0x404E000000000000#64,
      [0x0000000000000004#64]) := by decide
theorem test_decode_setLevels :
    decode [0x0000000000000002#64, 0x3FF0000000000000#64, 0x3FE0000000000000#64,
      0x3FD0000000000000#64, 0x0000000000000000#64] =
    .ok (.setLevels 0x3FF0000000000000#64 0x3FE0000000000000#64 0x3FD0000000000000#64 0#64, []) := by
  decide
theorem test_decode_setSampleRate :
    decode [0x0000000000000003#64, 0x40E7700000000000#64] =
    .ok (.setSampleRate 0x40E7700000000000#64, []) := by decide
theorem test_decode_noteOn : decode [0x0000000000000004#64] = .ok (.noteOn, []) := by decide
theorem test_decode_noteOff : decode [0x0000000000000005#64] = .ok (.noteOff, []) := by decide
theorem test_decode_process : decode [0x0000000000000006#64] = .ok (.process, []) := by decide
theorem test_decode_isActive : decode [0x0000000000000007#64] = .ok (.isActive, []) := by decide
theorem test_decode_reserved_opcodes :
    decode [0x0000000000000000#64] = .error .reservedOpcode ∧
    decode [0x0000000000000008#64] = .error .reservedOpcode ∧
    decode [0x000000000000000F#64] = .error .reservedOpcode := by decide
/-- EN11 to EN13: the reserved bits are tested before the opcode. -/
theorem test_decode_reserved_bits :
    decode [0x0000000000000016#64] = .error .reservedBits ∧
    decode [0x8000000000000004#64] = .error .reservedBits ∧
    decode [0x0000000000000010#64] = .error .reservedBits := by decide
theorem test_decode_incomplete :
    decode [0x0000000000000001#64, 0#64, 0#64, 0#64] = .error .incomplete := by decide
/-- 20_memory R51: byte 0 holds bits [7:0]. -/
theorem test_decode_bytes :
    decodeBytes [0x03#8, 0#8, 0#8, 0#8, 0#8, 0#8, 0#8, 0#8,
      0#8, 0#8, 0#8, 0#8, 0#8, 0x70#8, 0xE7#8, 0x40#8, 0x07#8] =
    .ok (.setSampleRate 0x40E7700000000000#64, [0x07#8]) := by decide
theorem test_decode_table_word :
    decodeTableWord 64 2 = some (.setLevels 0#64 0#64 0#64 0#64) ∧
    decodeTableWord 64 0x16 = none := by decide

/-! Well-formedness: one ill-formed command for each check (vectors CF8, CF10, CF13). -/

theorem test_wellFormed_setRates :
    Instr.wellFormed Config.default (.setRates 0xBFF0000000000000#64 0#64 0#64 0#64) = false ∧
    Instr.wellFormed Config.default (.setRates 0#64 0#64 0#64 0x8000000000000000#64) = true := by
  decide +kernel
theorem test_wellFormed_setLevels :
    Instr.wellFormed Config.default (.setLevels 0x3FF0000000000001#64 0#64 0#64 0#64) = false ∧
    Instr.wellFormed Config.default (.setLevels 0#64 0#64 0#64 0x3FF0000000000000#64) = true := by
  decide +kernel
theorem test_wellFormed_setSampleRate :
    Instr.wellFormed Config.default (.setSampleRate 0x40BF3F0000000000#64) = false ∧
    Instr.wellFormed Config.default (.setSampleRate 0x40BF400000000000#64) = true := by
  decide +kernel

/-! Arithmetic, by hand from IEEE 754. -/

/-- 1 ⊕ 2^-53 is a tie, to the even 1; (1 + 2^-52) ⊕ 2^-53 is a tie, to the even 1 + 2^-51. -/
theorem test_fadd_ties :
    fadd .binary64 0x3FF0000000000000#64 0x3CA0000000000000#64 = 0x3FF0000000000000#64 ∧
    fadd .binary64 0x3FF0000000000001#64 0x3CA0000000000000#64 = 0x3FF0000000000002#64 := by
  decide +kernel
/-- 1 ⊘ 3, and the least subnormal halved is a tie, to the even zero. -/
theorem test_fdiv_fmul :
    fdiv .binary64 0x3FF0000000000000#64 0x4008000000000000#64 = 0x3FD5555555555555#64 ∧
    fmul .binary64 0x0000000000000001#64 0x3FE0000000000000#64 = 0x0000000000000000#64 := by
  decide +kernel
/-- 1 ⊖ 1 is +0.0, -0.0 ⊕ -0.0 is -0.0, and the greatest value doubled is an infinity. -/
theorem test_signed_zero_overflow :
    fsub .binary64 0x3FF0000000000000#64 0x3FF0000000000000#64 = 0x0000000000000000#64 ∧
    fadd .binary64 0x8000000000000000#64 0x8000000000000000#64 = 0x8000000000000000#64 ∧
    fadd .binary64 0x7FEFFFFFFFFFFFFF#64 0x7FEFFFFFFFFFFFFF#64 = 0x7FF0000000000000#64 := by
  decide +kernel
/-- 0.1 as a binary32 value is 0x3DCCCCCD, which is 0x3FB99999A0000000 in binary64. -/
theorem test_narrow_binary32 :
    narrow .binary32 0x3FB999999999999A#64 = 0x3FB99999A0000000#64 := by decide +kernel

/-! Coefficients: table T1 of 95_test_vectors section 2.2. Which neighbour the reference exponential
takes is given to the function, since the model leaves it free (log 3). -/

/-- An exponential that takes the upper neighbour where `high` holds, and the lower one elsewhere. -/
def testExp (high : Bool) : Word → Word :=
  expOf (fun _ _ => if high then 2 ^ 1100 else 0) (fun _ x => x) .binary64

/-- At 48000 Hz and rate 99, 44100 Hz and rate 50, and 384000 Hz and rate 0, with lower neighbours. -/
theorem test_coefficients_lower :
    coefWith (testExp false) Config.default 0x40E7700000000000#64 0x4058C00000000000#64 =
      0x3F5F94BA2F0C9A00#64 ∧
    coefWith (testExp false) Config.default 0x40E5888000000000#64 0x4049000000000000#64 =
      0x3F12B960F84CC000#64 ∧
    coefWith (testExp false) Config.default 0x4117700000000000#64 0x0000000000000000#64 =
      0x3E9179EC76A00000#64 := by decide +kernel
/-- At 8000 Hz and rate 99, and at 48000 Hz and rate 98.5 (vector CF5), with upper neighbours. -/
theorem test_coefficients_upper :
    coefWith (testExp true) Config.default 0x40BF400000000000#64 0x4058C00000000000#64 =
      0x3F879266A76FE380#64 ∧
    coefWith (testExp true) Config.default 0x40E7700000000000#64 0x4058A00000000000#64 =
      0x3F5E82D0F26ACE00#64 := by decide +kernel
/-- E1: 1.0 at both zeros, whatever the choice. -/
theorem test_exp_of_zero :
    exp64 .binary64 0x0000000000000000#64 = 0x3FF0000000000000#64 ∧
    exp64 .binary64 0x8000000000000000#64 = 0x3FF0000000000000#64 := by decide +kernel

/-! One step of each command. -/

/-- An instance of the tests, away from the one selected at reset. -/
abbrev k32 : InstId := ⟨3, 2⟩

/-- The machine after reset with `e` in the place of one instance, which is selected. -/
def machineWith (e : Envelope) : State := { State.reset with sel := k32 }.putInst k32 e

/-- The P1 setup of 95_test_vectors: 48000 Hz, rates 99, levels 1, 0.5, 0.25, 0. -/
def p1 (stage : Stage) (level : Word) : Envelope where
  stage    := stage
  level    := level
  rate     := ⟨0x4058C00000000000#64, 0x4058C00000000000#64, 0x4058C00000000000#64, 0x4058C00000000000#64⟩
  rateMark := .written
  lvl      := ⟨0x3FF0000000000000#64, 0x3FE0000000000000#64, 0x3FD0000000000000#64, 0#64⟩
  lvlMark  := .written
  fs       := 0x40E7700000000000#64
  fsMark   := .written
  coef     := ⟨0x3F5F94BA2F0C9A00#64, 0x3F5F94BA2F0C9A00#64, 0x3F5F94BA2F0C9A00#64, 0x3F5F94BA2F0C9A00#64⟩
  coefMark := .written

/-- The stage, the level and the response that a command leaves. -/
def seen (i : Instr) (s : State) : Option (Stage × Word × Option Response) :=
  match exec i s with
  | .next t => some ((t.inst s.sel).stage, (t.inst s.sel).level, t.response)
  | _ => none

/-- The instance that a command leaves. -/
def left (i : Instr) (s : State) : Option Envelope :=
  match exec i s with
  | .next t => some (t.inst s.sel)
  | _ => none

/-- The refusal a command ends in. -/
def refusal (i : Instr) (s : State) : Option Refusal :=
  match exec i s with
  | .refused r => some r
  | _ => none

/-- Vector CF2: without a sample rate the coefficients stay UNSET. -/
theorem test_setRates_unset_fs :
    left (.setRates 0x4058C00000000000#64 0x4049000000000000#64 0#64 0x4058C00000000000#64)
      (machineWith Envelope.reset) =
    some { Envelope.reset with
      rate := ⟨0x4058C00000000000#64, 0x4049000000000000#64, 0#64, 0x4058C00000000000#64⟩
      rateMark := .written } := by decide +kernel
/-- Vectors CF7 and CF9: 100 in the fourth place, and a NaN in the first. -/
theorem test_setRates_refused :
    refusal (.setRates 0x4058C00000000000#64 0x4058C00000000000#64 0x4058C00000000000#64
      0x4059000000000000#64) State.reset = some .rateOutOfDomain ∧
    refusal (.setRates 0x7FF8000000000000#64 0#64 0#64 0#64) State.reset =
      some .rateOutOfDomain := by decide +kernel
/-- Vector CF11, from a programmed state: the coefficients stay. -/
theorem test_setLevels :
    left (.setLevels 0x3FE0000000000000#64 0x8000000000000000#64 0#64 0x3FF0000000000000#64)
      (machineWith (p1 .decay1 0x3FEFAE1B65502C58#64)) =
    some { p1 .decay1 0x3FEFAE1B65502C58#64 with
      lvl := ⟨0x3FE0000000000000#64, 0x8000000000000000#64, 0#64, 0x3FF0000000000000#64⟩ } := by
  decide +kernel
/-- Vector CF10. -/
theorem test_setLevels_refused :
    refusal (.setLevels 0x3FF0000000000001#64 0#64 0#64 0#64) State.reset =
      some .levelOutOfDomain := by decide +kernel
/-- Vector CF14: the upper bound is admitted; the stage, the level and the rates stay. -/
theorem test_setSampleRate :
    left (.setSampleRate 0x4117700000000000#64) (machineWith Envelope.reset) =
    some { Envelope.reset with fs := 0x4117700000000000#64, fsMark := .written } := by
  decide +kernel
/-- Vectors CF13 and CF15. -/
theorem test_setSampleRate_refused :
    refusal (.setSampleRate 0x40BF3F0000000000#64) State.reset = some .sampleRateOutOfDomain ∧
    refusal (.setSampleRate 0#64) State.reset = some .sampleRateOutOfDomain := by decide +kernel
/-- Vectors NC1 and NC2. -/
theorem test_noteOn :
    left .noteOn (machineWith (p1 .sustain 0x3FD01060B6FA699E#64)) = some (p1 .attack 0#64) ∧
    seen .noteOn State.reset = some (.attack, 0#64, none) := by decide +kernel
/-- Vectors NC5 and NC4. -/
theorem test_noteOff :
    left .noteOff (machineWith (p1 .attack 0x3F93915992D5D9AE#64)) =
      some (p1 .release 0x3F93915992D5D9AE#64) ∧
    left .noteOff State.reset = some Envelope.reset := by decide +kernel
/-- Vectors NC8 and NC10. -/
theorem test_isActive :
    seen .isActive State.reset = some (.idle, 0#64, some (.active false)) ∧
    seen .isActive (machineWith (p1 .release 0x3F93915992D5D9AE#64)) =
      some (.release, 0x3F93915992D5D9AE#64, some (.active true)) := by decide +kernel
/-- Vectors Q1, Q2, Q3, P1 (the last sample of each stage) and Q9. -/
theorem test_process_arms :
    [seen .process State.reset,
     seen .process (machineWith (p1 .attack 0x3F5F94BA2F0C9A00#64)),
     seen .process (machineWith (p1 .attack 0x3FEFADF2E84BB7D5#64)),
     seen .process (machineWith (p1 .decay1 0x3FE00833447CC8E8#64)),
     seen .process (machineWith (p1 .decay2 0x3FD01068CFE1381A#64)),
     seen .process (machineWith (p1 .sustain 0x3FD01060B6FA699E#64)),
     seen .process (machineWith (p1 .release 0x3F5068D2338341F9#64))] =
    [some (.idle, 0#64, some (.level 0#64)),
     some (.attack, 0x3F6F8CEF780E3448#64, some (.level 0x3F6F8CEF780E3448#64)),
     some (.decay1, 0x3FEFAE1B65502C58#64, some (.level 0x3FEFAE1B65502C58#64)),
     some (.decay2, 0x3FE0082F38993310#64, some (.level 0x3FE0082F38993310#64)),
     some (.sustain, 0x3FD01060B6FA699E#64, some (.level 0x3FD01060B6FA699E#64)),
     some (.sustain, 0x3FD01060B6FA699E#64, some (.level 0x3FD01060B6FA699E#64)),
     some (.idle, 0#64, some (.level 0#64))] := by decide +kernel
/-- Vectors Q11 (TRACK_L3), Q14 (a lowered target), Q21 (unprogrammed) and Q23 (Release needs only
the coefficients). -/
theorem test_process_corners :
    seen .process { machineWith (p1 .sustain 0x3FD01060B6FA699E#64) with
      cfg := { Config.default with sustainMode := .trackL3 } } =
      some (.sustain, 0x3FD0000000000000#64, some (.level 0x3FD0000000000000#64)) ∧
    seen .process (machineWith { p1 .attack 0x3FC675C75D0EE895#64 with
      lvl := ⟨0x3FB999999999999A#64, 0x3FE0000000000000#64, 0x3FD0000000000000#64, 0#64⟩ }) =
      some (.decay1, 0x3FC6710310D368C4#64, some (.level 0x3FC6710310D368C4#64)) ∧
    seen .process (machineWith { Envelope.reset with stage := .attack }) = none ∧
    seen .process (machineWith { p1 .release 0#64 with lvlMark := .unset }) =
      some (.idle, 0#64, some (.level 0#64)) := by decide +kernel

/-! The ports, a run and the environment. -/

/-- Two commands in one presentation: the second stays first in the stream (log 12). -/
theorem test_take_leaves_rest :
    ({ State.reset with stream := [⟨k32, false, [4#64, 6#64]⟩] }).take =
    .command .noteOn { State.reset with sel := k32, stream := [⟨k32, false, [6#64]⟩] } := by
  decide +kernel
/-- Program P5a: the fault is marked with its position, and the run keeps the state. -/
theorem test_run_p5a :
    ((Run.start { State.reset with stream :=
      [⟨k32, false, [7#64]⟩, ⟨k32, false, [6#64]⟩, ⟨k32, false, [4#64]⟩, ⟨k32, false, [6#64]⟩] }).steps
        4).faults = [⟨3, k32, .unprogrammedRead .attack⟩] := by decide +kernel
/-- 20_memory R48: address 412 is RATE[3] of operator 3, 523 is LVL[4] of operator 4, 105 is none. -/
theorem test_paramTarget :
    paramTarget 412 = some (.rate 3 2) ∧ paramTarget 523 = some (.level 4 3) ∧
    paramTarget 105 = none := by decide
/-- 00_scope R10: after the fault of P5a nothing more is shown of the instance, and the responses of
another one are. -/
theorem test_run_shows_no_further :
    let r := (Run.start { State.reset with stream :=
      [⟨k32, false, [7#64]⟩, ⟨k32, false, [4#64]⟩, ⟨k32, false, [6#64]⟩, ⟨k32, false, [7#64]⟩,
       ⟨⟨15, 5⟩, false, [7#64]⟩] }).steps 5
    r.shownAt k32 = [.active false] ∧ r.shownAt ⟨15, 5⟩ = [.active false] := by decide +kernel
/-- 41_note_control R99: at reset no Voice is processed; with one envelope of Voice 3 in Attack, its
six are, and the next note goes to Voice 0. -/
theorem test_voices :
    let view : EnvView := ⟨[], Vector.replicate 6 Quad.zero, Vector.replicate 6 Quad.zero⟩
    let s := machineWith (p1 .attack 0#64)
    expand view s (.voiceProcess 0) = [] ∧
    expand view s (.voiceProcess 3) = [(⟨3, 0⟩, .process), (⟨3, 1⟩, .process), (⟨3, 2⟩, .process),
      (⟨3, 3⟩, .process), (⟨3, 4⟩, .process), (⟨3, 5⟩, .process)] ∧
    s.allocatedVoice = 0 ∧ (expand view s .allNotesOff).length = 96 := by decide +kernel
/-- 00_scope R8, 92_eei_decisions D33: the Operator passes its setters through unclamped. -/
theorem test_operator_setters :
    let view : EnvView := ⟨[], Vector.replicate 6 Quad.zero, Vector.replicate 6 Quad.zero⟩
    expand view State.reset (.operatorRates k32 ⟨0x4059000000000000#64, 0#64, 0#64, 0#64⟩) =
      [(k32, .setRates 0x4059000000000000#64 0#64 0#64 0#64)] ∧
    expand view State.reset (.operatorSampleRate k32 0x40E7700000000000#64) =
      [(k32, .setSampleRate 0x40E7700000000000#64)] := by decide +kernel
/-- Vectors EN1 to EN7 through the machine: the table's header is the next command it takes. -/
theorem test_withFetchWord :
    (State.reset.withFetchWord 64 4).take = .command .noteOn State.reset := by decide +kernel

/-! Witnesses: for each statement with hypotheses, a state and operands that meet them together. -/

/-- The P1 setup with the coefficients that the machine itself derives. -/
def derivedP1 (stage : Stage) (level : Word) : Envelope :=
  { p1 stage level with
    coef := (p1 stage level).rate.map (coefOf Config.default 0x40E7700000000000#64) }

/-- A machine with a command, or several, presented at one instance. -/
def presented (e : Envelope) (reset : Bool) (ws : List Word) : State :=
  { machineWith e with stream := [⟨k32, reset, ws⟩] }

theorem witness_ResetInputTakesPrecedence :
    (presented (p1 .attack 0#64) true [4#64]).stream = ⟨k32, true, [4#64]⟩ :: [] ∧
    (presented (p1 .attack 0#64) true [4#64]).has k32 = true := ⟨rfl, rfl⟩

theorem witness_IdlePortHasNoEffect :
    (presented (p1 .attack 0#64) false []).stream = ⟨k32, false, []⟩ :: [] ∧
    State.reset.stream = [] := ⟨rfl, rfl⟩

theorem witness_StepRunsDecodedCommand :
    (presented (p1 .attack 0#64) false [3#64, 0#64, 6#64]).stream =
      ⟨k32, false, [3#64, 0#64, 6#64]⟩ :: [] ∧
    (presented (p1 .attack 0#64) false [3#64, 0#64, 6#64]).has k32 = true ∧
    decode [3#64, 0#64, 6#64] = .ok (.setSampleRate 0#64, [6#64]) := by decide

theorem witness_ReservedHeadersAreRefused :
    (headerRsv 0x8000000000000004#64 ≠ 0) ∧
    (headerRsv 0x0000000000000000#64 = 0 ∧ headerOp 0x0000000000000000#64 = 0) ∧
    (headerRsv 0x0000000000000008#64 = 0 ∧ 8 ≤ (headerOp 0x0000000000000008#64).toNat) ∧
    (Run.start (presented (p1 .attack 0#64) false [8#64])).state.has k32 = true ∧
    (Run.start (presented (p1 .attack 0#64) false [8#64])).state.stream =
      ⟨k32, false, [8#64]⟩ :: [] := by decide

theorem witness_OpcodeAloneFixesLength :
    headerRsv 0x0000000000000003#64 = 0 ∧ payloadWords (headerOp 0x0000000000000003#64) = some 1 ∧
    1 ≤ [0#64].length ∧ ([] : List Word).length < 1 ∧
    headerRsv 0x0000000000000001#64 = 0 ∧ payloadWords (headerOp 0x0000000000000001#64) = some 4 ∧
    4 ≤ [0#64, 0#64, 0#64, 0#64].length ∧ [0#64, 0#64, 0#64].length < 4 := by decide

/-- The bounds of each domain, and a value outside it on each side. -/
theorem witness_operand_domains :
    (Quad.mk 0#64 0x8000000000000000#64 0x4058C00000000000#64 0x4058A00000000000#64).all
      (rateInDomain (machineWith (p1 .attack 0#64)).cfg) = true ∧
    rateInDomain State.reset.cfg 0x4058C00000000001#64 = false ∧
    (Quad.mk 0#64 0x8000000000000000#64 0x3FF0000000000000#64 0x3FE0000000000000#64).all
      (levelInDomain (machineWith (p1 .attack 0#64)).cfg) = true ∧
    levelInDomain State.reset.cfg 0x8000000000000001#64 = false ∧
    sampleRateInDomain State.reset.cfg 0x40BF400000000000#64 = true ∧
    sampleRateInDomain State.reset.cfg 0x4117700000000000#64 = true ∧
    sampleRateInDomain State.reset.cfg 0x4117700000000001#64 = false ∧
    Config.default.fmt = .binary64 := by decide +kernel

theorem witness_ConfigurationCommandFrame :
    ∃ t, exec (.setLevels 0#64 0#64 0#64 0#64) (machineWith (p1 .attack 0#64)) = .next t :=
  ⟨_, exec_of_wellFormed (by decide +kernel) (fun h => by cases h)⟩

theorem witness_CommandsButProcessAreIdempotent :
    ∃ t, exec (.setRates 0#64 0#64 0#64 0#64) (machineWith (p1 .attack 0#64)) = .next t :=
  ⟨_, exec_of_wellFormed (by decide +kernel) (fun h => by cases h)⟩

theorem witness_GateCommandFrame :
    (∃ t, exec .noteOn (machineWith (p1 .sustain 0x3FD01060B6FA699E#64)) = .next t) ∧
    ∃ t, exec .isActive (machineWith (p1 .sustain 0x3FD01060B6FA699E#64)) = .next t :=
  ⟨⟨_, rfl⟩, ⟨_, rfl⟩⟩

theorem witness_NoteOffReleasesUnlessIdle :
    ((machineWith (p1 .decay1 Word.one)).inst k32).stage ≠ .idle ∧
    (State.reset.inst State.reset.sel).stage = .idle ∧
    ((machineWith (p1 .release Word.one)).inst k32).stage = .release := by decide +kernel

theorem witness_NoteOnNoteOffProcessIsIdle :
    (machineWith (p1 .sustain Word.one)).cfg.releaseTarget = .zero ∧
    flt Word.zero (machineWith (p1 .sustain Word.one)).cfg.kFloor = true ∧
    ((machineWith (p1 .sustain Word.one)).inst k32).coefMark = .written ∧
    isFinite ((machineWith (p1 .sustain Word.one)).inst k32).coef.v4 = true := by decide +kernel

theorem witness_ProcessInIdleChangesNothing :
    ((machineWith (p1 .idle 0#64)).inst k32).stage = .idle ∧
    ((machineWith (p1 .idle 0#64)).inst k32).Silent := by decide +kernel

/-- For ProcessInAttack, ProcessInDecay1 and ProcessInDecay2, whose level is given by an equation. -/
theorem witness_process_arms :
    ((machineWith (p1 .attack 0#64)).inst k32).stage = .attack ∧
    ((machineWith (p1 .decay1 Word.one)).inst k32).stage = .decay1 ∧
    ((machineWith (p1 .decay2 Word.one)).inst k32).stage = .decay2 ∧
    ((machineWith (p1 .attack 0#64)).inst k32).coefMark = .written ∧
    ((machineWith (p1 .attack 0#64)).inst k32).lvlMark = .written ∧
    ((machineWith { p1 .attack 0#64 with lvl := Quad.zero }).inst k32).lvl.v1 = Word.zero ∧
    ((machineWith { p1 .attack 0#64 with lvl := Quad.zero }).inst k32).level = Word.zero ∧
    isFinite ((machineWith { p1 .attack 0#64 with lvl := Quad.zero }).inst k32).coef.v1 = true ∧
    isFinite State.reset.cfg.kAttack = true := by decide +kernel

theorem witness_ProcessInSustain :
    ((machineWith (p1 .sustain Word.one)).inst k32).stage = .sustain ∧
    (machineWith (p1 .sustain Word.one)).cfg.sustainMode = .freeze ∧
    ((machineWith (p1 .sustain Word.one)).inst k32).lvlMark = .written ∧
    ({ machineWith (p1 .sustain Word.one) with
      cfg := { Config.default with sustainMode := .trackL3 } }).cfg.sustainMode = .trackL3 := by
  decide +kernel

theorem witness_ProcessInRelease :
    ((machineWith (p1 .release Word.one)).inst k32).stage = .release ∧
    ((machineWith (p1 .release Word.one)).inst k32).coefMark = .written ∧
    (machineWith (p1 .release Word.one)).cfg.releaseTarget = .zero ∧
    ((machineWith (p1 .release Word.one)).inst k32).lvlMark = .written ∧
    ({ machineWith (p1 .release Word.one) with
      cfg := { Config.default with releaseTarget := .level4 } }).cfg.releaseTarget = .level4 := by
  decide +kernel

theorem witness_ProcessFrameAndResponse :
    ∃ t, exec .process (machineWith (p1 .attack 0#64)) = .next t :=
  ⟨_, exec_of_wellFormed (by decide +kernel) (fun _ => by decide +kernel)⟩

theorem witness_StepTouchesOneInstance :
    (∃ t, step (presented (p1 .attack 0#64) false [5#64]) = .next t) ∧
    (presented (p1 .attack 0#64) false [5#64]).Sized := by
  refine ⟨⟨_, rfl⟩, ?_⟩
  unfold State.Sized
  decide +kernel

/-- The refusal clause of StepTouchesOneInstance: the first name past the 96 instances, and the last
one among them. -/
theorem witness_StepTouchesOneInstance_refusal :
    State.reset.has ⟨16, 0⟩ = false ∧ State.reset.has ⟨15, 5⟩ = true ∧
    ({ State.reset with stream := [⟨⟨16, 0⟩, false, [4#64]⟩] }).stream =
      ⟨⟨16, 0⟩, false, [4#64]⟩ :: [] ∧ ([4#64] : List Word) ≠ [] := by decide +kernel

theorem witness_InstancesShareNoState :
    (machineWith (p1 .attack 0#64)).cfg =
      ({ State.reset with sel := ⟨0, 1⟩ }.putInst ⟨0, 1⟩ (p1 .attack 0#64)).cfg ∧
    (machineWith (p1 .attack 0#64)).inst k32 =
      ({ State.reset with sel := ⟨0, 1⟩ }.putInst ⟨0, 1⟩ (p1 .attack 0#64)).inst ⟨0, 1⟩ ∧
    ∃ t, exec .noteOff (machineWith (p1 .attack 0#64)) = .next t :=
  ⟨rfl, by decide +kernel, ⟨_, rfl⟩⟩

/-- For StageChangesOnlyByTheTable and ActiveFlagChanges: a note-on in Idle changes both. -/
theorem witness_stage_and_flag_change :
    ∃ t, step (presented (p1 .idle 0#64) false [4#64]) = .next t ∧
      (t.inst k32).stage ≠ ((presented (p1 .idle 0#64) false [4#64]).inst k32).stage ∧
      (t.inst k32).active ≠ ((presented (p1 .idle 0#64) false [4#64]).inst k32).active :=
  ⟨_, rfl, by decide +kernel, by decide +kernel⟩

/-- StageChangesOnlyByTheTable by a process, the last sample of P1's Attack, and by a reset. -/
theorem witness_stage_change_by_process_and_reset :
    (∃ t, step (presented (p1 .attack 0x3FEFADF2E84BB7D5#64) false [6#64]) = .next t ∧
      (t.inst k32).stage ≠
        ((presented (p1 .attack 0x3FEFADF2E84BB7D5#64) false [6#64]).inst k32).stage) ∧
    ∃ t, step (presented (p1 .attack 0#64) true []) = .next t ∧
      (t.inst k32).stage ≠ ((presented (p1 .attack 0#64) true []).inst k32).stage :=
  ⟨⟨_, rfl, by decide +kernel⟩, ⟨_, rfl, by decide +kernel⟩⟩

/-- The machine of the invariants' witnesses: one instance programmed and in Attack, a process
presented to it. -/
def sounding : State := presented (derivedP1 .attack 0#64) false [6#64]

theorem sounding_inst (k : InstId) :
    sounding.inst k = if k = k32 then derivedP1 .attack 0#64 else Envelope.reset := by
  have : sounding.inst k = (machineWith (derivedP1 .attack 0#64)).inst k := rfl
  rw [this, machineWith, inst_putInst]
  split
  · rfl
  · exact inst_reset k

theorem sounding_steps : ∃ t, step sounding = .next t := ⟨_, rfl⟩

theorem witness_IdleIsSilent : sounding.Every Envelope.Silent ∧ ∃ t, step sounding = .next t := by
  refine ⟨fun k => ?_, sounding_steps⟩
  rw [sounding_inst]
  split
  · exact fun h => by cases h
  · exact fun _ => rfl

/-- The clause of IdleIsSilent on entering Idle: the last sample of P1's Release. -/
theorem witness_IdleIsSilent_entering :
    ∃ t, step (presented (p1 .release 0x3F5068D2338341F9#64) false [6#64]) = .next t ∧
      ((presented (p1 .release 0x3F5068D2338341F9#64) false [6#64]).inst k32).stage ≠ .idle ∧
      (t.inst k32).stage = .idle :=
  ⟨_, rfl, by decide +kernel, by decide +kernel⟩

theorem derivedP1_inDomains : (derivedP1 .attack 0#64).InDomains Config.default := by
  refine ⟨fun _ => ?_, fun _ => ?_, fun _ => ?_⟩
  · show (p1 .attack 0#64).rate.all (rateInDomain Config.default) = true
    decide +kernel
  · show (p1 .attack 0#64).lvl.all (levelInDomain Config.default) = true
    decide +kernel
  · show sampleRateInDomain Config.default 0x40E7700000000000#64 = true
    decide +kernel

theorem reset_inDomains (cfg : Config) : Envelope.reset.InDomains cfg := by
  simp [Envelope.InDomains, Envelope.reset]

theorem reset_derived (cfg : Config) : Envelope.reset.Derived cfg := by
  simp [Envelope.Derived, Envelope.reset]

theorem derivedP1_derived : (derivedP1 .attack 0#64).Derived Config.default := by
  unfold Envelope.Derived
  exact ⟨⟨fun _ => ⟨rfl, rfl⟩, fun _ => rfl⟩, fun _ => rfl⟩

theorem witness_CoefficientsStayDerived :
    sounding.Every (Envelope.Derived sounding.cfg) ∧ ∃ t, step sounding = .next t := by
  refine ⟨fun k => ?_, sounding_steps⟩
  rw [sounding_inst]
  split
  · exact derivedP1_derived
  · exact reset_derived _

theorem witness_ProgrammingStaysInDomain :
    sounding.cfg.fmt = .binary64 ∧ sounding.Every (Envelope.InDomains sounding.cfg) ∧
      ∃ t, step sounding = .next t := by
  refine ⟨rfl, fun k => ?_, sounding_steps⟩
  rw [sounding_inst]
  split
  · exact derivedP1_inDomains
  · exact reset_inDomains _

theorem default_admitted : Config.default.Admitted :=
  ⟨rfl, rfl, rfl, rfl, rfl, rfl, rfl, rfl, rfl⟩

theorem witness_LevelStaysInUnitInterval : sounding.LevelInv ∧ ∃ t, step sounding = .next t := by
  refine ⟨⟨default_admitted, fun k => ?_⟩, sounding_steps⟩
  rw [sounding_inst]
  split
  · exact ⟨derivedP1_derived, derivedP1_inDomains, by decide +kernel⟩
  · exact ⟨reset_derived _, reset_inDomains _, by decide +kernel⟩

theorem witness_OperationsRoundToNearest :
    isFinite 0x3FF0000000000000#64 = true ∧ isFinite 0x4008000000000000#64 = true ∧
    isFinite (fdiv .binary64 0x3FF0000000000000#64 0x4008000000000000#64) = true ∧
    isFinite (fadd .binary64 0x3FF0000000000000#64 0x4008000000000000#64) = true ∧
    isFinite (fsub .binary64 0x3FF0000000000000#64 0x4008000000000000#64) = true ∧
    isFinite (fmul .binary64 0x3FF0000000000000#64 0x4008000000000000#64) = true ∧
    unpack 0x4008000000000000#64 ≠ .fin false 0 := by decide +kernel

/-- For ExpRange, ExpMonotone and ExpWithinOneUlp: -7.0, -0.01, -0.0 and 0.0 (-0.01 is in the range
of E2). -/
theorem witness_exp_arguments :
    ExpArgument 0xC01C000000000000#64 (7 * unitsPerOne) ∧
    ExpArgument 0xBF847AE147AE147B#64 (5764607523034235 * 2 ^ 1015) ∧
    2 * unitsPerOne ≤ 5764607523034235 * 2 ^ 1015 * 10 ^ 7 ∧
    5764607523034235 * 2 ^ 1015 * 10 ^ 4 ≤ 125 * unitsPerOne ∧
    ExpArgument 0x8000000000000000#64 0 ∧ ExpArgument 0x0000000000000000#64 0 := by
  unfold ExpArgument
  decide +kernel

/-- For CoefficientRange and CoefficientMonotone: the four corners of the admitted domain. -/
theorem witness_coefficient_domain :
    Config.default.Admitted ∧
    rateInDomain Config.default 0#64 = true ∧
    rateInDomain Config.default 0x4058C00000000000#64 = true ∧
    sampleRateInDomain Config.default 0x40BF400000000000#64 = true ∧
    sampleRateInDomain Config.default 0x4117700000000000#64 = true ∧
    fle 0#64 0x4058C00000000000#64 = true ∧
    fle 0x40BF400000000000#64 0x4117700000000000#64 = true :=
  ⟨default_admitted, by decide +kernel⟩

theorem witness_ApproachNeverOvershoots :
    inUnit 0#64 = true ∧ inUnit 0x3FF0000000000000#64 = true ∧
    flt Word.zero 0x3FDF5C28F5C28F5C#64 = true ∧
    fle 0x3FDF5C28F5C28F5C#64 0x3FDF5C28F5C28F5C#64 = true ∧
    fle 0#64 0x3FF0000000000000#64 = true ∧ fle 0x3FF0000000000000#64 0#64 = false := by
  decide +kernel

/-- For DecayWithinEpsLastsOneSample, DecaysEnd, AttackEnds and ReleaseReachesIdle: the P1 setup at
levels of each stage. -/
theorem witness_stage_ends :
    (machineWith (p1 .decay1 0x3FE0082F38993310#64)).cfg.fmt = .binary64 ∧
    inUnit 0x3FE0082F38993310#64 = true ∧ inUnit 0x3FD01060B6FA699E#64 = true ∧
    inUnit (p1 .decay1 0x3FE0082F38993310#64).lvl.v2 = true ∧
    inUnit (p1 .decay1 0x3FE0082F38993310#64).lvl.v3 = true ∧
    inUnit (p1 .attack 0#64).lvl.v1 = true ∧
    inCoefRange (p1 .attack 0#64).coef.v1 = true ∧
    inCoefRange (p1 .decay1 0x3FE0082F38993310#64).coef.v2 = true ∧
    inCoefRange (p1 .decay2 0x3FD01060B6FA699E#64).coef.v3 = true ∧
    inCoefRange (p1 .release Word.one).coef.v4 = true ∧
    flt (fabs (fsub .binary64 0x3FE0082F38993310#64
      (p1 .decay1 0x3FE0082F38993310#64).lvl.v2)) Config.default.kEps = true ∧
    flt (fabs (fsub .binary64 0x3FD01060B6FA699E#64
      (p1 .decay2 0x3FD01060B6FA699E#64).lvl.v3)) Config.default.kEps = true := by
  decide +kernel

/-- The first target of the P1 setup is 1.0, which AttackEnds admits; so is zero. -/
theorem witness_AttackEnds_target :
    1 / 2 ^ 1000 ≤ valueOf (p1 .attack 0#64).lvl.v1 ∧ valueOf Word.zero = 0 := by
  have h : unpack (p1 .attack 0#64).lvl.v1 = .fin false unitsPerOne := by decide +kernel
  have h0 : unpack Word.zero = .fin false 0 := by decide +kernel
  have hu : (unitsPerOne : ℚ) ≠ 0 := by exact_mod_cast unitsPerOne_pos.ne'
  have hle : ∀ n : Nat, (1 : ℚ) / 2 ^ n ≤ 1 := fun n =>
    (div_le_one (by positivity)).2 (one_le_pow₀ (by norm_num))
  have hv : valueOf (p1 .attack 0#64).lvl.v1 = 1 := by
    unfold valueOf
    rw [h]
    exact div_self hu
  refine ⟨hv ▸ hle 1000, ?_⟩
  unfold valueOf
  rw [h0]
  exact zero_div _

theorem witness_TinyAttackTargetHangs :
    (machineWith { p1 .attack 0#64 with
      coef := ⟨0x3E9179EC76A00000#64, 0#64, 0#64, 0#64⟩
      lvl := ⟨0x00000000000007E8#64, 0#64, 0#64, 0#64⟩ }).inst k32 =
    { p1 .attack 0#64 with
      coef := ⟨0x3E9179EC76A00000#64, 0#64, 0#64, 0#64⟩
      lvl := ⟨0x00000000000007E8#64, 0#64, 0#64, 0#64⟩ } := inst_putInst_same _ _ _

theorem witness_Binary32AttackStalls :
    ({ machineWith { p1 .attack 0x3FEF8AF8C0000000#64 with
      coef := ⟨0x3EC1800000000000#64, 0#64, 0#64, 0#64⟩ } with
      cfg := { Config.default with fmt := .binary32 } }).inst k32 =
    { p1 .attack 0x3FEF8AF8C0000000#64 with
      coef := ⟨0x3EC1800000000000#64, 0#64, 0#64, 0#64⟩ } :=
  (inst_update_cfg _ _ _).trans (inst_putInst_same _ _ _)

/-- A reserved header, a refused operand, a faulting process and an accepted command, and a run whose instance has a
mark. -/
theorem witness_MarksAreKeptForGood :
    step (presented (p1 .attack 0#64) false [0#64]) = .refused .reservedOpcode ∧
    (Run.start (presented (p1 .attack 0#64) false [3#64, 0#64])).advance.refusals =
      [⟨0, k32, .sampleRateOutOfDomain⟩] ∧
    step (presented { Envelope.reset with stage := .attack } false [6#64]) =
      .fault (.unprogrammedRead .attack) ∧
    (∃ t, step (presented (p1 .attack 0#64) false [5#64]) = .next t) ∧
    (Run.start (presented (p1 .attack 0#64) false [0#64])).advance.refusals ≠ [] ∧
    (Run.start (presented (p1 .attack 0#64) false [0#64])).advance.marked k32 = true := by
  exact ⟨rfl, by decide +kernel, rfl, ⟨_, rfl⟩, by decide +kernel, by decide +kernel⟩

/-- FanOutReachesEveryVoice: operands below, above and inside the domains, operator indices at the
ends of [0, 5], and a note-on and a process for NoteOnAllocatesFirstFreeVoice. -/
theorem witness_FanOutReachesEveryVoice :
    State.reset.cfg = { Config.default with nInst := 96 } ∧
    flt 0xC059000000000000#64 Config.default.rateMin = true ∧
    flt Config.default.rateMax 0x4059000000000000#64 = true ∧
    clampOperator (-1) = 0 ∧ clampOperator 0 = 0 ∧ clampOperator 5 = 5 ∧ clampOperator 6 = 5 ∧
    (Quad.mk 0xC059000000000000#64 0x4059000000000000#64 0#64 0x3FF0000000000000#64).all isFinite =
      true ∧
    (Quad.mk 0#64 0#64 0x3FF0000000000000#64 0x3FE0000000000000#64).all
      (rateInDomain State.reset.cfg) = true ∧
    (Quad.mk 0#64 0#64 0x3FF0000000000000#64 0x3FE0000000000000#64).all
      (levelInDomain State.reset.cfg) = true := by decide +kernel

end Sys2Proof.Tests
end

/-!
SUPPORT and PROOFS. 00_scope: what a step can reach (R7), and the error of the arithmetic (R13).
-/

namespace Sys2Proof.Machine

/-! What a step does, tied to the presentation it takes. -/

/-- The state once the command `i` has been performed at `k`, the stream being `stream` after it. -/
def State.performed (s : State) (k : InstId) (i : Instr) (stream : List Input) : State :=
  { s with sel := k, stream := stream }.finish ((s.inst k).after s.cfg i) ((s.inst k).answer s.cfg i)

@[simp] theorem performed_cfg (s : State) (k : InstId) (i : Instr) (l : List Input) :
    (s.performed k i l).cfg = s.cfg := rfl
@[simp] theorem performed_sel (s : State) (k : InstId) (i : Instr) (l : List Input) :
    (s.performed k i l).sel = k := rfl
@[simp] theorem performed_response (s : State) (k : InstId) (i : Instr) (l : List Input) :
    (s.performed k i l).response = (s.inst k).answer s.cfg i := rfl

theorem performed_inst (s : State) (k : InstId) (i : Instr) (l : List Input) (j : InstId) :
    (s.performed k i l).inst j = if j = k then (s.inst k).after s.cfg i else s.inst j :=
  finish_inst _ _ _ j

/-- A step that answers finds an empty stream, or takes the first presentation: an idle one, a
reset, or one with a command, performed at the name presented to. -/
theorem step_next_stream {s t : State} (h : step s = .next t) :
    (s.stream = [] ∧ t = s) ∨
    ∃ inp rest, s.stream = inp :: rest ∧
      ((inp.reset = false ∧ inp.words = [] ∧ t = { s with stream := rest }) ∨
       (s.has inp.inst = true ∧ inp.reset = true ∧
         t = { s with stream := rest }.resetInst inp.inst) ∨
       (s.has inp.inst = true ∧ inp.reset = false ∧ ∃ i left, decode inp.words = .ok (i, left) ∧
         i.wellFormed s.cfg = true ∧
         (i = .process → (s.inst inp.inst).programmed s.cfg = true) ∧
         t = s.performed inp.inst i (streamAfter inp left rest))) := by
  unfold step at h
  obtain ⟨hs, ht⟩ | ⟨inp, rest, hs, hh, hr, ht⟩ | ⟨inp, rest, hs, hr, hw, ht⟩ |
    ⟨inp, rest, i, left, hs, hh, hr, hd, ht⟩ | ⟨inp, rest, e, -, -, ht⟩ := take_cases s <;>
    rw [ht] at h
  · cases h; exact .inl ⟨hs, rfl⟩
  · cases h; exact .inr ⟨inp, rest, hs, .inr (.inl ⟨hh, hr, rfl⟩)⟩
  · cases h; exact .inr ⟨inp, rest, hs, .inl ⟨hr, hw, rfl⟩⟩
  · obtain ⟨hw, hp, rfl⟩ := exec_next h
    exact .inr ⟨inp, rest, hs, .inr (.inr ⟨hh, hr, i, left, hd, hw, hp, rfl⟩)⟩
  · cases h

theorem step_keeps_cfg {s t : State} (h : step s = .next t) : t.cfg = s.cfg := (step_next h).1

theorem step_of_empty_stream {s t : State} (h : step s = .next t) (hs : s.stream = []) : t = s := by
  obtain ⟨-, rfl⟩ | ⟨inp, rest, hs', -⟩ := step_next_stream h
  · rfl
  · rw [hs] at hs'; cases hs'

/-- A step leaves every envelope alone but the one presented to. -/
theorem step_inst_other {s t : State} {inp : Input} {rest : List Input} {k : InstId}
    (h : step s = .next t) (hs : s.stream = inp :: rest) (hk : k ≠ inp.inst) :
    t.inst k = s.inst k := by
  obtain ⟨hs', -⟩ | ⟨inp', rest', hs', hc⟩ := step_next_stream h <;> rw [hs] at hs'
  · cases hs'
  · cases hs'
    obtain ⟨-, -, rfl⟩ | ⟨-, -, rfl⟩ | ⟨-, -, i, left, -, -, -, rfl⟩ := hc
    · rfl
    · rw [resetInst_inst, if_neg hk]; rfl
    · rw [performed_inst, if_neg hk]

/-- A step writes only at a name that the configuration gives, so the list of instances neither
grows nor shrinks. -/
theorem step_keeps_sized {s t : State} (h : step s = .next t) (hz : s.Sized) : t.Sized := by
  obtain ⟨hlen, hsel⟩ := hz
  have length_put (j : InstId) (e : Envelope) (hj : s.has j = true) :
      (s.putInst j e).insts.length = s.insts.length :=
    length_putInst s e (by rw [hlen]; exact of_decide_eq_true hj)
  have hcfg := step_keeps_cfg h
  unfold State.Sized State.has
  rw [hcfg]
  obtain ⟨-, ⟨hi, hl⟩ | ⟨j, hj, hi, hl⟩ | ⟨j, i, hj, -, -, hi, hl⟩⟩ := step_next h <;> rw [hi, hl]
  · exact ⟨hlen, hsel⟩
  · exact ⟨(length_put j _ hj).trans hlen, hsel⟩
  · exact ⟨(length_put j _ hj).trans hlen, hj⟩

/-- What is presented at a name that `N_INST` does not give is refused, unless the port is idle
(log 21). -/
theorem step_noSuchInstance {s : State} {inp : Input} {rest : List Input}
    (hs : s.stream = inp :: rest) (hh : s.has inp.inst = false)
    (hne : inp.reset = true ∨ inp.words ≠ []) : step s = .refused .noSuchInstance := by
  have hidle : ¬(inp.reset = false ∧ inp.words = []) := by
    rintro ⟨hr, hw⟩
    simp [hr, hw] at hne
  have ht : s.take = .refused .noSuchInstance inp.inst { s with stream := rest, response := none } := by
    simp only [State.take, hs, if_neg hidle, if_pos hh]
  simp only [step, ht]

/-! The values of patterns. -/

/-- The sign of a value as a factor. -/
def signFactor (neg : Bool) : ℚ := if neg then -1 else 1

@[simp] theorem abs_signFactor (neg : Bool) : |signFactor neg| = 1 := by
  cases neg <;> simp [signFactor]

theorem signFactor_ne_zero (neg : Bool) : signFactor neg ≠ 0 := by
  cases neg <;> simp [signFactor]

theorem signFactor_not (neg : Bool) : signFactor (!neg) = -signFactor neg := by
  cases neg <;> simp [signFactor]

/-- Signs multiply, and divide, as they differ. -/
theorem signFactor_bne (a b : Bool) : signFactor (a != b) = signFactor a * signFactor b := by
  cases a <;> cases b <;> simp [signFactor]

theorem signFactor_bne_div (a b : Bool) : signFactor (a != b) = signFactor a / signFactor b := by
  cases a <;> cases b <;> simp [signFactor]

theorem signedMag_cast (neg : Bool) (m : Nat) : (signedMag neg m : ℚ) = signFactor neg * m := by
  cases neg <;> simp [signedMag, signFactor]

theorem signFactor_mul_natAbs (x : Int) : signFactor (decide (x < 0)) * x.natAbs = x := by
  rw [Nat.cast_natAbs]
  rcases lt_or_ge x 0 with h | h
  · simp [signFactor, h, abs_of_neg h]
  · simp [signFactor, not_lt.2 h, abs_of_nonneg h]

theorem unitsPerOne_cast_ne_zero : (unitsPerOne : ℚ) ≠ 0 := by exact_mod_cast unitsPerOne_pos.ne'

theorem isFinite_iff {w : Word} : isFinite w = true ↔ ∃ neg m, unpack w = .fin neg m := by
  unfold isFinite
  cases unpack w <;> simp

theorem valueOf_of_unpack {w : Word} {neg : Bool} {m : Nat} (h : unpack w = .fin neg m) :
    valueOf w = signFactor neg * m / unitsPerOne := by
  simp only [valueOf, h, signedMag_cast]

theorem valueOf_pack (neg : Bool) {m : Nat} (h : IsValue .binary64 m) :
    valueOf (pack neg m) = signFactor neg * m / unitsPerOne :=
  valueOf_of_unpack (unpack_pack neg h)

theorem valueOf_of_unpack_zero {w : Word} {neg : Bool} (h : unpack w = .fin neg 0) :
    valueOf w = 0 := by
  rw [valueOf_of_unpack h, Nat.cast_zero, mul_zero, zero_div]

theorem valueOf_pack_zero (neg : Bool) : valueOf (pack neg 0) = 0 :=
  valueOf_of_unpack_zero (unpack_pack neg ⟨by decide +kernel, dvd_zero _⟩)

theorem infinity_not_finite (neg : Bool) : isFinite (infinity neg) = false := by
  cases neg <;> decide +kernel

/-- Negation flips the sign bit and keeps the exponent and the fraction. -/
theorem unpack_fneg {w : Word} {neg : Bool} {m : Nat} (h : unpack w = .fin neg m) :
    unpack (fneg w) = .fin (!neg) m := by
  have he : expField (fneg w) = expField w := by
    have h0 : BitVec.toNat 0x8000000000000000#64 / 2 ^ 52 % 2 ^ 11 = 0 := by decide
    rw [expField, fneg, BitVec.toNat_xor, Nat.xor_div_two_pow, Nat.xor_mod_two_pow, h0,
      Nat.xor_zero, expField]
  have hf : fracField (fneg w) = fracField w := by
    have h0 : BitVec.toNat 0x8000000000000000#64 % 2 ^ 52 = 0 := by decide
    rw [fracField, fneg, BitVec.toNat_xor, Nat.xor_mod_two_pow, h0, Nat.xor_zero, fracField]
  have hs : (fneg w).msb = !w.msb := by
    have h1 : (0x8000000000000000#64).msb = true := by decide
    rw [fneg, BitVec.msb_xor, h1, Bool.xor_true]
  unfold unpack at h ⊢
  rw [he, hf, hs]
  split_ifs at h ⊢ <;> cases h <;> rfl

theorem isFinite_fneg {w : Word} (h : isFinite w = true) : isFinite (fneg w) = true := by
  obtain ⟨neg, m, hw⟩ := isFinite_iff.1 h
  exact isFinite_iff.2 ⟨_, _, unpack_fneg hw⟩

theorem valueOf_fneg {w : Word} (h : isFinite w = true) : valueOf (fneg w) = -valueOf w := by
  obtain ⟨neg, m, hw⟩ := isFinite_iff.1 h
  rw [valueOf_of_unpack (unpack_fneg hw), valueOf_of_unpack hw, signFactor_not]
  ring

/-! The error of one rounding, and of each operation. -/

/-- `w` stands for a value within half a binary64 gap of `x`, the gap being that at `x`. -/
def WithinHalfGap (w : Word) (x : ℚ) : Prop :=
  |valueOf w - x| * unitsPerOne * 2 ≤ gap .binary64 ⌊|x| * unitsPerOne⌋₊

/-- `roundNearest_error` over the rationals. -/
theorem abs_roundNearest_sub_le (fmt : Fmt) (n : Nat) {d : Nat} (hd : 0 < d) :
    |(roundNearest fmt n d : ℚ) - n / d| * 2 ≤ gap fmt (n / d) := by
  have hd' : (0 : ℚ) < d := by exact_mod_cast hd
  obtain ⟨hlow, hhigh⟩ := roundNearest_error fmt n d hd
  have hlow' : (2 * n : ℚ) ≤ 2 * (d * roundNearest fmt n d) + d * gap fmt (n / d) := by
    exact_mod_cast hlow
  have hhigh' : (2 * (d * roundNearest fmt n d) : ℚ) ≤ 2 * n + d * gap fmt (n / d) := by
    exact_mod_cast hhigh
  generalize (roundNearest fmt n d : ℚ) = r at *
  generalize (gap fmt (n / d) : ℚ) = g at *
  have hscale : d * |r - n / d| = |d * r - n| := by
    rw [← abs_of_pos hd', ← abs_mul, abs_of_pos hd', mul_sub, mul_div_cancel₀ _ hd'.ne']
  have hle : |d * r - n| ≤ d * g / 2 := abs_le.2 ⟨by linarith, by linarith⟩
  refine le_of_mul_le_mul_left ?_ hd'
  linarith

/-- A finite result that is packed after one rounding is within half a gap of the number rounded,
`n / d` units with the sign. -/
theorem packRounded_withinHalfGap {neg : Bool} {n d : Nat} {x : ℚ} (hd : 0 < d)
    (hx : x * unitsPerOne = signFactor neg * (n / d))
    (hfin : isFinite (packRounded .binary64 neg n d) = true) :
    WithinHalfGap (packRounded .binary64 neg n d) x := by
  have hU : (0 : ℚ) < unitsPerOne := by exact_mod_cast unitsPerOne_pos
  have habs : |x| * unitsPerOne = n / d := by
    rw [← abs_of_pos hU, ← abs_mul, hx, abs_mul, abs_signFactor, one_mul]
    exact abs_of_nonneg (div_nonneg n.cast_nonneg d.cast_nonneg)
  unfold packRounded at hfin ⊢
  dsimp only at hfin ⊢
  split at hfin
  · next ho =>
    rw [if_pos ho, WithinHalfGap, habs, Nat.floor_div_eq_div,
      valueOf_pack neg (roundNearest_isValue _ n d hd ho)]
    refine le_trans (le_of_eq ?_) (abs_roundNearest_sub_le .binary64 n hd)
    generalize (roundNearest .binary64 n d : ℚ) = r
    have hdiff : (signFactor neg * r / unitsPerOne - x) * unitsPerOne =
        signFactor neg * (r - n / d) := by
      rw [sub_mul, hx, div_mul_cancel₀ _ hU.ne']
      ring
    rw [← one_mul |r - _|, ← abs_signFactor neg, ← abs_mul, ← hdiff, abs_mul, abs_of_pos hU]
  · rw [infinity_not_finite] at hfin
    cases hfin

theorem fadd_withinHalfGap {a b : Word} (ha : isFinite a = true) (hb : isFinite b = true)
    (hfin : isFinite (fadd .binary64 a b) = true) :
    WithinHalfGap (fadd .binary64 a b) (valueOf a + valueOf b) := by
  obtain ⟨sa, ma, ha⟩ := isFinite_iff.1 ha
  obtain ⟨sb, mb, hb⟩ := isFinite_iff.1 hb
  have hx : (valueOf a + valueOf b) * unitsPerOne = (signedMag sa ma + signedMag sb mb : Int) := by
    rw [valueOf_of_unpack ha, valueOf_of_unpack hb, Int.cast_add, signedMag_cast, signedMag_cast]
    have := unitsPerOne_cast_ne_zero
    field_simp
  simp only [fadd, ha, hb] at hfin ⊢
  generalize signedMag sa ma + signedMag sb mb = x at *
  split at hfin
  · next h0 =>
    rw [h0, Int.cast_zero] at hx
    have hsum := (mul_eq_zero.1 hx).resolve_right unitsPerOne_cast_ne_zero
    rw [if_pos h0, hsum, WithinHalfGap, valueOf_pack_zero, sub_zero, abs_zero, zero_mul, zero_mul]
    exact Nat.cast_nonneg _
  · next h0 =>
    rw [if_neg h0]
    refine packRounded_withinHalfGap Nat.one_pos ?_ hfin
    rw [hx, Nat.cast_one, div_one, signFactor_mul_natAbs]

theorem fsub_withinHalfGap {a b : Word} (ha : isFinite a = true) (hb : isFinite b = true)
    (hfin : isFinite (fsub .binary64 a b) = true) :
    WithinHalfGap (fsub .binary64 a b) (valueOf a - valueOf b) := by
  have h := fadd_withinHalfGap ha (isFinite_fneg hb) hfin
  rwa [valueOf_fneg hb, ← sub_eq_add_neg] at h

theorem fmul_withinHalfGap {a b : Word} (ha : isFinite a = true) (hb : isFinite b = true)
    (hfin : isFinite (fmul .binary64 a b) = true) :
    WithinHalfGap (fmul .binary64 a b) (valueOf a * valueOf b) := by
  obtain ⟨sa, ma, ha⟩ := isFinite_iff.1 ha
  obtain ⟨sb, mb, hb⟩ := isFinite_iff.1 hb
  rw [valueOf_of_unpack ha, valueOf_of_unpack hb]
  simp only [fmul, ha, hb] at hfin ⊢
  refine packRounded_withinHalfGap unitsPerOne_pos ?_ hfin
  have := unitsPerOne_cast_ne_zero
  rw [signFactor_bne, Nat.cast_mul]
  field_simp

theorem fdiv_withinHalfGap {a b : Word} (ha : isFinite a = true) (hb : isFinite b = true)
    (hne : valueOf b ≠ 0) (hfin : isFinite (fdiv .binary64 a b) = true) :
    WithinHalfGap (fdiv .binary64 a b) (valueOf a / valueOf b) := by
  obtain ⟨sa, ma, ha⟩ := isFinite_iff.1 ha
  obtain ⟨sb, mb, hb⟩ := isFinite_iff.1 hb
  have hmb : mb ≠ 0 := by
    rintro rfl
    exact hne (valueOf_of_unpack_zero hb)
  rw [valueOf_of_unpack ha, valueOf_of_unpack hb]
  simp only [fdiv, ha, hb, if_neg hmb] at hfin ⊢
  refine packRounded_withinHalfGap (Nat.pos_of_ne_zero hmb) ?_ hfin
  have := unitsPerOne_cast_ne_zero
  have := signFactor_ne_zero sb
  rw [signFactor_bne_div, Nat.cast_mul]
  field_simp

end Sys2Proof.Machine

namespace Sys2Proof.Proofs

open Sys2Proof.Machine

/-- Settles O33: the inversion of a step ties what it writes to the name presented to. -/
theorem stepTouchesOneInstance : Obligations.StepTouchesOneInstance :=
  ⟨fun _ _ h => ⟨step_keeps_cfg h, step_of_empty_stream h, step_keeps_sized h,
      fun _ _ hs _ hk => step_inst_other h hs hk⟩,
    fun _ _ _ hs hh hne => step_noSuchInstance hs hh hne⟩

/-- Settles O34: a command finishes as `Envelope.after` and `Envelope.answer` say, which read the
configuration and the selected envelope only. -/
theorem instancesShareNoState : Obligations.InstancesShareNoState := by
  intro i s t s' hcfg hinst h
  obtain ⟨hw, hp, rfl⟩ := exec_next h
  have hcur : s.current = t.current := hinst
  rw [hcur, hcfg] at hp
  rw [hcfg] at hw
  refine ⟨_, exec_of_wellFormed hw hp, ?_, ?_⟩
  · rw [finish_inst_sel, finish_inst_sel, hcur, hcfg]
  · rw [finish_response, finish_response, hcur, hcfg]

/-- Settles O43: each operation packs its exact result after one rounding. -/
theorem operationsRoundToNearest : Obligations.OperationsRoundToNearest := by
  rintro op exact a b (⟨rfl, rfl⟩ | ⟨rfl, rfl⟩ | ⟨rfl, rfl⟩ | ⟨rfl, rfl, hne⟩) ha hb hfin
  · exact fadd_withinHalfGap ha hb hfin
  · exact fsub_withinHalfGap ha hb hfin
  · exact fmul_withinHalfGap ha hb hfin
  · exact fdiv_withinHalfGap ha hb hne hfin

/-- Settles O42: the literal of each constant, as a fraction of units, rounds to its pattern. -/
theorem defaultConstantsAreNearest : Obligations.DefaultConstantsAreNearest := by
  refine ⟨?_, ?_, ?_, ?_, ?_, ?_, ?_, ?_, ?_, ?_, ?_, rfl, rfl, rfl, rfl⟩ <;> decide +kernel

end Sys2Proof.Proofs

/-!
SUPPORT and PROOFS. 10_state: the stage graph and the active flag (R29, R36), the Idle invariant
(R35), the programming domains (R23), the outputs and the reset state (R37, R38).
-/

namespace Sys2Proof.Machine

/-! An invariant of the envelopes, kept by every step. -/

/-- A property of every envelope is kept by a step, if the reset state has it and every command that
`exec` performs keeps it. -/
theorem step_keeps_every {s t : State} {p : Envelope → Prop} (hreset : p Envelope.reset)
    (hafter : ∀ e i, i.wellFormed s.cfg = true → (i = .process → e.programmed s.cfg = true) →
      p e → p (e.after s.cfg i))
    (hs : s.Every p) (h : step s = .next t) : t.Every p := by
  intro k
  obtain hk | ⟨j, hk⟩ | ⟨j, i, hw, hp, hk⟩ := step_next_inst h <;> rw [hk k]
  · exact hs k
  · split
    · exact hreset
    · exact hs k
  · split
    · exact hafter _ i hw hp (hs j)
    · exact hs k

/-- An envelope that a step changes is the one presented to: reset, or by a command. -/
theorem step_changed {s t : State} {k : InstId} (h : step s = .next t) (hk : t.inst k ≠ s.inst k) :
    ∃ inp rest, s.stream = inp :: rest ∧ inp.inst = k ∧
      (inp.reset = true ∧ t.inst k = Envelope.reset ∨
       inp.reset = false ∧ ∃ i left, decode inp.words = .ok (i, left) ∧
         t.inst k = (s.inst k).after s.cfg i) := by
  obtain ⟨-, rfl⟩ | ⟨inp, rest, hs, hc⟩ := step_next_stream h
  · exact absurd rfl hk
  have hinst : inp.inst = k := by
    by_contra hne
    exact hk (step_inst_other h hs (Ne.symm hne))
  subst hinst
  refine ⟨inp, rest, hs, rfl, ?_⟩
  obtain ⟨-, -, rfl⟩ | ⟨-, hr, rfl⟩ | ⟨-, hr, i, left, hd, -, -, rfl⟩ := hc
  · exact absurd rfl hk
  · exact .inl ⟨hr, by rw [resetInst_inst, if_pos rfl]⟩
  · exact .inr ⟨hr, i, left, hd, by rw [performed_inst, if_pos rfl]⟩

/-! The arm that a sample takes (42_process R106). -/

section arms
variable {cfg : Config} {e : Envelope}

theorem sample_of_idle (h : e.stage = .idle) : e.sample cfg = e := by
  simp only [Envelope.sample, h]
theorem sample_of_attack (h : e.stage = .attack) : e.sample cfg = e.attackArm cfg := by
  simp only [Envelope.sample, h]
theorem sample_of_decay1 (h : e.stage = .decay1) : e.sample cfg = e.decay1Arm cfg := by
  simp only [Envelope.sample, h]
theorem sample_of_decay2 (h : e.stage = .decay2) : e.sample cfg = e.decay2Arm cfg := by
  simp only [Envelope.sample, h]
theorem sample_of_sustain (h : e.stage = .sustain) : e.sample cfg = e.sustainArm cfg := by
  simp only [Envelope.sample, h]
theorem sample_of_release (h : e.stage = .release) : e.sample cfg = e.releaseArm cfg := by
  simp only [Envelope.sample, h]

@[simp] theorem sustainArm_stage : (e.sustainArm cfg).stage = e.stage := by
  unfold Envelope.sustainArm; split <;> rfl

/-- What the Release arm can do: snap to +0.0 in Idle, below the floor, or approach its target. -/
theorem releaseArm_cases :
    (flt (approached cfg.fmt e.level e.coef.v4 (releaseTarget cfg e)) cfg.kFloor = true ∧
      e.releaseArm cfg = { e with level := Word.zero, stage := .idle }) ∨
    (flt (approached cfg.fmt e.level e.coef.v4 (releaseTarget cfg e)) cfg.kFloor = false ∧
      e.releaseArm cfg =
        { e with level := approached cfg.fmt e.level e.coef.v4 (releaseTarget cfg e) }) := by
  unfold Envelope.releaseArm
  dsimp only
  split
  · next h => exact .inl ⟨h, rfl⟩
  · next h => exact .inr ⟨eq_false_of_ne_true h, rfl⟩

end arms

/-! The stage graph (10_state R36). -/

/-- A test that chooses between an edge of process and staying. -/
theorem edge_cases {test : Bool} {a b : Stage} (h : stageCause .process a b = true) :
    (if test then b else a) = a ∨
    (stageCause .process a (if test then b else a) = true ∧ test = true) := by
  cases test with
  | false => exact .inl rfl
  | true => exact .inr ⟨h, rfl⟩

/-- A sample keeps the stage, or moves along the one edge of its stage, where the completion test
holds (42_process R109 to R113). -/
theorem sample_stage_cases (cfg : Config) (e : Envelope) :
    (e.sample cfg).stage = e.stage ∨
    (stageCause .process e.stage (e.sample cfg).stage = true ∧ completionTest cfg e = true) := by
  cases hs : e.stage with
  | idle => exact .inl (by rw [sample_of_idle hs, hs])
  | attack =>
    simp only [sample_of_attack hs, Envelope.attackArm, completionTest, hs]
    exact edge_cases rfl
  | decay1 =>
    simp only [sample_of_decay1 hs, Envelope.decay1Arm, withinEps, completionTest, hs]
    exact edge_cases rfl
  | decay2 =>
    simp only [sample_of_decay2 hs, Envelope.decay2Arm, withinEps, completionTest, hs]
    exact edge_cases rfl
  | sustain => exact .inl (by rw [sample_of_sustain hs, sustainArm_stage, hs])
  | release =>
    simp only [completionTest, hs]
    obtain ⟨htest, ha⟩ | ⟨-, ha⟩ := releaseArm_cases (cfg := cfg) (e := e) <;>
      rw [sample_of_release hs, ha]
    · exact .inr ⟨rfl, htest⟩
    · exact .inl hs

/-- noteOff changes nothing in Idle, and elsewhere the stage alone (41_note_control R97). -/
theorem gateOff_cases (e : Envelope) :
    (e.stage = .idle ∧ e.gateOff = e) ∨
    (e.stage ≠ .idle ∧ e.gateOff = { e with stage := .release }) := by
  unfold Envelope.gateOff
  split
  · next h => exact .inl ⟨h, rfl⟩
  · next h => exact .inr ⟨h, rfl⟩

/-- noteOff keeps the stage, or moves from a sounding stage to Release (41_note_control R97). -/
theorem gateOff_stage_cases (e : Envelope) :
    e.gateOff.stage = e.stage ∨ stageCause .noteOff e.stage e.gateOff.stage = true := by
  obtain ⟨-, h⟩ | ⟨hne, h⟩ := gateOff_cases e <;> rw [h]
  · exact .inl rfl
  · dsimp only
    cases hs : e.stage <;> simp [stageCause, hs] at hne ⊢

/-- What a command does to the stage: nothing, or an edge of the table with its cause. -/
theorem after_stage_cases (cfg : Config) (e : Envelope) (i : Instr) :
    (e.after cfg i).stage = e.stage ∨
    (stageCause i e.stage (e.after cfg i).stage = true ∧
      (i = .process → completionTest cfg e = true)) := by
  cases i with
  | setRates => exact .inl (recompute_stage _ _)
  | setLevels => exact .inl rfl
  | setSampleRate => exact .inl (recompute_stage _ _)
  | noteOn => exact .inr ⟨rfl, fun h => by cases h⟩
  | noteOff => exact (gateOff_stage_cases e).imp id fun h => ⟨h, fun h => by cases h⟩
  | process => exact (sample_stage_cases cfg e).imp id fun h => ⟨h.1, fun _ => h.2⟩
  | isActive => exact .inl rfl

/-- The one edge of a command into Idle is the completion of Release. -/
theorem stageCause_to_idle {i : Instr} {a : Stage} (h : stageCause i a .idle = true) :
    i = .process ∧ a = .release := by
  cases i <;> cases a <;> simp [stageCause] at h ⊢

/-- The one edge out of Idle is a noteOn. -/
theorem stageCause_from_idle {i : Instr} {b : Stage} (h : stageCause i .idle b = true) :
    i = .noteOn ∧ b = .attack := by
  cases i <;> cases b <;> simp [stageCause] at h ⊢

theorem active_eq (e : Envelope) : e.active = decide (e.stage ≠ .idle) := rfl

/-! The Idle invariant (10_state R35). -/

theorem sample_keeps_silent (cfg : Config) {e : Envelope} (h : e.Silent) :
    (e.sample cfg).Silent := by
  intro hidle
  cases hs : e.stage with
  | idle => rw [sample_of_idle hs]; exact h hs
  | release =>
    rw [sample_of_release hs] at hidle ⊢
    obtain ⟨-, ha⟩ | ⟨-, ha⟩ := releaseArm_cases (cfg := cfg) (e := e) <;> rw [ha] at hidle ⊢
    exact absurd (hs.symm.trans hidle) (by decide)
  | _ =>
    obtain hkeep | ⟨hcause, -⟩ := sample_stage_cases cfg e
    · rw [hidle, hs] at hkeep; cases hkeep
    · rw [hidle, hs] at hcause; cases (stageCause_to_idle hcause).2

theorem after_keeps_silent (cfg : Config) {e : Envelope} (i : Instr) (h : e.Silent) :
    (e.after cfg i).Silent := by
  cases i with
  | setRates => simpa [Envelope.after, Envelope.writeRates, Envelope.Silent] using h
  | setLevels => exact h
  | setSampleRate => simpa [Envelope.after, Envelope.writeSampleRate, Envelope.Silent] using h
  | noteOn => exact fun _ => rfl
  | noteOff =>
    rw [Envelope.after]
    obtain ⟨-, hg⟩ | ⟨-, hg⟩ := gateOff_cases e <;> rw [hg]
    · exact h
    · exact fun hidle => by cases hidle
  | process => exact sample_keeps_silent cfg h
  | isActive => exact h

/-- Of a Silent envelope in Idle, no command changes the level: noteOn writes the +0.0 it holds. -/
theorem after_level_of_idle (cfg : Config) {e : Envelope} (i : Instr) (h : e.Silent)
    (hs : e.stage = .idle) : (e.after cfg i).level = e.level := by
  cases i with
  | setRates => simp [Envelope.after, Envelope.writeRates]
  | setLevels => rfl
  | setSampleRate => simp [Envelope.after, Envelope.writeSampleRate]
  | noteOn => exact (h hs).symm
  | noteOff =>
    obtain ⟨-, hg⟩ | ⟨hne, -⟩ := gateOff_cases e
    · rw [Envelope.after, hg]
    · exact absurd hs hne
  | process => rw [Envelope.after, sample_of_idle hs]
  | isActive => rfl

/-! The programming registers (10_state R23). -/

theorem inDomains_reset (cfg : Config) : Envelope.reset.InDomains cfg := by
  simp [Envelope.InDomains, Envelope.reset]

theorem derived_reset (cfg : Config) : Envelope.reset.Derived cfg := by
  simp [Envelope.Derived, Envelope.reset]

theorem narrowed_binary64 {cfg : Config} (h : cfg.fmt = .binary64) (q : Quad) :
    narrowed cfg q = q := by
  simp only [narrowed, Quad.map, h, narrow]

/-- In binary64 a command whose operands are in their domains writes them as they are. -/
theorem after_keeps_inDomains {cfg : Config} {e : Envelope} {i : Instr} (hf : cfg.fmt = .binary64)
    (hw : i.wellFormed cfg = true) (h : e.InDomains cfg) : (e.after cfg i).InDomains cfg := by
  obtain ⟨hrate, hlvl, hfs⟩ := h
  cases i with
  | setRates r1 r2 r3 r4 =>
    simp only [Envelope.InDomains, Envelope.after, Envelope.writeRates, recompute_rate,
      recompute_lvl, recompute_lvlMark, recompute_fs, recompute_fsMark, narrowed_binary64 hf]
    exact ⟨fun _ => hw, hlvl, hfs⟩
  | setLevels l1 l2 l3 l4 =>
    simp only [Envelope.InDomains, Envelope.after, Envelope.writeLevels, narrowed_binary64 hf]
    exact ⟨hrate, fun _ => hw, hfs⟩
  | setSampleRate fs =>
    simp only [Envelope.InDomains, Envelope.after, Envelope.writeSampleRate, recompute_rate,
      recompute_rateMark, recompute_lvl, recompute_lvlMark, recompute_fs, hf, narrow]
    exact ⟨hrate, hlvl, fun _ => hw⟩
  | noteOn => exact ⟨hrate, hlvl, hfs⟩
  | noteOff =>
    rw [Envelope.after]
    obtain ⟨-, hg⟩ | ⟨-, hg⟩ := gateOff_cases e <;> rw [hg] <;> exact ⟨hrate, hlvl, hfs⟩
  | process =>
    simp only [Envelope.InDomains, Envelope.after, sample_rate, sample_rateMark, sample_lvl,
      sample_lvlMark, sample_fs, sample_fsMark]
    exact ⟨hrate, hlvl, hfs⟩
  | isActive => exact ⟨hrate, hlvl, hfs⟩

end Sys2Proof.Machine

namespace Sys2Proof.Proofs

open Sys2Proof.Machine

/-- Settles O35: the envelope that changes its stage was reset, or its command has the edge. -/
theorem stageChangesOnlyByTheTable : Obligations.StageChangesOnlyByTheTable := by
  intro s t k h hne
  obtain ⟨inp, rest, hs, hk, ⟨hr, ht⟩ | ⟨hr, i, left, hd, ht⟩⟩ :=
    step_changed h fun heq => hne (congrArg Envelope.stage heq)
  · exact ⟨inp, rest, hs, hk, .inl ⟨hr, by rw [ht]; rfl⟩⟩
  · have hcause := (after_stage_cases s.cfg (s.inst k) i).resolve_left (ht ▸ hne)
    rw [← ht] at hcause
    exact ⟨inp, rest, hs, hk, .inr ⟨hr, i, left, hd, hcause⟩⟩

/-- Settles O36: the flag changes only where the stage enters or leaves Idle, and of the table's
edges noteOn alone leaves it and the completion of Release alone enters it. -/
theorem activeFlagChanges : Obligations.ActiveFlagChanges := by
  refine ⟨fun e => ⟨rfl, rfl⟩, fun s t k h hne => ?_⟩
  obtain ⟨inp, rest, hs, hk, ⟨hr, hidle⟩ | ⟨hr, i, left, hd, hcause, -⟩⟩ :=
    stageChangesOnlyByTheTable s t k h fun heq => hne (by rw [active_eq, active_eq, heq])
  · exact ⟨inp, rest, hs, hk, .inl ⟨hr, by simp [active_eq, hidle]⟩⟩
  refine ⟨inp, rest, hs, hk, .inr ⟨hr, i, left, hd, ?_⟩⟩
  by_cases hidle : (t.inst k).stage = .idle
  · rw [hidle] at hcause
    exact .inr ⟨(stageCause_to_idle hcause).1, hidle, by simp [active_eq, hidle]⟩
  · have hold : (s.inst k).stage = .idle := by
      by_contra hold
      exact hne (by simp [active_eq, hidle, hold])
    rw [hold] at hcause
    exact .inl ⟨(stageCause_from_idle hcause).1, by simp [active_eq, hidle]⟩

/-- Settles O37: every command keeps the invariant, and the table's one edge into Idle is the
completion of Release. -/
theorem idleIsSilent : Obligations.IdleIsSilent := by
  intro s t hsilent h
  refine ⟨step_keeps_every (fun _ => rfl) (fun _ i _ _ => after_keeps_silent s.cfg i) hsilent h,
    fun k hold hnew => ?_, fun k hold => ?_⟩
  · obtain ⟨inp, rest, hs, hk, ⟨hr, -⟩ | ⟨-, i, left, hd, hcause, -⟩⟩ :=
      stageChangesOnlyByTheTable s t k h fun heq => hold (heq ▸ hnew)
    · exact ⟨inp, rest, hs, hk, .inl hr⟩
    · rw [hnew] at hcause
      obtain ⟨rfl, hrel⟩ := stageCause_to_idle hcause
      exact ⟨inp, rest, hs, hk, .inr ⟨hrel, left, hd⟩⟩
  · by_cases hsame : t.inst k = s.inst k
    · rw [hsame]
    obtain ⟨inp, rest, -, -, ⟨-, ht⟩ | ⟨-, i, left, -, ht⟩⟩ := step_changed h hsame
    · rw [ht]; exact (hsilent k hold).symm
    · rw [ht]; exact after_level_of_idle s.cfg i (hsilent k) hold

/-- Settles O39: every command writes operands that passed its domain test. -/
theorem programmingStaysInDomain : Obligations.ProgrammingStaysInDomain := by
  intro s t hf hs h
  rw [step_keeps_cfg h]
  exact step_keeps_every (inDomains_reset _) (fun _ _ hw _ => after_keeps_inDomains hf hw) hs h

/-- Settles O1: every place of the reset list holds the reset envelope. -/
theorem resetStateOfEveryInstance : Obligations.ResetStateOfEveryInstance := by
  intro k
  rw [inst_reset]
  exact ⟨rfl, rfl, rfl, rfl, rfl, rfl, rfl⟩

/-- Settles O60: process and isActive respond with what they leave in the selected envelope. -/
theorem outputsReflectTheState : Obligations.OutputsReflectTheState := by
  refine ⟨fun e => ⟨rfl, rfl, rfl⟩, ⟨rfl, rfl, rfl, rfl, rfl, rfl⟩, fun s t h => ?_,
    fun s t h => ?_⟩
  · obtain ⟨-, -, rfl⟩ := exec_next h
    rw [finish_inst_sel]
    rfl
  · obtain ⟨-, -, rfl⟩ := exec_next h
    rw [finish_inst_sel]
    rfl

end Sys2Proof.Proofs

/-!
SUPPORT and PROOFS. 10_state R34: every level stays in [0, 1]. A rounded result keeps the
representable bounds of the exact one; so the coefficients of the admitted domain are in [0, 1/2]
(40_configuration R87), the approach never overshoots (42_process R117), and every command keeps the
invariant.
-/

namespace Sys2Proof.Machine

/-! The order of finite patterns is that of their values. -/

theorem orderKey_of_unpack {w : Word} {neg : Bool} {m : Nat} (h : unpack w = .fin neg m) :
    ∃ x : Int, orderKey (unpack w) = some x ∧ valueOf w = x / unitsPerOne :=
  ⟨signedMag neg m, by rw [h, orderKey], by rw [valueOf, h]⟩

theorem fle_iff {a b : Word} (ha : isFinite a = true) (hb : isFinite b = true) :
    fle a b = true ↔ valueOf a ≤ valueOf b := by
  obtain ⟨sa, ma, ha⟩ := isFinite_iff.1 ha
  obtain ⟨sb, mb, hb⟩ := isFinite_iff.1 hb
  obtain ⟨x, hx, hvx⟩ := orderKey_of_unpack ha
  obtain ⟨y, hy, hvy⟩ := orderKey_of_unpack hb
  have hU : (0 : ℚ) < unitsPerOne := by exact_mod_cast unitsPerOne_pos
  rw [hvx, hvy, div_le_div_iff_of_pos_right hU, Int.cast_le]
  simp only [fle, hx, hy, decide_eq_true_eq]

theorem inDomain_iff {low high x : Word} (hl : isFinite low = true) (hh : isFinite high = true) :
    inDomain low high x = true ↔
      isFinite x = true ∧ valueOf low ≤ valueOf x ∧ valueOf x ≤ valueOf high := by
  by_cases hx : isFinite x = true
  · simp only [inDomain, Bool.and_eq_true, fle_iff hl hx, fle_iff hx hh, and_assoc]
  · simp only [inDomain, hx, Bool.false_and, Bool.false_eq_true, false_and]

theorem valueOf_zero : valueOf Word.zero = 0 := by decide +kernel

theorem valueOf_one : valueOf Word.one = 1 := by decide +kernel

theorem inUnit_iff {w : Word} :
    inUnit w = true ↔ isFinite w = true ∧ 0 ≤ valueOf w ∧ valueOf w ≤ 1 := by
  rw [inUnit, inDomain_iff (by decide +kernel) (by decide +kernel), valueOf_zero, valueOf_one]

/-! Rounding keeps bounds that are values. -/

/-- `x` is the value of a finite binary64 pattern. -/
def Representable (x : ℚ) : Prop := ∃ w : Word, isFinite w = true ∧ valueOf w = x

theorem representable_valueOf {w : Word} (h : isFinite w = true) : Representable (valueOf w) :=
  ⟨w, h, rfl⟩

theorem Representable.neg {x : ℚ} (h : Representable x) : Representable (-x) := by
  obtain ⟨w, hw, rfl⟩ := h
  exact ⟨fneg w, isFinite_fneg hw, valueOf_fneg hw⟩

theorem isFinite_pack (neg : Bool) {m : Nat} (h : IsValue .binary64 m) :
    isFinite (pack neg m) = true := isFinite_iff.2 ⟨neg, m, unpack_pack neg h⟩

theorem representable_units {m : Nat} (h : IsValue .binary64 m) :
    Representable (m / unitsPerOne) :=
  ⟨pack false m, isFinite_pack false h, by
    rw [valueOf_pack false h, signFactor, if_neg Bool.false_ne_true, one_mul]⟩

theorem representable_zero : Representable 0 := ⟨Word.zero, by decide +kernel, valueOf_zero⟩

theorem representable_one : Representable 1 := ⟨Word.one, by decide +kernel, valueOf_one⟩

/-- The size of a representable number, in units. -/
theorem Representable.abs_units {x : ℚ} (h : Representable x) :
    ∃ m, IsValue .binary64 m ∧ |x| * unitsPerOne = m := by
  obtain ⟨w, hw, rfl⟩ := h
  obtain ⟨neg, m, hw⟩ := isFinite_iff.1 hw
  refine ⟨m, unpack_isValue hw, ?_⟩
  rw [valueOf_of_unpack hw, abs_div, abs_mul, abs_signFactor, one_mul, Nat.abs_cast, Nat.abs_cast,
    div_mul_cancel₀ _ unitsPerOne_cast_ne_zero]

/-- `w` is finite and lies between any two representable numbers that `x` lies between, as a
rounding of `x` does. -/
def KeepsBounds (w : Word) (x : ℚ) : Prop :=
  ∀ lo hi : ℚ, Representable lo → Representable hi → lo ≤ x → x ≤ hi →
    isFinite w = true ∧ lo ≤ valueOf w ∧ valueOf w ≤ hi

/-- A representable bound of the size of a rounded number, from above and from below. -/
theorem roundNearest_le_abs {n d : Nat} {b : ℚ} (hd : 0 < d) (hb : Representable b)
    (h : (n : ℚ) / d ≤ |b| * unitsPerOne) :
    roundNearest .binary64 n d < overflowMag .binary64 ∧
    (roundNearest .binary64 n d : ℚ) ≤ |b| * unitsPerOne := by
  obtain ⟨m, ⟨hlt, hdvd⟩, hm⟩ := hb.abs_units
  have hd' : (0 : ℚ) < d := by exact_mod_cast hd
  rw [hm, div_le_iff₀ hd'] at h
  have hle := roundNearest_le_of_value .binary64 hd hdvd (by exact_mod_cast h)
  exact ⟨hle.trans_lt hlt, by rw [hm]; exact_mod_cast hle⟩

theorem abs_le_roundNearest {n d : Nat} {b : ℚ} (hd : 0 < d) (hb : Representable b)
    (h : |b| * unitsPerOne ≤ (n : ℚ) / d) :
    |b| * unitsPerOne ≤ roundNearest .binary64 n d := by
  obtain ⟨m, ⟨-, hdvd⟩, hm⟩ := hb.abs_units
  have hd' : (0 : ℚ) < d := by exact_mod_cast hd
  rw [hm, le_div_iff₀ hd'] at h
  rw [hm]
  exact_mod_cast le_roundNearest_of_value .binary64 hd hdvd (by exact_mod_cast h)

theorem valueOf_packRounded {neg : Bool} {n d : Nat} (hd : 0 < d)
    (ho : roundNearest .binary64 n d < overflowMag .binary64) :
    isFinite (packRounded .binary64 neg n d) = true ∧
    valueOf (packRounded .binary64 neg n d) * unitsPerOne =
      signFactor neg * roundNearest .binary64 n d := by
  have hv := roundNearest_isValue .binary64 n d hd ho
  unfold packRounded
  dsimp only
  rw [if_pos ho, valueOf_pack neg hv, div_mul_cancel₀ _ unitsPerOne_cast_ne_zero]
  exact ⟨isFinite_pack neg hv, rfl⟩

theorem packRounded_keepsBounds {neg : Bool} {n d : Nat} {x : ℚ} (hd : 0 < d)
    (hx : x * unitsPerOne = signFactor neg * (n / d)) :
    KeepsBounds (packRounded .binary64 neg n d) x := by
  intro lo hi hlo hhi hlox hxhi
  have hU : (0 : ℚ) < unitsPerOne := by exact_mod_cast unitsPerOne_pos
  have hlo' := (mul_le_mul_iff_left₀ hU).2 hlox
  have hhi' := (mul_le_mul_iff_left₀ hU).2 hxhi
  have hn : (0 : ℚ) ≤ n / d := div_nonneg n.cast_nonneg d.cast_nonneg
  have hr : (0 : ℚ) ≤ roundNearest .binary64 n d := Nat.cast_nonneg _
  rw [hx] at hlo' hhi'
  rw [← mul_le_mul_iff_left₀ hU (b := lo), ← mul_le_mul_iff_left₀ hU (c := hi)]
  cases neg with
  | false =>
    simp only [signFactor, Bool.false_eq_true, ↓reduceIte, one_mul] at hlo' hhi'
    have hpos : 0 ≤ hi := nonneg_of_mul_nonneg_left (hn.trans hhi') hU
    obtain ⟨ho, hle⟩ := roundNearest_le_abs hd hhi (by rwa [abs_of_nonneg hpos])
    rw [abs_of_nonneg hpos] at hle
    obtain ⟨hfin, hval⟩ := valueOf_packRounded (neg := false) hd ho
    rw [hval, signFactor, if_neg Bool.false_ne_true, one_mul]
    refine ⟨hfin, ?_, hle⟩
    rcases le_total lo 0 with h0 | h0
    · exact (mul_nonpos_of_nonpos_of_nonneg h0 hU.le).trans hr
    · have := abs_le_roundNearest hd hlo (by rwa [abs_of_nonneg h0])
      rwa [abs_of_nonneg h0] at this
  | true =>
    simp only [signFactor, ↓reduceIte, neg_one_mul] at hlo' hhi'
    have hneg : lo ≤ 0 := nonpos_of_mul_nonpos_left (hlo'.trans (neg_nonpos.2 hn)) hU
    obtain ⟨ho, hle⟩ := roundNearest_le_abs hd hlo
      (by rw [abs_of_nonpos hneg, neg_mul]; exact le_neg_of_le_neg hlo')
    rw [abs_of_nonpos hneg] at hle
    obtain ⟨hfin, hval⟩ := valueOf_packRounded (neg := true) hd ho
    rw [hval, signFactor, if_pos rfl, neg_one_mul]
    refine ⟨hfin, by linarith, ?_⟩
    rcases le_total 0 hi with h0 | h0
    · exact (neg_nonpos.2 hr).trans (mul_nonneg h0 hU.le)
    · have := abs_le_roundNearest hd hhi
        (by rw [abs_of_nonpos h0, neg_mul]; exact neg_le.1 hhi')
      rw [abs_of_nonpos h0, neg_mul] at this
      exact neg_le.1 this

theorem fadd_keepsBounds {a b : Word} (ha : isFinite a = true) (hb : isFinite b = true) :
    KeepsBounds (fadd .binary64 a b) (valueOf a + valueOf b) := by
  obtain ⟨sa, ma, ha⟩ := isFinite_iff.1 ha
  obtain ⟨sb, mb, hb⟩ := isFinite_iff.1 hb
  have hx : (valueOf a + valueOf b) * unitsPerOne = (signedMag sa ma + signedMag sb mb : Int) := by
    have := unitsPerOne_cast_ne_zero
    rw [valueOf_of_unpack ha, valueOf_of_unpack hb, Int.cast_add, signedMag_cast, signedMag_cast]
    field_simp
  simp only [fadd, ha, hb]
  generalize signedMag sa ma + signedMag sb mb = x at *
  split
  · next h0 =>
    rw [h0, Int.cast_zero] at hx
    rw [(mul_eq_zero.1 hx).resolve_right unitsPerOne_cast_ne_zero]
    intro lo hi _ _ hlo hhi
    rw [valueOf_pack_zero]
    exact ⟨isFinite_pack _ ⟨by decide +kernel, dvd_zero _⟩, hlo, hhi⟩
  · refine packRounded_keepsBounds Nat.one_pos ?_
    rw [hx, Nat.cast_one, div_one, signFactor_mul_natAbs]

theorem fsub_keepsBounds {a b : Word} (ha : isFinite a = true) (hb : isFinite b = true) :
    KeepsBounds (fsub .binary64 a b) (valueOf a - valueOf b) := by
  have h := fadd_keepsBounds ha (isFinite_fneg hb)
  rwa [valueOf_fneg hb, ← sub_eq_add_neg] at h

theorem fmul_keepsBounds {a b : Word} (ha : isFinite a = true) (hb : isFinite b = true) :
    KeepsBounds (fmul .binary64 a b) (valueOf a * valueOf b) := by
  obtain ⟨sa, ma, ha⟩ := isFinite_iff.1 ha
  obtain ⟨sb, mb, hb⟩ := isFinite_iff.1 hb
  rw [valueOf_of_unpack ha, valueOf_of_unpack hb]
  simp only [fmul, ha, hb]
  refine packRounded_keepsBounds unitsPerOne_pos ?_
  have := unitsPerOne_cast_ne_zero
  rw [signFactor_bne, Nat.cast_mul]
  field_simp

theorem fdiv_keepsBounds {a b : Word} (ha : isFinite a = true) (hb : isFinite b = true)
    (hne : valueOf b ≠ 0) : KeepsBounds (fdiv .binary64 a b) (valueOf a / valueOf b) := by
  obtain ⟨sa, ma, ha⟩ := isFinite_iff.1 ha
  obtain ⟨sb, mb, hb⟩ := isFinite_iff.1 hb
  have hmb : mb ≠ 0 := by
    rintro rfl
    exact hne (valueOf_of_unpack_zero hb)
  rw [valueOf_of_unpack ha, valueOf_of_unpack hb]
  simp only [fdiv, ha, hb, if_neg hmb]
  refine packRounded_keepsBounds (Nat.pos_of_ne_zero hmb) ?_
  have := unitsPerOne_cast_ne_zero
  have := signFactor_ne_zero sb
  rw [signFactor_bne_div, Nat.cast_mul]
  field_simp

/-! The approach never overshoots (42_process R117). -/

theorem isValue_two_pow {k : Nat} (h : k < 2098) : IsValue .binary64 (2 ^ k) := by
  refine ⟨?_, gap_dvd_of_le .binary64 (Nat.zero_le k) dvd_rfl
    (Nat.pow_le_pow_right (by omega) (by omega))⟩
  have lt_pow {N : Nat} (hN : k < N) : 2 ^ k < 2 ^ N := Nat.pow_lt_pow_right (by omega) hN
  rw [overflowMag_binary64]
  exact lt_pow h

/-- Representable numbers on the two sides of `x`, whose halves are representable and lie between 0
and `x`. -/
structure HalvedBounds (lo x hi : ℚ) : Prop where
  lo_rep : Representable lo
  hi_rep : Representable hi
  lo_half_rep : Representable (lo / 2)
  hi_half_rep : Representable (hi / 2)
  lo_le : lo ≤ x
  le_hi : x ≤ hi
  lo_half : min 0 x ≤ lo / 2 ∧ lo / 2 ≤ 0
  hi_half : 0 ≤ hi / 2 ∧ hi / 2 ≤ max 0 x

theorem HalvedBounds.neg {lo x hi : ℚ} (h : HalvedBounds lo x hi) :
    HalvedBounds (-hi) (-x) (-lo) where
  lo_rep := h.hi_rep.neg
  hi_rep := h.lo_rep.neg
  lo_half_rep := neg_div (2 : ℚ) hi ▸ h.hi_half_rep.neg
  hi_half_rep := neg_div (2 : ℚ) lo ▸ h.lo_half_rep.neg
  lo_le := neg_le_neg h.le_hi
  le_hi := neg_le_neg h.lo_le
  lo_half := by
    obtain ⟨h0, hx⟩ := h.hi_half
    rw [← neg_zero, min_neg_neg, neg_div]
    exact ⟨neg_le_neg hx, neg_le_neg h0⟩
  hi_half := by
    obtain ⟨hx, h0⟩ := h.lo_half
    rw [← neg_zero, max_neg_neg, neg_div]
    exact ⟨neg_le_neg h0, neg_le_neg hx⟩

theorem unitsPerOne_lt : unitsPerOne < 2 ^ 1075 := by decide +kernel

/-- A level in [0, 1], in units. -/
theorem inUnit_units {w : Word} (h : inUnit w = true) :
    ∃ m, m ≤ unitsPerOne ∧ valueOf w = m / unitsPerOne := by
  have hU : (0 : ℚ) < unitsPerOne := by exact_mod_cast unitsPerOne_pos
  obtain ⟨hfin, h0, h1⟩ := inUnit_iff.1 h
  obtain ⟨m, -, hm⟩ := (representable_valueOf hfin).abs_units
  rw [abs_of_nonneg h0] at hm
  refine ⟨m, ?_, eq_div_of_mul_eq hU.ne' hm⟩
  have := mul_le_of_le_one_left hU.le h1
  rw [hm] at this
  exact_mod_cast this

/-- The powers of two around a number of units up to 1.0. -/
theorem exists_halvedBounds_units {n : Nat} (h : n ≤ unitsPerOne) :
    ∃ lo hi, HalvedBounds lo (n / unitsPerOne) hi := by
  have hU : (0 : ℚ) < unitsPerOne := by exact_mod_cast unitsPerOne_pos
  rcases Nat.eq_zero_or_pos n with rfl | hn
  · rw [Nat.cast_zero, zero_div]
    exact ⟨0, 0, by constructor <;> simp [representable_zero]⟩
  have hlog : n.log2 < 1075 :=
    log2_lt_of_lt_pow (h.trans_lt unitsPerOne_lt) hn.ne'
  have hself : ((2 ^ n.log2 : Nat) : ℚ) ≤ n := by exact_mod_cast Nat.log2_self_le hn.ne'
  have hnext : (n : ℚ) ≤ (2 ^ (n.log2 + 1) : Nat) := by exact_mod_cast Nat.lt_log2_self.le
  have hhalf : ((2 ^ (n.log2 + 1) : Nat) : ℚ) / unitsPerOne / 2 =
      (2 ^ n.log2 : Nat) / unitsPerOne := by
    push_cast
    ring
  have hx : (0 : ℚ) ≤ n / unitsPerOne := div_nonneg n.cast_nonneg hU.le
  refine ⟨0, (2 ^ (n.log2 + 1) : Nat) / unitsPerOne, representable_zero,
    representable_units (isValue_two_pow (by omega)), ?_, ?_, hx, ?_, ?_, ?_⟩
  · rw [zero_div]
    exact representable_zero
  · rw [hhalf]
    exact representable_units (isValue_two_pow (by omega))
  · exact div_le_div_of_nonneg_right hnext hU.le
  · rw [zero_div]
    exact ⟨min_le_left _ _, le_rfl⟩
  · rw [hhalf, max_eq_right hx]
    exact ⟨div_nonneg (Nat.cast_nonneg _) hU.le, div_le_div_of_nonneg_right hself hU.le⟩

/-- The same for the difference of two levels in [0, 1]. -/
theorem exists_halvedBounds {a b : Word} (ha : inUnit a = true) (hb : inUnit b = true) :
    ∃ lo hi, HalvedBounds lo (valueOf b - valueOf a) hi := by
  obtain ⟨m, hm, ha⟩ := inUnit_units ha
  obtain ⟨n, hn, hb⟩ := inUnit_units hb
  rw [ha, hb, ← sub_div]
  rcases le_total m n with hle | hle
  · rw [← Nat.cast_sub hle]
    exact exists_halvedBounds_units (by omega)
  · obtain ⟨lo, hi, h⟩ := exists_halvedBounds_units (n := m - n) (by omega)
    have hneg := h.neg
    rw [Nat.cast_sub hle, ← neg_div, neg_sub] at hneg
    exact ⟨-hi, -lo, hneg⟩

/-- For a level and a target in [0, 1] and a coefficient in [0, 1/2] the new level lies between the
two, whatever the three roundings do. -/
theorem approached_between {a b c : Word} (ha : inUnit a = true) (hb : inUnit b = true)
    (hc : isFinite c = true) (hc0 : 0 ≤ valueOf c) (hc1 : valueOf c ≤ 1 / 2) :
    isFinite (approached .binary64 a c b) = true ∧
    min (valueOf a) (valueOf b) ≤ valueOf (approached .binary64 a c b) ∧
    valueOf (approached .binary64 a c b) ≤ max (valueOf a) (valueOf b) := by
  obtain ⟨lo, hi, h⟩ := exists_halvedBounds ha hb
  obtain ⟨hfa, -⟩ := inUnit_iff.1 ha
  obtain ⟨hfb, -⟩ := inUnit_iff.1 hb
  obtain ⟨hlo, hlo0⟩ := h.lo_half
  obtain ⟨hhi0, hhi⟩ := h.hi_half
  obtain ⟨hfd, hd1, hd2⟩ := fsub_keepsBounds hfb hfa lo hi h.lo_rep h.hi_rep h.lo_le h.le_hi
  obtain ⟨hfe, he1, he2⟩ := fmul_keepsBounds hc hfd (lo / 2) (hi / 2) h.lo_half_rep h.hi_half_rep
    (by nlinarith) (by nlinarith)
  have hmin : min (valueOf a) (valueOf b) = valueOf a + min 0 (valueOf b - valueOf a) := by
    rw [← min_add_add_left, add_zero, add_sub_cancel]
  have hmax : max (valueOf a) (valueOf b) = valueOf a + max 0 (valueOf b - valueOf a) := by
    rw [← max_add_add_left, add_zero, add_sub_cancel]
  refine fadd_keepsBounds hfa hfe _ _ ?_ ?_ (by rw [hmin]; linarith) (by rw [hmax]; linarith)
  · rcases min_choice (valueOf a) (valueOf b) with hm | hm <;> rw [hm]
    · exact representable_valueOf hfa
    · exact representable_valueOf hfb
  · rcases max_choice (valueOf a) (valueOf b) with hm | hm <;> rw [hm]
    · exact representable_valueOf hfa
    · exact representable_valueOf hfb

/-! `EXP64` is at most 1.0, and keeps bounds of the exponential from below (40_configuration
R86). -/

/-- The largest value of the format that is at most `q` units, as `expFloor` takes it. -/
def floorToValue (fmt : Fmt) (q : Nat) : Nat := q / gap fmt q * gap fmt q

theorem expFloor_eq (fmt : Fmt) (a s n : Nat) :
    expFloor fmt a s n =
      floorToValue fmt ((expNum a s n).toNat ^ 8 * unitsPerOne / expDen s n ^ 8) :=
  rfl

theorem floorToValue_le (fmt : Fmt) (q : Nat) : floorToValue fmt q ≤ q := Nat.div_mul_le_self _ _

theorem gap_dvd_floorToValue (fmt : Fmt) (q : Nat) :
    gap fmt (floorToValue fmt q) ∣ floorToValue fmt q :=
  (gap_dvd_gap fmt (floorToValue_le fmt q)).trans (Nat.dvd_mul_left _ _)

/-- A multiple of the gap that is at most `q` is at most the floor. -/
theorem le_floorToValue_of_dvd {fmt : Fmt} {b q : Nat} (hd : gap fmt q ∣ b) (h : b ≤ q) :
    b ≤ floorToValue fmt q := by
  obtain ⟨c, rfl⟩ := hd
  rw [floorToValue, Nat.mul_comm]
  exact Nat.mul_le_mul_right _ ((Nat.le_div_iff_mul_le (gap_pos fmt q)).2 (Nat.mul_comm .. ▸ h))

/-- The floor keeps every bound from below that is a value. -/
theorem le_floorToValue {fmt : Fmt} {b q : Nat} (hb : gap fmt b ∣ b) (h : b ≤ q) :
    b ≤ floorToValue fmt q := by
  have hp := precision_pos fmt
  rcases Nat.lt_or_eq_of_le (lastPlace_mono (precision fmt) (leastPlace fmt) h) with hlt | heq
  · -- the power of two at the front of `q` lies between the two
    have hq : q ≠ 0 := by
      rintro rfl
      rw [Nat.le_zero.1 h] at hlt
      exact lt_irrefl _ hlt
    have hk : lastPlace (precision fmt) (leastPlace fmt) q = q.log2 - (precision fmt - 1) ∧
        precision fmt + lastPlace (precision fmt) (leastPlace fmt) b ≤ q.log2 := by
      unfold lastPlace at hlt ⊢
      omega
    obtain ⟨hkq, hkb⟩ := hk
    have hbq : b ≤ 2 ^ q.log2 :=
      ((lt_two_pow_lastPlace _ _ b hp).trans_le (Nat.pow_le_pow_right (by omega) hkb)).le
    refine hbq.trans (le_floorToValue_of_dvd (Nat.pow_dvd_pow 2 ?_) (Nat.log2_self_le hq))
    omega
  · refine le_floorToValue_of_dvd ?_ h
    unfold gap at hb ⊢
    rwa [← heq]

/-- The next value after one below `b` is at most `b`. -/
theorem add_gap_le {fmt : Fmt} {m b : Nat} (hm : gap fmt m ∣ m) (hb : gap fmt b ∣ b) (h : m < b) :
    m + gap fmt m ≤ b := by
  have hdvd := (gap_dvd_gap fmt h.le).trans hb
  refine Nat.le_of_lt_add_of_dvd (n := gap fmt m) ?_ (Nat.dvd_add hm dvd_rfl) hdvd
  omega

/-- The next value after one of the format is one. -/
theorem gap_dvd_add_gap {fmt : Fmt} {m : Nat} (hm : gap fmt m ∣ m) :
    gap fmt (m + gap fmt m) ∣ m + gap fmt m := by
  have hdvd : gap fmt m ∣ m + gap fmt m := Nat.dvd_add hm dvd_rfl
  refine gap_dvd_of_le fmt (Nat.le_max_left _ _) hdvd ?_
  refine Nat.le_of_lt_add_of_dvd (n := gap fmt m) ?_ hdvd (Nat.pow_dvd_pow 2 (Nat.le_add_left _ _))
  exact Nat.add_lt_add_right (lt_two_pow_lastPlace _ _ m (precision_pos fmt)) _

/-- With an even last index the partial sum is at most its first term. -/
theorem expNum_div_le_one (a s k : Nat) (h : a ≤ 2 ^ s) :
    (expNum a s (2 * k) : ℝ) / expDen s (2 * k) ≤ 1 := by
  have h1 : (a / 2 ^ s : ℝ) ≤ 1 := by
    rw [div_le_one (by positivity)]; exact_mod_cast h
  have hanti := exp_terms_antitone (z := (a / 2 ^ s : ℝ)) (by positivity) h1
  induction k with
  | zero => simp [expNum, expDen]
  | succ k ih =>
    rw [expNum_div_expDen] at ih ⊢
    have hodd : (-1 : ℝ) ^ (2 * k + 1) = -1 := Odd.neg_one_pow ⟨k, rfl⟩
    have heven : (-1 : ℝ) ^ (2 * k + 1 + 1) = 1 := by rw [pow_succ, hodd]; norm_num
    rw [show 2 * (k + 1) = 2 * k + 1 + 1 from rfl, Finset.sum_range_succ, Finset.sum_range_succ,
      hodd, heven]
    have := hanti (show 2 * k + 1 ≤ 2 * k + 2 by omega)
    dsimp only at this
    linarith

theorem seven_units_lt : 7 * unitsPerOne < 2 ^ 1077 := by decide +kernel

/-- What `expMag` takes of an argument of `v` units: an eighth of it, as a fraction up to 1. -/
theorem expMag_argument {v : Nat} (hv : gap .binary64 v ∣ v) (h7 : v ≤ 7 * unitsPerOne) :
    v / 2 ^ (v.log2 - 52) ≤ 2 ^ (1077 - (v.log2 - 52)) ∧
    8 * (((v / 2 ^ (v.log2 - 52) : Nat) : ℝ) / 2 ^ (1077 - (v.log2 - 52))) = v / unitsPerOne := by
  have hlt : v < 2 ^ 1077 := Nat.lt_of_le_of_lt h7 seven_units_lt
  have hgap : gap .binary64 v = 2 ^ (v.log2 - 52) := by
    simp only [gap, lastPlace, precision, leastPlace, Nat.zero_max]
  have hlog : v.log2 - 52 ≤ 1077 := by
    rcases Nat.eq_zero_or_pos v with rfl | hpos
    · simp
    · exact (Nat.sub_le _ _).trans (log2_lt_of_lt_pow hlt hpos.ne').le
  have hU : 2 ^ (v.log2 - 52) * 2 ^ (1077 - (v.log2 - 52)) = 8 * unitsPerOne := by
    have h8 : 2 ^ 1077 = 8 * unitsPerOne := by decide +kernel
    exact (pow_mul_pow_sub 2 hlog).trans h8
  have h8 : v ≤ 8 * unitsPerOne := h7.trans (Nat.mul_le_mul_right _ (by decide))
  rw [hgap] at hv
  clear h7 hgap hlt hlog
  generalize v.log2 - 52 = t at *
  generalize 1077 - t = s at *
  obtain ⟨a, rfl⟩ := hv
  rw [Nat.mul_div_cancel_left a (Nat.two_pow_pos t)]
  rw [← hU] at h8
  refine ⟨Nat.le_of_mul_le_mul_left h8 (Nat.two_pow_pos t), ?_⟩
  have hU' : (2 : ℝ) ^ t * 2 ^ s = 8 * unitsPerOne := by exact_mod_cast hU
  have hpos : (0 : ℝ) < unitsPerOne := by exact_mod_cast unitsPerOne_pos
  rw [Nat.cast_mul, Nat.cast_pow, Nat.cast_ofNat, ← mul_div_assoc,
    div_eq_div_iff (by positivity) hpos.ne']
  linear_combination -(a : ℝ) * hU'

/-- The bound of `EXP64` from above, at `v` units. -/
def expAbove (v : Nat) : Nat :=
  expFloor .binary64 (v / 2 ^ (v.log2 - 52)) (1077 - (v.log2 - 52)) 40

/-- The bound of `EXP64` from below, at `v` units. -/
def expBelow (v : Nat) : Nat :=
  expFloor .binary64 (v / 2 ^ (v.log2 - 52)) (1077 - (v.log2 - 52)) 41

/-- `expMag` through its two bounds. -/
theorem expMag_cases (switch : Fmt → Nat → Nat) {v : Nat} (h0 : v ≠ 0) :
    expMag switch .binary64 v = expAbove v ∨
    (expBelow v = expAbove v ∧
      expMag switch .binary64 v = expAbove v + gap .binary64 (expAbove v)) := by
  unfold expMag
  rw [if_neg h0]
  dsimp only
  split
  · next h => exact .inr ⟨h.1, rfl⟩
  · exact .inl rfl

theorem gap_dvd_expAbove (v : Nat) : gap .binary64 (expAbove v) ∣ expAbove v := by
  rw [expAbove, expFloor_eq]
  exact gap_dvd_floorToValue _ _

theorem gap_dvd_expMag (switch : Fmt → Nat → Nat) (v : Nat) :
    gap .binary64 (expMag switch .binary64 v) ∣ expMag switch .binary64 v := by
  rcases Nat.eq_zero_or_pos v with rfl | hpos
  · rw [expMag, if_pos rfl]
    decide +kernel
  obtain h | ⟨-, h⟩ := expMag_cases switch hpos.ne' <;> rw [h]
  · exact gap_dvd_expAbove v
  · exact gap_dvd_add_gap (gap_dvd_expAbove v)

theorem expAbove_le_expMag (switch : Fmt → Nat → Nat) {v : Nat} (h0 : v ≠ 0) :
    expAbove v ≤ expMag switch .binary64 v := by
  obtain h | ⟨-, h⟩ := expMag_cases switch h0 <;> rw [h]
  exact Nat.le_add_right _ _

section bounds
variable {v : Nat} (hv : gap .binary64 v ∣ v) (h7 : v ≤ 7 * unitsPerOne)

include hv h7

theorem expAbove_le_one : expAbove v ≤ unitsPerOne := by
  obtain ⟨ha, -⟩ := expMag_argument hv h7
  have h1 := expNum_div_le_one _ _ 20 ha
  rw [expAbove, expFloor_eq]
  generalize v / 2 ^ (v.log2 - 52) = a at *
  generalize 1077 - (v.log2 - 52) = s at *
  have hD : (0 : ℝ) < expDen s 40 := by exact_mod_cast expDen_pos s 40
  have hle : expNum a s 40 ≤ expDen s 40 := by
    rw [div_le_one hD] at h1
    exact_mod_cast h1
  refine (floorToValue_le _ _).trans (Nat.div_le_of_le_mul ?_)
  exact Nat.mul_le_mul_right _ (Nat.pow_le_pow_left (Int.toNat_le.2 hle) 8)

theorem expBelow_lt_one (h0 : v ≠ 0) : expBelow v < unitsPerOne := by
  obtain ⟨ha, hz⟩ := expMag_argument hv h7
  have hlow := expNum_div_le_exp _ _ 20 ha
  rw [expBelow, expFloor_eq]
  have hv0 : (0 : ℝ) < v / unitsPerOne :=
    div_pos (by exact_mod_cast Nat.pos_of_ne_zero h0) (by exact_mod_cast unitsPerOne_pos)
  generalize (v / unitsPerOne : ℝ) = x at *
  generalize v / 2 ^ (v.log2 - 52) = a at *
  generalize 1077 - (v.log2 - 52) = s at *
  have hD : (0 : ℝ) < expDen s 41 := by exact_mod_cast expDen_pos s 41
  have hexp : Real.exp (-(a / 2 ^ s : ℝ)) < 1 := Real.exp_lt_one_iff.2 (by linarith)
  have hlt : expNum a s 41 < expDen s 41 := by
    have := hlow.trans_lt hexp
    rw [div_lt_one hD] at this
    exact_mod_cast this
  refine (floorToValue_le _ _).trans_lt (Nat.div_lt_of_lt_mul ?_)
  refine Nat.mul_lt_mul_of_pos_right (Nat.pow_lt_pow_left ?_ (by omega)) unitsPerOne_pos
  have := expDen_pos s 41
  omega

/-- A value that the exponential is not below, the upper bound is not below either. -/
theorem le_expAbove {b : Nat} (hb : gap .binary64 b ∣ b)
    (h : (b : ℝ) ≤ Real.exp (-(v / unitsPerOne)) * unitsPerOne) : b ≤ expAbove v := by
  obtain ⟨ha, hz⟩ := expMag_argument hv h7
  have hup := exp_le_expNum_div _ _ 20 ha
  rw [expAbove, expFloor_eq]
  rw [← hz] at h
  generalize v / 2 ^ (v.log2 - 52) = a at *
  generalize 1077 - (v.log2 - 52) = s at *
  refine le_floorToValue hb ((Nat.le_div_iff_mul_le (pow_pos (expDen_pos s 40) 8)).2 ?_)
  have hD : (0 : ℝ) < expDen s 40 := by exact_mod_cast expDen_pos s 40
  have hN : (expNum a s 40 : ℝ) = (expNum a s 40).toNat := by
    have : (0 : ℝ) < expNum a s 40 := by
      have := (Real.exp_pos _).trans_le hup
      exact (div_pos_iff_of_pos_right hD).1 this
    have : 0 < expNum a s 40 := by exact_mod_cast this
    exact_mod_cast (Int.toNat_of_nonneg this.le).symm
  change _ ≤ (expNum a s 40 : ℝ) / expDen s 40 at hup
  rw [hN, le_div_iff₀ hD] at hup
  have hpow : Real.exp (-(8 * (a / 2 ^ s : ℝ))) = Real.exp (-(a / 2 ^ s : ℝ)) ^ 8 := by
    rw [← Real.exp_nat_mul]
    congr 1
    push_cast
    ring
  rw [hpow] at h
  have key : (b * expDen s 40 ^ 8 : ℝ) ≤ (expNum a s 40).toNat ^ 8 * unitsPerOne := by
    calc (b * expDen s 40 ^ 8 : ℝ)
        ≤ Real.exp (-(a / 2 ^ s : ℝ)) ^ 8 * unitsPerOne * expDen s 40 ^ 8 :=
          mul_le_mul_of_nonneg_right h (pow_nonneg hD.le 8)
      _ = (Real.exp (-(a / 2 ^ s : ℝ)) * expDen s 40) ^ 8 * unitsPerOne := by ring
      _ ≤ (expNum a s 40).toNat ^ 8 * unitsPerOne :=
          mul_le_mul_of_nonneg_right (pow_le_pow_left₀ (mul_nonneg (Real.exp_pos _).le hD.le) hup 8)
            (Nat.cast_nonneg _)
  exact_mod_cast key

theorem expMag_le_one (switch : Fmt → Nat → Nat) : expMag switch .binary64 v ≤ unitsPerOne := by
  rcases Nat.eq_zero_or_pos v with rfl | hpos
  · exact (if_pos rfl).le
  obtain h | ⟨heq, h⟩ := expMag_cases switch hpos.ne' <;> rw [h]
  · exact expAbove_le_one hv h7
  · have hlt := expBelow_lt_one hv h7 hpos.ne'
    rw [heq] at hlt
    exact add_gap_le (gap_dvd_expAbove v) (by decide +kernel) hlt

end bounds

/-- A finite value in [-7.0, 0.0] is an argument of `EXP64`. -/
theorem exists_expArgument {x : Word} (hx : isFinite x = true) (h7 : -7 ≤ valueOf x)
    (h0 : valueOf x ≤ 0) : ∃ v, ExpArgument x v ∧ valueOf x = -(v / unitsPerOne) := by
  have hU : (0 : ℚ) < unitsPerOne := by exact_mod_cast unitsPerOne_pos
  obtain ⟨neg, m, hx⟩ := isFinite_iff.1 hx
  have hval := valueOf_of_unpack hx
  cases neg with
  | true =>
    rw [signFactor, if_pos rfl, neg_one_mul, neg_div] at hval
    refine ⟨m, ⟨.inl hx, ?_⟩, hval⟩
    rw [hval, neg_le_neg_iff, div_le_iff₀ hU] at h7
    exact_mod_cast h7
  | false =>
    rw [signFactor, if_neg Bool.false_ne_true, one_mul] at hval
    have hm : (m : ℚ) ≤ 0 := by
      rw [hval, div_le_iff₀ hU, zero_mul] at h0
      exact h0
    obtain rfl : m = 0 := by exact_mod_cast hm.antisymm m.cast_nonneg
    exact ⟨0, ⟨.inr ⟨rfl, hx⟩, Nat.zero_le _⟩, by rw [hval, Nat.cast_zero, zero_div, neg_zero]⟩

theorem exp64_of_argument {x : Word} {v : Nat} (h : ExpArgument x v) :
    exp64 .binary64 x = pack false (expMag Config.expSwitch .binary64 v) := by
  obtain ⟨hx | ⟨rfl, hx⟩, h7⟩ := h <;> simp only [exp64, expOf, hx]
  · exact if_pos ⟨by simp, h7⟩
  · exact if_pos ⟨by simp, h7⟩

theorem gap_dvd_of_argument {x : Word} {v : Nat} (h : ExpArgument x v) : gap .binary64 v ∣ v := by
  obtain ⟨hx | ⟨rfl, -⟩, -⟩ := h
  · exact (unpack_isValue hx).2
  · exact dvd_zero _

/-- A value that the exponential is not below, `EXP64` is not below either. -/
theorem le_expMag (switch : Fmt → Nat → Nat) {v b : Nat} (hv : gap .binary64 v ∣ v)
    (h7 : v ≤ 7 * unitsPerOne) (hb : gap .binary64 b ∣ b)
    (h : (b : ℝ) ≤ Real.exp (-(v / unitsPerOne)) * unitsPerOne) :
    b ≤ expMag switch .binary64 v := by
  rcases Nat.eq_zero_or_pos v with rfl | hpos
  · rw [Nat.cast_zero, zero_div, neg_zero, Real.exp_zero, one_mul] at h
    rw [expMag, if_pos rfl]
    exact_mod_cast h
  · exact (le_expAbove hv h7 hb h).trans (expAbove_le_expMag switch hpos.ne')

/-- On [-7.0, 0.0] `EXP64` is at most 1.0, and keeps the representable bounds of the exponential
from below (40_configuration R86). -/
theorem exp64_bounds {x : Word} (hx : isFinite x = true) (h7 : -7 ≤ valueOf x)
    (h0 : valueOf x ≤ 0) :
    isFinite (exp64 .binary64 x) = true ∧ valueOf (exp64 .binary64 x) ≤ 1 ∧
    ∀ lo : ℚ, Representable lo → (lo : ℝ) ≤ Real.exp (valueOf x) →
      lo ≤ valueOf (exp64 .binary64 x) := by
  have hU : (0 : ℚ) < unitsPerOne := by exact_mod_cast unitsPerOne_pos
  obtain ⟨v, harg, hval⟩ := exists_expArgument hx h7 h0
  have hgap := gap_dvd_of_argument harg
  have hle := expMag_le_one hgap harg.2 Config.expSwitch
  have hv : IsValue .binary64 (expMag Config.expSwitch .binary64 v) :=
    ⟨hle.trans_lt (by decide +kernel), gap_dvd_expMag _ v⟩
  rw [exp64_of_argument harg, valueOf_pack false hv, signFactor, if_neg Bool.false_ne_true, one_mul]
  refine ⟨isFinite_pack false hv, (div_le_one hU).2 (by exact_mod_cast hle), fun lo hlo hexp => ?_⟩
  rcases le_total lo 0 with hneg | hpos
  · exact hneg.trans (div_nonneg (Nat.cast_nonneg _) hU.le)
  obtain ⟨b, ⟨-, hb⟩, hunits⟩ := hlo.abs_units
  rw [abs_of_nonneg hpos] at hunits
  rw [le_div_iff₀ hU, hunits]
  have hscaled : (b : ℝ) ≤ Real.exp (-(v / unitsPerOne)) * unitsPerOne := by
    have hcast : (lo : ℝ) * unitsPerOne = b := by exact_mod_cast hunits
    have hexp' : ((valueOf x : ℚ) : ℝ) = -(v / unitsPerOne) := by
      rw [hval, Rat.cast_neg, Rat.cast_div, Rat.cast_natCast, Rat.cast_natCast]
    rw [← hcast, ← hexp']
    exact mul_le_mul_of_nonneg_right hexp (Nat.cast_nonneg _)
  exact_mod_cast le_expMag Config.expSwitch hgap harg.2 hb hscaled

/-! The admitted domain (40_configuration R87). -/

theorem default_admitted : Config.default.Admitted :=
  ⟨rfl, rfl, rfl, rfl, rfl, rfl, rfl, rfl, rfl⟩

section admitted
variable {cfg : Config} (hcfg : cfg.Admitted)
include hcfg

theorem rateInDomain_iff {r : Word} :
    rateInDomain cfg r = true ↔ isFinite r = true ∧ 0 ≤ valueOf r ∧ valueOf r ≤ 99 := by
  obtain ⟨-, -, -, -, -, hmin, hmax, -, -⟩ := hcfg
  have h0 : valueOf Config.default.rateMin = 0 := by decide +kernel
  have h99 : valueOf Config.default.rateMax = 99 := by decide +kernel
  rw [rateInDomain, hmin, hmax, inDomain_iff (by decide +kernel) (by decide +kernel), h0, h99]

theorem sampleRateInDomain_iff {fs : Word} :
    sampleRateInDomain cfg fs = true ↔
      isFinite fs = true ∧ 8000 ≤ valueOf fs ∧ valueOf fs ≤ 384000 := by
  obtain ⟨-, -, -, hmin, hmax, -⟩ := hcfg
  have hlow : valueOf Config.default.fsMin = 8000 := by decide +kernel
  have hhigh : valueOf Config.default.fsMax = 384000 := by decide +kernel
  rw [sampleRateInDomain, hmin, hmax, inDomain_iff (by decide +kernel) (by decide +kernel), hlow,
    hhigh]

theorem levelInDomain_eq_inUnit (l : Word) : levelInDomain cfg l = inUnit l := by
  obtain ⟨-, -, -, -, -, -, -, hmin, hmax⟩ := hcfg
  rw [levelInDomain, hmin, hmax]
  rfl

end admitted

/-- A coefficient that never overshoots: in [0, 1/2]. -/
def InHalf (c : Word) : Prop := isFinite c = true ∧ 0 ≤ valueOf c ∧ valueOf c ≤ 1 / 2

theorem inv_2048_le_exp_neg_seven : ((1 / 2048 : ℚ) : ℝ) ≤ Real.exp (-7) := by
  have he : Real.exp 7 ≤ 2048 := by
    calc Real.exp 7 = Real.exp 1 ^ 7 := by rw [← Real.exp_nat_mul]; norm_num
      _ ≤ 2.7182818286 ^ 7 := pow_le_pow_left₀ (Real.exp_pos 1).le Real.exp_one_lt_d9.le 7
      _ ≤ 2048 := by norm_num
  rw [Real.exp_neg, ← one_div]
  push_cast
  exact one_div_le_one_div_of_le (Real.exp_pos 7) he

/-- The exponential of a rate's time constant, in [2^-11, 1]. -/
theorem exp64_slope_bounds {rate e : Word} (hr : isFinite rate = true) (h0 : 0 ≤ valueOf rate)
    (h99 : valueOf rate ≤ 99)
    (he : e = exp64 .binary64 (fneg (fmul .binary64 Config.default.kSlope rate))) :
    isFinite e = true ∧ 1 / 2048 ≤ valueOf e ∧ valueOf e ≤ 1 := by
  subst he
  have hk : 0 ≤ valueOf Config.default.kSlope ∧ valueOf Config.default.kSlope ≤ 7 / 99 := by
    decide +kernel
  obtain ⟨hk0, hk7⟩ := hk
  have rep7 : Representable 7 := ⟨0x401C000000000000#64, by decide +kernel⟩
  obtain ⟨hp, hp0, hp7⟩ := fmul_keepsBounds (by decide +kernel) hr 0 7 representable_zero rep7
    (mul_nonneg hk0 h0) (by nlinarith)
  have hneg := valueOf_fneg hp
  obtain ⟨he, he1, hlow⟩ := exp64_bounds (isFinite_fneg hp) (by linarith) (by linarith)
  have rep : Representable (1 / 2048) := ⟨0x3F40000000000000#64, by decide +kernel⟩
  refine ⟨he, hlow _ rep ?_, he1⟩
  have hx : (-7 : ℝ) ≤ valueOf (fneg (fmul .binary64 Config.default.kSlope rate)) := by
    rw [hneg]
    exact_mod_cast neg_le_neg hp7
  exact inv_2048_le_exp_neg_seven.trans (Real.exp_le_exp.2 hx)

/-- One less the exponential of a small negative number is in [0, 1/2]. -/
theorem one_sub_exp64_inHalf {y : Word} (hy : isFinite y = true) (h0 : 0 ≤ valueOf y)
    (h16 : valueOf y ≤ 1 / 16) :
    InHalf (fsub .binary64 Word.one (exp64 .binary64 (fneg y))) := by
  have hneg := valueOf_fneg hy
  obtain ⟨he, he1, hlow⟩ := exp64_bounds (isFinite_fneg hy) (by linarith) (by linarith)
  have rep : Representable (1 / 2) := ⟨0x3FE0000000000000#64, by decide +kernel⟩
  have hexp : ((1 / 2 : ℚ) : ℝ) ≤ Real.exp (valueOf (fneg y)) := by
    refine le_trans ?_ (Real.add_one_le_exp _)
    rw [hneg]
    exact_mod_cast (by linarith : (1 / 2 : ℚ) ≤ -valueOf y + 1)
  have hhalf := hlow _ rep hexp
  exact fsub_keepsBounds (a := Word.one) (by decide +kernel) he 0 (1 / 2) representable_zero rep
    (by rw [valueOf_one]; linarith) (by rw [valueOf_one]; linarith)

/-- The coefficient of a rate and a sample rate of the admitted domain is in [0, 1/2]: its time
constant is 1/256 s at least, so the exponent of its last exponential is between -1/16 and 0. -/
theorem coefOf_inHalf {cfg : Config} (hcfg : cfg.Admitted) {rate fs : Word}
    (hrate : rateInDomain cfg rate = true) (hfs : sampleRateInDomain cfg fs = true) :
    InHalf (coefOf cfg fs rate) := by
  obtain ⟨hr, hr0, hr99⟩ := (rateInDomain_iff hcfg).1 hrate
  obtain ⟨hf, hf8, hf384⟩ := (sampleRateInDomain_iff hcfg).1 hfs
  obtain ⟨hfmt, hT0, hslope, -⟩ := hcfg
  obtain ⟨he1, he1low, he1high⟩ := exp64_slope_bounds hr hr0 hr99 rfl
  unfold coefOf coefWith
  rw [hfmt, hT0, hslope]
  dsimp only
  generalize exp64 .binary64 (fneg (fmul .binary64 Config.default.kSlope rate)) = e1 at *
  have hT : valueOf Config.default.kT0 = 10 := by decide +kernel
  have rep10 : Representable 10 := ⟨0x4024000000000000#64, by decide +kernel⟩
  have rep256 : Representable (1 / 256) := ⟨0x3F70000000000000#64, by decide +kernel⟩
  have rep16 : Representable 16 := ⟨0x4030000000000000#64, by decide +kernel⟩
  have rep2p22 : Representable 4194304 := ⟨0x4150000000000000#64, by decide +kernel⟩
  have rep16th : Representable (1 / 16) := ⟨0x3FB0000000000000#64, by decide +kernel⟩
  obtain ⟨ht, htlow, hthigh⟩ := fmul_keepsBounds (a := Config.default.kT0) (by decide +kernel) he1
    (1 / 256) 10 rep256 rep10 (by rw [hT]; linarith) (by rw [hT]; linarith)
  generalize fmul .binary64 Config.default.kT0 e1 = t at *
  obtain ⟨hq, hqlow, -⟩ := fmul_keepsBounds ht hf 16 4194304 rep16 rep2p22 (by nlinarith)
    (by nlinarith)
  generalize fmul .binary64 t fs = q at *
  have hq0 : 0 < valueOf q := by linarith
  obtain ⟨hy, hy0, hy16⟩ := fdiv_keepsBounds (a := Word.one) (by decide +kernel) hq hq0.ne' 0
    (1 / 16) representable_zero rep16th (by rw [valueOf_one]; positivity)
    (by rw [valueOf_one]; exact one_div_le_one_div_of_le (by norm_num) hqlow)
  generalize fdiv .binary64 Word.one q = y at *
  exact one_sub_exp64_inHalf hy hy0 hy16

/-! The level invariant (10_state R34). -/

theorem Quad.all_iff {q : Quad} {p : Word → Bool} :
    q.all p = true ↔ p q.v1 = true ∧ p q.v2 = true ∧ p q.v3 = true ∧ p q.v4 = true := by
  simp only [Quad.all, Bool.and_eq_true, and_assoc]

/-- The recomputation derives the coefficients, if they were not written before their inputs. -/
theorem recompute_derived (cfg : Config) {e : Envelope}
    (h : e.coefMark = .written → e.rateMark = .written ∧ e.fsMark = .written) :
    (e.recompute cfg).Derived cfg := by
  obtain ⟨hr, hf, heq⟩ | ⟨hn, heq⟩ := recompute_cases cfg e <;> rw [heq]
  · exact ⟨⟨fun _ => ⟨hr, hf⟩, fun _ => rfl⟩, fun _ => rfl⟩
  · exact ⟨⟨h, fun hw => absurd hw hn⟩, fun hc => absurd (h hc) hn⟩

/-- Every command keeps the coefficients derived: the two that write an input of theirs recompute
(40_configuration R84). -/
theorem after_keeps_derived {cfg : Config} {e : Envelope} (i : Instr) (h : e.Derived cfg) :
    (e.after cfg i).Derived cfg := by
  have ⟨hmarks, _⟩ := h
  cases i with
  | setRates => exact recompute_derived cfg fun hc => ⟨rfl, (hmarks.1 hc).2⟩
  | setLevels => exact h
  | setSampleRate => exact recompute_derived cfg fun hc => ⟨(hmarks.1 hc).1, rfl⟩
  | noteOn => exact h
  | noteOff =>
    rw [Envelope.after]
    obtain ⟨-, hg⟩ | ⟨-, hg⟩ := gateOff_cases e <;> rw [hg] <;> exact h
  | process =>
    simpa only [Envelope.Derived, Envelope.after, sample_coefMark, sample_rateMark, sample_fsMark,
      sample_coef, sample_rate, sample_fs] using h
  | isActive => exact h

theorem zero_inUnit : inUnit Word.zero = true := by decide +kernel

theorem approached_inUnit {a b c : Word} (ha : inUnit a = true) (hb : inUnit b = true)
    (hc : InHalf c) : inUnit (approached .binary64 a c b) = true := by
  obtain ⟨hfc, hc0, hc1⟩ := hc
  obtain ⟨hfin, hmin, hmax⟩ := approached_between ha hb hfc hc0 hc1
  obtain ⟨-, ha0, ha1⟩ := inUnit_iff.1 ha
  obtain ⟨-, hb0, hb1⟩ := inUnit_iff.1 hb
  exact inUnit_iff.2 ⟨hfin, (le_min ha0 hb0).trans hmin, hmax.trans (max_le ha1 hb1)⟩

/-- What `State.LevelInv` says of one envelope. -/
def Envelope.LevelOk (cfg : Config) (e : Envelope) : Prop :=
  e.Derived cfg ∧ e.InDomains cfg ∧ inUnit e.level = true

theorem levelOk_reset (cfg : Config) : Envelope.reset.LevelOk cfg :=
  ⟨derived_reset cfg, inDomains_reset cfg, zero_inUnit⟩

theorem levelInv_iff {s : State} :
    s.LevelInv ↔ s.cfg.Admitted ∧ s.Every (Envelope.LevelOk s.cfg) := Iff.rfl

section level
variable {cfg : Config} {e : Envelope} (hcfg : cfg.Admitted)
include hcfg

theorem coef_inHalf (hd : e.Derived cfg) (hi : e.InDomains cfg) (hm : e.coefMark = .written) :
    InHalf e.coef.v1 ∧ InHalf e.coef.v2 ∧ InHalf e.coef.v3 ∧ InHalf e.coef.v4 := by
  obtain ⟨hmarks, hcoef⟩ := hd
  obtain ⟨hrate, -, hfs⟩ := hi
  obtain ⟨hrm, hfm⟩ := hmarks.1 hm
  obtain ⟨h1, h2, h3, h4⟩ := Quad.all_iff.1 (hrate hrm)
  have hf := hfs hfm
  rw [hcoef hm]
  exact ⟨coefOf_inHalf hcfg h1 hf, coefOf_inHalf hcfg h2 hf, coefOf_inHalf hcfg h3 hf,
    coefOf_inHalf hcfg h4 hf⟩

theorem lvl_inUnit (hi : e.InDomains cfg) (hm : e.lvlMark = .written) :
    inUnit e.lvl.v1 = true ∧ inUnit e.lvl.v2 = true ∧ inUnit e.lvl.v3 = true ∧
    inUnit e.lvl.v4 = true := by
  obtain ⟨-, hlvl, -⟩ := hi
  simpa only [Quad.all_iff, levelInDomain_eq_inUnit hcfg] using hlvl hm

/-- The release target is +0.0, or a level that the programming check has found written. -/
theorem releaseTarget_inUnit (hi : e.InDomains cfg) (hs : e.stage = .release)
    (hp : e.programmed cfg = true) :
    e.coefMark = .written ∧ inUnit (releaseTarget cfg e) = true := by
  simp only [Envelope.programmed, hs] at hp
  unfold releaseTarget
  cases ht : cfg.releaseTarget with
  | zero =>
    simp only [ht, decide_eq_true_eq] at hp
    exact ⟨hp, zero_inUnit⟩
  | level4 =>
    simp only [ht, decide_eq_true_eq] at hp
    obtain ⟨hc, hl⟩ := hp
    obtain ⟨-, -, -, h4⟩ := lvl_inUnit hcfg hi hl
    exact ⟨hc, h4⟩

/-- A sample that the programming check admits keeps the level in [0, 1], arm by arm. -/
theorem sample_level_inUnit (h : e.LevelOk cfg) (hp : e.programmed cfg = true) :
    inUnit (e.sample cfg).level = true := by
  obtain ⟨hd, hi, hu⟩ := h
  have ⟨hfmt, _⟩ := hcfg
  have marks (hs : e.stage = .attack ∨ e.stage = .decay1 ∨ e.stage = .decay2) :
      e.coefMark = .written ∧ e.lvlMark = .written := by
    obtain hs | hs | hs := hs <;> simpa only [Envelope.programmed, hs, decide_eq_true_eq] using hp
  cases hs : e.stage with
  | idle => rwa [sample_of_idle hs]
  | attack =>
    obtain ⟨hc, hl⟩ := marks (.inl hs)
    obtain ⟨hc1, -⟩ := coef_inHalf hcfg hd hi hc
    obtain ⟨hl1, -⟩ := lvl_inUnit hcfg hi hl
    rw [sample_of_attack hs, Envelope.attackArm, hfmt]
    exact approached_inUnit hu hl1 hc1
  | decay1 =>
    obtain ⟨hc, hl⟩ := marks (.inr (.inl hs))
    obtain ⟨-, hc2, -⟩ := coef_inHalf hcfg hd hi hc
    obtain ⟨-, hl2, -⟩ := lvl_inUnit hcfg hi hl
    rw [sample_of_decay1 hs, Envelope.decay1Arm, hfmt]
    exact approached_inUnit hu hl2 hc2
  | decay2 =>
    obtain ⟨hc, hl⟩ := marks (.inr (.inr hs))
    obtain ⟨-, -, hc3, -⟩ := coef_inHalf hcfg hd hi hc
    obtain ⟨-, -, hl3, -⟩ := lvl_inUnit hcfg hi hl
    rw [sample_of_decay2 hs, Envelope.decay2Arm, hfmt]
    exact approached_inUnit hu hl3 hc3
  | sustain =>
    rw [sample_of_sustain hs]
    simp only [Envelope.programmed, hs] at hp
    unfold Envelope.sustainArm
    cases hm : cfg.sustainMode with
    | freeze => exact hu
    | trackL3 =>
      simp only [hm, decide_eq_true_eq] at hp
      obtain ⟨-, -, hl3, -⟩ := lvl_inUnit hcfg hi hp
      exact hl3
  | release =>
    obtain ⟨hc, ht⟩ := releaseTarget_inUnit hcfg hi hs hp
    obtain ⟨-, -, -, hc4⟩ := coef_inHalf hcfg hd hi hc
    rw [sample_of_release hs]
    obtain ⟨-, ha⟩ | ⟨-, ha⟩ := releaseArm_cases (cfg := cfg) (e := e) <;> rw [ha]
    · exact zero_inUnit
    · rw [hfmt]
      exact approached_inUnit hu ht hc4

/-- Only noteOn and process write the level (10_state R25). -/
theorem after_level_inUnit {i : Instr} (hp : i = .process → e.programmed cfg = true)
    (h : e.LevelOk cfg) : inUnit (e.after cfg i).level = true := by
  have ⟨_, _, hu⟩ := h
  cases i with
  | setRates => simpa only [Envelope.after, Envelope.writeRates, recompute_level] using hu
  | setLevels => exact hu
  | setSampleRate => simpa only [Envelope.after, Envelope.writeSampleRate, recompute_level] using hu
  | noteOn => exact zero_inUnit
  | noteOff =>
    rw [Envelope.after]
    obtain ⟨-, hg⟩ | ⟨-, hg⟩ := gateOff_cases e <;> rw [hg] <;> exact hu
  | process => exact sample_level_inUnit hcfg h (hp rfl)
  | isActive => exact hu

theorem after_keeps_levelOk {i : Instr} (hw : i.wellFormed cfg = true)
    (hp : i = .process → e.programmed cfg = true) (h : e.LevelOk cfg) :
    (e.after cfg i).LevelOk cfg := by
  have ⟨hd, hi, _⟩ := h
  have ⟨hfmt, _⟩ := hcfg
  exact ⟨after_keeps_derived i hd, after_keeps_inDomains hfmt hw hi, after_level_inUnit hcfg hp h⟩

end level

end Sys2Proof.Machine

namespace Sys2Proof.Proofs

open Sys2Proof.Machine

/-- Settles O40: of the reset envelope the invariant holds, and every command keeps it, since the
coefficients are in [0, 1/2] and so no approach overshoots its target. -/
theorem levelStaysInUnitInterval : Obligations.LevelStaysInUnitInterval := by
  intro s t hinv h
  obtain ⟨hcfg, hs⟩ := levelInv_iff.1 hinv
  rw [levelInv_iff, step_keeps_cfg h]
  exact ⟨hcfg, step_keeps_every (levelOk_reset _)
    (fun _ _ hw hp => after_keeps_levelOk hcfg hw hp) hs h⟩

/-- Settles O41: the invariants hold of the reset envelope, which every one of them then is. -/
theorem invariantsHoldAtReset : Obligations.InvariantsHoldAtReset := by
  refine ⟨levelInv_iff.2 ⟨default_admitted, fun k => ?_⟩, fun k => ?_, List.length_replicate,
    rfl⟩ <;> rw [inst_reset]
  · exact levelOk_reset _
  · exact fun _ => rfl

end Sys2Proof.Proofs

/-!
SUPPORT and PROOFS. 20_memory: serialised commands (R51), the parameter addresses (R47, R48) and
idempotent commands (R53).
-/

namespace Sys2Proof

/-! Serialised commands (20_memory R51, 30_encoding R61 to R64). -/

/-- The eight bytes of a word spell it. -/
theorem wordsOfBytes_bytesOfWord_append (w : Word) (bs : List Byte) :
    wordsOfBytes (bytesOfWord w ++ bs) = w :: wordsOfBytes bs := by
  have spelled : w.extractLsb' 56 8 ++ w.extractLsb' 48 8 ++ w.extractLsb' 40 8 ++
      w.extractLsb' 32 8 ++ w.extractLsb' 24 8 ++ w.extractLsb' 16 8 ++ w.extractLsb' 8 8 ++
      w.extractLsb' 0 8 = w := by
    iterate 7 rw [BitVec.extractLsb'_append_extractLsb'_eq_extractLsb' (by rfl)]
    exact BitVec.extractLsb'_eq_self
  exact congrArg (· :: wordsOfBytes bs) spelled

theorem wordsOfBytes_flatMap_append (ws : List Word) (bs : List Byte) :
    wordsOfBytes (ws.flatMap bytesOfWord ++ bs) = ws ++ wordsOfBytes bs := by
  induction ws with
  | nil => rfl
  | cons w ws ih =>
    rw [List.flatMap_cons, List.append_assoc, wordsOfBytes_bytesOfWord_append, ih, List.cons_append]

theorem decode_encode_append (i : Instr) (ws : List Word) :
    decode (encode i ++ ws) = .ok (i, ws) := by
  cases i <;> rfl

@[simp] theorem length_encode (i : Instr) : (encode i).length = i.words := by
  cases i <;> rfl

@[simp] theorem length_encodeBytes (i : Instr) : (encodeBytes i).length = 8 * i.words := by
  have eight (w : Word) : (bytesOfWord w).length = 8 := rfl
  simp [encodeBytes, List.length_flatMap, eight, Nat.mul_comm]

end Sys2Proof

namespace Sys2Proof.Machine

/-! The parameter addresses (20_memory R47, R48). -/

/-- An address read as `paramTarget` reads it: the operator's block of 100, and the offset in it. -/
theorem block_and_offset {a k d : Nat} (ha : a = 100 + 100 * k + d) (hd : d < 100) :
    ¬a < 100 ∧ (a - 100) / 100 = k ∧ (a - 100) % 100 = d := by
  omega

theorem paramTarget_paramAddress (p : ParamTarget) : paramTarget (paramAddress p) = some p := by
  cases p with
  | rate k j =>
    have hrate : 10 + j.val < 14 := by omega
    obtain ⟨hlow, hblock, hoffset⟩ :=
      block_and_offset (a := paramAddress (.rate k j)) (Nat.add_assoc _ 10 j.val) (by omega)
    simp [paramTarget, hlow, hblock, hoffset, hrate]
  | level k j =>
    have hrate : ¬20 + j.val < 14 := by omega
    have hlevel : 20 + j.val < 24 := by omega
    obtain ⟨hlow, hblock, hoffset⟩ :=
      block_and_offset (a := paramAddress (.level k j)) (Nat.add_assoc _ 20 j.val) (by omega)
    simp [paramTarget, hlow, hblock, hoffset, hrate, hlevel]

/-- Only the address of a target reaches it. -/
theorem eq_paramAddress_of_paramTarget {a : Nat} {p : ParamTarget} (h : paramTarget a = some p) :
    a = paramAddress p := by
  simp only [paramTarget] at h
  split_ifs at h with hlow hk hr hl
  · cases h; simp only [paramAddress]; omega
  · cases h; simp only [paramAddress]; omega

theorem paramTarget_eq_some_iff (a : Nat) (p : ParamTarget) :
    paramTarget a = some p ↔ a = paramAddress p :=
  ⟨eq_paramAddress_of_paramTarget, fun h => h ▸ paramTarget_paramAddress p⟩

@[simp] theorem clampOperator_val (k : Fin 6) : clampOperator k.val = k := by
  apply Fin.ext
  simp only [clampOperator]
  omega

section parameterWrite
variable (view : EnvView) (s : State) (x : Word)

/-- A write at the address of a rate is the write of all four rates of its operator. -/
theorem expand_parameterWrite_rate (k : Fin 6) (j : Fin 4) :
    expand view s (.parameterWrite (paramAddress (.rate k j)) x) =
      expand view s (.envelopeRates k.val (view.rates[k.val].replace j x)) := by
  simp only [expand, paramTarget_paramAddress, clampOperator_val]

/-- A write at the address of a level is the write of all four levels of its operator. -/
theorem expand_parameterWrite_level (k : Fin 6) (j : Fin 4) :
    expand view s (.parameterWrite (paramAddress (.level k j)) x) =
      expand view s (.envelopeLevels k.val (view.levels[k.val].replace j x)) := by
  simp only [expand, paramTarget_paramAddress, clampOperator_val]

theorem expand_parameterWrite_other {a : Nat} (h : ∀ p, a ≠ paramAddress p) :
    expand view s (.parameterWrite a x) = [] := by
  have hnone : paramTarget a = none :=
    Option.eq_none_iff_forall_ne_some.2 fun p hp => h p (eq_paramAddress_of_paramTarget hp)
  simp only [expand, hnone]

end parameterWrite

/-! A command done twice (20_memory R53). -/

section idempotent
variable (cfg : Config) (e : Envelope)

@[simp] theorem recompute_recompute : (e.recompute cfg).recompute cfg = e.recompute cfg := by
  obtain ⟨hrate, hfs, h⟩ | ⟨-, h⟩ := recompute_cases cfg e
  · rw [h, Envelope.recompute, if_pos ⟨hrate, hfs⟩]
  · rw [h, h]

/-- Writing the rates that an envelope holds recomputes, and nothing else. -/
theorem writeRates_of_held {q : Quad} (hq : e.rate = narrowed cfg q) (hm : e.rateMark = .written) :
    e.writeRates cfg q = e.recompute cfg := by
  rw [Envelope.writeRates, ← hq, ← hm]

/-- Writing the sample rate that an envelope holds recomputes, and nothing else. -/
theorem writeSampleRate_of_held {fs : Word} (hf : e.fs = narrow cfg.fmt fs)
    (hm : e.fsMark = .written) : e.writeSampleRate cfg fs = e.recompute cfg := by
  rw [Envelope.writeSampleRate, ← hf, ← hm]

theorem writeRates_writeRates (q : Quad) :
    (e.writeRates cfg q).writeRates cfg q = e.writeRates cfg q := by
  rw [writeRates_of_held cfg (e.writeRates cfg q) (recompute_rate _ _) (recompute_rateMark _ _),
    Envelope.writeRates, recompute_recompute]

theorem writeSampleRate_writeSampleRate (fs : Word) :
    (e.writeSampleRate cfg fs).writeSampleRate cfg fs = e.writeSampleRate cfg fs := by
  rw [writeSampleRate_of_held cfg (e.writeSampleRate cfg fs) (recompute_fs _ _)
    (recompute_fsMark _ _), Envelope.writeSampleRate, recompute_recompute]

theorem gateOff_gateOff : e.gateOff.gateOff = e.gateOff := by
  obtain ⟨-, h⟩ | ⟨-, h⟩ := gateOff_cases e
  · rw [h, h]
  · rw [h]; rfl

/-- Every command but process leaves of an envelope, done twice, what it leaves done once. -/
theorem after_after {i : Instr} (h : i ≠ .process) :
    (e.after cfg i).after cfg i = e.after cfg i := by
  cases i with
  | setRates => exact writeRates_writeRates cfg e _
  | setLevels => rfl
  | setSampleRate => exact writeSampleRate_writeSampleRate cfg e _
  | noteOn => rfl
  | noteOff => exact gateOff_gateOff e
  | process => exact absurd rfl h
  | isActive => rfl

/-- Every command but process responds the same when it is done again. -/
theorem answer_after {i : Instr} (h : i ≠ .process) :
    (e.after cfg i).answer cfg i = e.answer cfg i := by
  cases i with
  | process => exact absurd rfl h
  | _ => rfl

end idempotent

end Sys2Proof.Machine

namespace Sys2Proof.Proofs

open Sys2Proof.Machine

/-- Settles O8: the bytes of the words of a command spell these words again, whole groups of eight,
and decoding inverts encoding. -/
theorem decodeEncodeBytes : Obligations.DecodeEncodeBytes := by
  intro i rest
  have hdecode : decode (wordsOfBytes (encodeBytes i ++ rest)) = .ok (i, wordsOfBytes rest) := by
    rw [encodeBytes, wordsOfBytes_flatMap_append, decode_encode_append]
  have hdrop : (encodeBytes i ++ rest).drop (8 * i.words) = rest :=
    List.drop_left' (length_encodeBytes i)
  simp only [decodeBytes, hdecode, hdrop]

/-- Settles O18: done again, the command finds the envelope it left, and leaves it with the same
response. -/
theorem commandsButProcessAreIdempotent : Obligations.CommandsButProcessAreIdempotent := by
  intro i s t hi h
  obtain ⟨hw, -, rfl⟩ := exec_next h
  rw [exec_of_wellFormed (s := s.finish _ _) hw fun hp => absurd hp hi, finish_current, finish_cfg,
    after_after _ _ hi, answer_after _ _ hi, finish_again]

/-- Settles O58: `paramTarget` inverts `paramAddress`, and the four registers of an operator have
consecutive addresses. -/
theorem parameterAddresses : Obligations.ParameterAddresses := by
  refine ⟨paramTarget_eq_some_iff, fun k j => ⟨rfl, rfl⟩, fun view s x => ⟨?_, ?_, ?_⟩⟩
  · rintro k q rfl
    have hwrite := expand_parameterWrite_rate view s x k
    exact ⟨hwrite 0, hwrite 1, hwrite 2, hwrite 3⟩
  · rintro k q rfl
    have hwrite := expand_parameterWrite_level view s x k
    exact ⟨hwrite 0, hwrite 1, hwrite 2, hwrite 3⟩
  · exact fun a ha => expand_parameterWrite_other view s x ha

end Sys2Proof.Proofs

/-!
SUPPORT and PROOFS. 30_encoding: the decoder (R61 to R68), what a step makes of the words presented
(R66, R67, R73), and the commands of the environment's operations (R72).
-/

namespace Sys2Proof

/-! What the decoder makes of a header and the words after it (30_encoding R62, R66 to R68). -/

/-- The opcodes by their payload: the reserved ones of R66, and the formats H4, H1 and H0. -/
theorem payloadWords_cases (op : BitVec 4) :
    ((op = 0 ∨ 8 ≤ op.toNat) ∧ payloadWords op = none) ∨
    ((op = 1 ∨ op = 2) ∧ payloadWords op = some 4) ∨
    (op = 3 ∧ payloadWords op = some 1) ∨
    ((op = 4 ∨ op = 5 ∨ op = 6 ∨ op = 7) ∧ payloadWords op = some 0) := by
  revert op
  decide

theorem payloadWords_eq_none_iff (op : BitVec 4) :
    payloadWords op = none ↔ op = 0 ∨ 8 ≤ op.toNat := by
  revert op
  decide

/-- The two fields of a header are the whole of it. -/
theorem header_headerOp {h : Word} (hr : headerRsv h = 0) : header (headerOp h) = h := by
  have hfields : headerRsv h ++ headerOp h = h := by
    rw [headerRsv, headerOp, BitVec.extractLsb'_append_extractLsb'_eq_extractLsb' (by rfl)]
    exact BitVec.extractLsb'_eq_self
  rwa [hr] at hfields

section opcode
variable {op : BitVec 4} {ws : List Word} {n : Nat}

theorem decodePayload_of_reserved (hop : payloadWords op = none) (ws : List Word) :
    decodePayload op ws = .error .reservedOpcode := by
  unfold decodePayload
  split
  case h_11 => rfl
  -- Every arm before the last is of an opcode that `payloadWords` gives a length.
  all_goals simp_all [payloadWords]

/-- A payload cut short, of a format that has one (log 11). -/
theorem decodePayload_of_short (hop : payloadWords op = some n) (hlen : ws.length < n) :
    decodePayload op ws = .error .incomplete := by
  obtain ⟨-, h⟩ | ⟨rfl | rfl, h⟩ | ⟨rfl, h⟩ | ⟨-, h⟩ := payloadWords_cases op <;>
    rw [h] at hop <;> cases hop
  · match ws, hlen with
    | [], _ | [_], _ | [_, _], _ | [_, _, _], _ => rfl
  · match ws, hlen with
    | [], _ | [_], _ | [_, _], _ | [_, _, _], _ => rfl
  · match ws, hlen with
    | [], _ => rfl
  · exact absurd hlen (Nat.not_lt_zero _)

/-- A header with its whole payload begins with the words of a command. -/
theorem exists_encode (hop : payloadWords op = some n) (hlen : n ≤ ws.length) :
    ∃ i, header op :: ws = encode i ++ ws.drop n ∧ i.words = n + 1 := by
  obtain ⟨-, h⟩ | ⟨rfl | rfl, h⟩ | ⟨rfl, h⟩ | ⟨rfl | rfl | rfl | rfl, h⟩ :=
    payloadWords_cases op <;> rw [h] at hop <;> cases hop
  · match ws, hlen with
    | r1 :: r2 :: r3 :: r4 :: _, _ => exact ⟨.setRates r1 r2 r3 r4, rfl, rfl⟩
  · match ws, hlen with
    | l1 :: l2 :: l3 :: l4 :: _, _ => exact ⟨.setLevels l1 l2 l3 l4, rfl, rfl⟩
  · match ws, hlen with
    | fs :: _, _ => exact ⟨.setSampleRate fs, rfl, rfl⟩
  · exact ⟨.noteOn, rfl, rfl⟩
  · exact ⟨.noteOff, rfl, rfl⟩
  · exact ⟨.process, rfl, rfl⟩
  · exact ⟨.isActive, rfl, rfl⟩

end opcode

section header
variable {h : Word} {ws : List Word} {n : Nat}

theorem decode_of_reservedBits (hr : headerRsv h ≠ 0) (ws : List Word) :
    decode (h :: ws) = .error .reservedBits := if_neg hr

theorem decode_of_reservedOpcode (hr : headerRsv h = 0) (hop : payloadWords (headerOp h) = none)
    (ws : List Word) : decode (h :: ws) = .error .reservedOpcode :=
  (if_pos hr).trans (decodePayload_of_reserved hop ws)

theorem decode_of_short (hr : headerRsv h = 0) (hop : payloadWords (headerOp h) = some n)
    (hlen : ws.length < n) : decode (h :: ws) = .error .incomplete :=
  (if_pos hr).trans (decodePayload_of_short hop hlen)

/-- A header that is not reserved, with its whole payload, decodes to the command these words are
the encoding of. -/
theorem decode_of_whole (hr : headerRsv h = 0) (hop : payloadWords (headerOp h) = some n)
    (hlen : n ≤ ws.length) :
    ∃ i, decode (h :: ws) = .ok (i, ws.drop n) ∧ h :: ws = encode i ++ ws.drop n ∧
      i.words = n + 1 := by
  obtain ⟨i, hwords, hn⟩ := exists_encode hop hlen
  rw [header_headerOp hr] at hwords
  exact ⟨i, by rw [hwords, decode_encode_append], hwords, hn⟩

end header

/-- What decodes to a command begins with its encoding: of the four readings of a header only the
whole command is no error. -/
theorem eq_encode_append_of_decode {ws rest : List Word} {i : Instr}
    (hd : decode ws = .ok (i, rest)) : ws = encode i ++ rest := by
  cases ws with
  | nil => cases hd
  | cons h ws =>
    by_cases hr : headerRsv h = 0
    · cases hop : payloadWords (headerOp h) with
      | none => rw [decode_of_reservedOpcode hr hop] at hd; cases hd
      | some n =>
        obtain hlen | hlen := Nat.lt_or_ge ws.length n
        · rw [decode_of_short hr hop hlen] at hd; cases hd
        · obtain ⟨j, hj, hwords, -⟩ := decode_of_whole hr hop hlen
          rw [hj] at hd
          cases hd
          exact hwords
    · rw [decode_of_reservedBits hr] at hd; cases hd

end Sys2Proof

namespace Sys2Proof.Machine

/-! A step at a port that is idle or has words (30_encoding R61, R66, R67, R73). -/

section port
variable {s : State} {inp : Input} {rest : List Input}

theorem step_of_idle (hs : s.stream = inp :: rest) (hr : inp.reset = false) (hw : inp.words = []) :
    step s = .next { s with stream := rest } := by
  simp only [step, State.take, hs, hr, hw, and_self, if_true]

theorem step_of_decode_ok {i : Instr} {left : List Word} (hs : s.stream = inp :: rest)
    (hh : s.has inp.inst = true) (hr : inp.reset = false) (hd : decode inp.words = .ok (i, left)) :
    step s = exec i { s with sel := inp.inst, stream := streamAfter inp left rest } := by
  have hw : inp.words ≠ [] := fun hnil => by rw [hnil] at hd; cases hd
  simp [step, State.take, hs, hh, hr, hw, hd]

theorem step_of_decode_error {d : DecodeError} (hs : s.stream = inp :: rest)
    (hh : s.has inp.inst = true) (hr : inp.reset = false) (hw : inp.words ≠ [])
    (hd : decode inp.words = .error d) : step s = .refused (refusalOf d) := by
  simp [step, State.take, hs, hh, hr, hw, hd]

/-- A refused step leaves its mark in the run, shows nothing and changes no register
(60_exceptions R133). -/
theorem advance_of_refused {r : Run} {e : Refusal} (hs : r.state.stream = inp :: rest)
    (h : step r.state = .refused e) :
    r.advance.refusals = r.refusals ++ [⟨r.position, inp.inst, e⟩] ∧
    r.advance.shown = r.shown ∧ ∀ k, r.advance.state.inst k = r.state.inst k := by
  obtain ⟨t, v, ht, -⟩ | ⟨inp', rest', e', hs', he, hmark, -, hshown, -, hinsts⟩ |
    ⟨inp', rest', f, -, hf, -⟩ := advance_cases r
  · rw [h] at ht; cases ht
  · rw [hs] at hs'; cases hs'
    rw [h] at he; cases he
    exact ⟨hmark, hshown, fun k => by rw [State.inst, State.inst, hinsts]⟩
  · rw [h] at hf; cases hf

end port

/-! The clamps of the environment (30_encoding R72, 20_memory R49). -/

theorem flt_iff {a b : Word} (ha : isFinite a = true) (hb : isFinite b = true) :
    flt a b = true ↔ valueOf a < valueOf b := by
  obtain ⟨sa, ma, ha⟩ := isFinite_iff.1 ha
  obtain ⟨sb, mb, hb⟩ := isFinite_iff.1 hb
  obtain ⟨x, hx, hvx⟩ := orderKey_of_unpack ha
  obtain ⟨y, hy, hvy⟩ := orderKey_of_unpack hb
  have hU : (0 : ℚ) < unitsPerOne := by exact_mod_cast unitsPerOne_pos
  rw [hvx, hvy, div_lt_div_iff_of_pos_right hU, Int.cast_lt]
  simp only [flt, hx, hy, decide_eq_true_eq]

theorem clampOperator_cases (k : Int) :
    (k < 0 → clampOperator k = 0) ∧
    (0 ≤ k → k ≤ 5 → ((clampOperator k).val : Int) = k) ∧
    (5 < k → clampOperator k = 5) := by
  refine ⟨fun h => Fin.ext ?_, fun h0 h5 => ?_, fun h => Fin.ext ?_⟩ <;>
    simp only [clampOperator] <;> omega

section clamp
variable {low high x : Word}

/-- The clamp of a finite value: the value in its domain, or the bound on its side of it. -/
theorem clampValue_cases (hl : isFinite low = true) (hh : isFinite high = true)
    (hx : isFinite x = true) :
    (valueOf x < valueOf low ∧ clampValue low high x = low) ∨
    (valueOf low ≤ valueOf x ∧ valueOf high < valueOf x ∧ clampValue low high x = high) ∨
    (valueOf low ≤ valueOf x ∧ valueOf x ≤ valueOf high ∧ clampValue low high x = x) := by
  unfold clampValue
  simp only [flt_iff hx hl, flt_iff hh hx]
  split_ifs with h1 h2
  · exact .inl ⟨h1, rfl⟩
  · exact .inr (.inl ⟨not_lt.1 h1, h2, rfl⟩)
  · exact .inr (.inr ⟨not_lt.1 h1, not_lt.1 h2, rfl⟩)

theorem clampValue_clampsTo (hl : isFinite low = true) (hh : isFinite high = true)
    (hle : valueOf low ≤ valueOf high) (hx : isFinite x = true) :
    ClampsTo low high x (clampValue low high x) := by
  unfold ClampsTo
  rw [inDomain_iff hl hh, flt_iff hx hl, flt_iff hh hx]
  obtain ⟨hlow, h⟩ | ⟨hge, hhigh, h⟩ | ⟨hge, hle', h⟩ := clampValue_cases hl hh hx <;> rw [h]
  · exact ⟨fun hd => by linarith [hd.2.1], fun _ => rfl, fun hhigh => by linarith⟩
  · exact ⟨fun hd => by linarith [hd.2.2], fun hlow => by linarith, fun _ => rfl⟩
  · exact ⟨fun _ => rfl, fun hlow => by linarith, fun hhigh => by linarith⟩

theorem clampValue_inDomain (hl : isFinite low = true) (hh : isFinite high = true)
    (hle : valueOf low ≤ valueOf high) (hx : isFinite x = true) :
    inDomain low high (clampValue low high x) = true := by
  rw [inDomain_iff hl hh]
  obtain ⟨-, h⟩ | ⟨-, -, h⟩ | ⟨hge, hle', h⟩ := clampValue_cases hl hh hx <;> rw [h]
  · exact ⟨hl, le_rfl, hle⟩
  · exact ⟨hh, hle, le_rfl⟩
  · exact ⟨hx, hge, hle'⟩

/-- Four clamped operands: the nearest to each in its domain, and in it. -/
theorem clampQuad_spec (hl : isFinite low = true) (hh : isFinite high = true)
    (hle : valueOf low ≤ valueOf high) {q : Quad} (hq : q.all isFinite = true) :
    q.Pairs (ClampsTo low high) (q.map (clampValue low high)) ∧
    (q.map (clampValue low high)).all (inDomain low high) = true := by
  obtain ⟨h1, h2, h3, h4⟩ := Quad.all_iff.1 hq
  have hclamps {x : Word} := clampValue_clampsTo (x := x) hl hh hle
  have hdomain {x : Word} := clampValue_inDomain (x := x) hl hh hle
  exact ⟨⟨hclamps h1, hclamps h2, hclamps h3, hclamps h4⟩,
    Quad.all_iff.2 ⟨hdomain h1, hdomain h2, hdomain h3, hdomain h4⟩⟩

end clamp

theorem toEach_operatorInsts (cfg : Config) (k : Fin 6) (i : Instr) :
    toEach (operatorInsts cfg k) i = (List.range (cfg.nInst / 6)).map fun v => (⟨v, k⟩, i) :=
  List.map_map

theorem toEach_voiceInsts (v : Nat) (i : Instr) :
    toEach (voiceInsts v) i = (List.finRange 6).map fun k => (⟨v, k⟩, i) := List.map_map

/-! The Voices (41_note_control R99, 90_conflicts C10). -/

section voices
variable (s : State)

theorem voiceActive_iff (v : Nat) :
    s.voiceActive v = true ↔ ∃ k, (s.inst ⟨v, k⟩).stage ≠ .idle := by
  simp [State.voiceActive, voiceInsts, active_eq]

theorem voiceActive_eq_false_iff (v : Nat) :
    s.voiceActive v = false ↔ ∀ k, (s.inst ⟨v, k⟩).stage = .idle := by
  rw [← Bool.not_eq_true, voiceActive_iff, not_exists]
  simp only [not_not]

/-- The Voice a note is given: the first one that is not active, or slot 0 if all are. -/
theorem allocatedVoice_cases :
    (s.allocatedVoice < s.cfg.nInst / 6 ∧ s.voiceActive s.allocatedVoice = false ∧
      ∀ w, w < s.allocatedVoice → s.voiceActive w = true) ∨
    (s.allocatedVoice = 0 ∧ ∀ w, w < s.cfg.nInst / 6 → s.voiceActive w = true) := by
  unfold State.allocatedVoice voiceCount
  cases hv : (List.range (s.cfg.nInst / 6)).find? fun v => !s.voiceActive v with
  | some v =>
    obtain ⟨hfree, hmem, hfirst⟩ := List.find?_range_eq_some.1 hv
    exact .inl ⟨List.mem_range.1 hmem, by simpa using hfree, by simpa using hfirst⟩
  | none => exact .inr ⟨rfl, by simpa using hv⟩

theorem expand_voiceProcess (view : EnvView) (v : Nat) :
    expand view s (.voiceProcess v) =
      if s.voiceActive v then toEach (voiceInsts v) .process else [] := rfl

theorem expand_kernelNoteOn (view : EnvView) (note : Nat) {velocity : Nat} (h : velocity ≠ 0) :
    expand view s (.kernelNoteOn note velocity) = toEach (voiceInsts s.allocatedVoice) .noteOn :=
  if_neg h

end voices

end Sys2Proof.Machine

namespace Sys2Proof.Proofs

open Sys2Proof.Machine

/-- Settles O5: the decoder's error is the reason of the refusal, and a refused step leaves its mark
in the run. -/
theorem reservedHeadersAreRefused : Obligations.ReservedHeadersAreRefused := by
  intro r inp rest h ws e hs hh hr hws hcase
  have hne : inp.words ≠ [] := by rw [hws]; exact List.cons_ne_nil h ws
  have hstep : step r.state = .refused e := by
    obtain ⟨hrsv, rfl⟩ | ⟨hrsv, hop, rfl⟩ := hcase
    · exact step_of_decode_error hs hh hr hne (by rw [hws, decode_of_reservedBits hrsv])
    · have hnone := (payloadWords_eq_none_iff (headerOp h)).2 hop
      exact step_of_decode_error hs hh hr hne (by rw [hws, decode_of_reservedOpcode hrsv hnone])
  exact ⟨hstep, advance_of_refused hs hstep⟩

/-- Settles O7: each direction is a lemma of the decoder. -/
theorem decodeIffEncode : Obligations.DecodeIffEncode :=
  fun _ i rest => ⟨eq_encode_append_of_decode, fun h => h ▸ decode_encode_append i rest⟩

/-- Settles O9: what the decoder makes of a whole payload and of one cut short. -/
theorem opcodeAloneFixesLength : Obligations.OpcodeAloneFixesLength := by
  refine fun h ws n hr hop => ⟨fun hlen => ?_, decode_of_short hr hop⟩
  obtain ⟨i, hd, -, hn⟩ := decode_of_whole hr hop hlen
  exact ⟨i, hd, hn⟩

/-- Settles O57: the clamped operator and operands are those of the fan-out, and the default bounds
of each domain are finite and in order. -/
theorem fanOutReachesEveryVoice : Obligations.FanOutReachesEveryVoice := by
  intro view s n operator q hcfg hq
  obtain ⟨hneg, hmid, hbig⟩ := clampOperator_cases operator
  obtain ⟨hrates, hratesIn⟩ := clampQuad_spec (low := Config.default.rateMin)
    (high := Config.default.rateMax) (by decide +kernel) (by decide +kernel) (by decide +kernel) hq
  obtain ⟨hlevels, hlevelsIn⟩ := clampQuad_spec (low := Config.default.lvlMin)
    (high := Config.default.lvlMax) (by decide +kernel) (by decide +kernel) (by decide +kernel) hq
  refine ⟨clampOperator operator, _, _, hneg, hmid, hbig, hrates, hlevels, ?_, ?_, ?_, ?_⟩
  · simp only [expand, fanOutRates, toEach_operatorInsts, hcfg]
  · simp only [expand, fanOutLevels, toEach_operatorInsts, hcfg]
  · rw [hcfg]; exact hratesIn
  · rw [hcfg]; exact hlevelsIn

/-- Settles O59: a Voice is active when one of its stages is not Idle, and a note is given the first
Voice that is not active. -/
theorem noteOnAllocatesFirstFreeVoice : Obligations.NoteOnAllocatesFirstFreeVoice := by
  refine fun view s => ⟨fun note velocity hvel => ⟨s.allocatedVoice, ?_, ?_⟩, fun v => ⟨?_, ?_⟩⟩
  · rw [expand_kernelNoteOn s view note hvel, toEach_voiceInsts]
  · simp only [← voiceActive_iff, ← voiceActive_eq_false_iff]
    obtain ⟨hlt, hfree, hfirst⟩ | ⟨hzero, hall⟩ := allocatedVoice_cases s
    · exact ⟨hfirst, .inl ⟨hlt, hfree⟩⟩
    · exact ⟨fun w hw => by omega, .inr ⟨hzero, hall⟩⟩
  · rw [← voiceActive_eq_false_iff, expand_voiceProcess]
    intro hidle
    rw [hidle, if_neg Bool.false_ne_true]
  · rw [← voiceActive_iff, expand_voiceProcess, toEach_voiceInsts]
    exact fun hactive => if_pos hactive

/-- Settles O3: an empty stream, and an empty presentation, which is taken and no more. -/
theorem idlePortHasNoEffect : Obligations.IdlePortHasNoEffect :=
  ⟨fun s hs => by simp only [step, State.take, hs], fun _ _ _ => step_of_idle⟩

/-- Settles O4: the step at words that decode, and the two cases of what is left of them. -/
theorem stepRunsDecodedCommand : Obligations.StepRunsDecodedCommand :=
  ⟨fun _ _ _ _ _ => step_of_decode_ok, fun _ _ => rfl, fun _ _ _ _ => rfl⟩

/-- Settles O6: the headers of EN1 to EN7 are those of the encodings, and those of EN8 to EN13 have
a reserved opcode or a reserved bit. -/
theorem headerWordsDecode : Obligations.HeaderWordsDecode := by
  intro a b c d
  have hwords (i : Instr) : decode (encode i) = .ok (i, []) := by
    simpa only [List.append_nil] using decode_encode_append i []
  refine ⟨hwords (.setRates a b c d), hwords (.setLevels a b c d), hwords (.setSampleRate a),
    hwords .noteOn, hwords .noteOff, hwords .process, hwords .isActive, ?_, ?_, ?_, ?_, ?_, ?_⟩
  · exact decode_of_reservedOpcode (by decide) (by decide) _
  · exact decode_of_reservedOpcode (by decide) (by decide) _
  · exact decode_of_reservedOpcode (by decide) (by decide) _
  · exact decode_of_reservedBits (by decide) _
  · exact decode_of_reservedBits (by decide) _
  · exact decode_of_reservedBits (by decide) _

end Sys2Proof.Proofs

/-!
SUPPORT and PROOFS. 40_configuration: the domains of the operands in units (R83, R88, R92), what the
configuration commands write (R82, R84, R89, R90) and leave (R81), and the coefficients that follow
the rates and the sample rate (R91).
-/

namespace Sys2Proof.Machine

/-! The operand domains, in units. -/

/-- In a domain are the finite patterns whose units lie between those of its bounds. -/
theorem inDomain_iff_units {low high x : Word} {l h : Int} (hlow : orderKey (unpack low) = some l)
    (hhigh : orderKey (unpack high) = some h) :
    inDomain low high x = true ↔
      ∃ neg m, unpack x = .fin neg m ∧ l ≤ signedMag neg m ∧ signedMag neg m ≤ h := by
  cases hx : unpack x with
  | fin neg m =>
    have hbounds : inDomain low high x = true ↔ l ≤ signedMag neg m ∧ signedMag neg m ≤ h := by
      have hkey : orderKey (.fin neg m) = some (signedMag neg m) := rfl
      simp only [inDomain, isFinite, fle, hlow, hhigh, hx, hkey, Bool.true_and, Bool.and_eq_true,
        decide_eq_true_eq]
    rw [hbounds]
    exact ⟨fun hb => ⟨neg, m, rfl, hb⟩, fun ⟨_, _, heq, hb⟩ => by cases heq; exact hb⟩
  | nan => simp [inDomain, isFinite, hx]
  | inf neg => simp [inDomain, isFinite, hx]

theorem signedMag_false (m : Nat) : signedMag false m = m := rfl

/-- A number of units that a positive one is at most has no sign. -/
theorem signedMag_pos {neg : Bool} {m : Nat} {x : Int} (hx : 0 < x) (h : x ≤ signedMag neg m) :
    neg = false := by
  cases neg with
  | false => rfl
  | true => simp only [signedMag, ↓reduceIte] at h; omega

/-- One operand that fails a test fails the test of all four. -/
theorem Quad.all_eq_false_iff {a b c d : Word} {p : Word → Bool} :
    (Quad.mk a b c d).all p = false ↔ p a = false ∨ p b = false ∨ p c = false ∨ p d = false := by
  simp only [Quad.all, Bool.and_eq_false_iff, or_assoc]

/-! The register writes, field by field (40_configuration R82, R84, R90). -/

section writes
variable (cfg : Config) (e : Envelope)

theorem writeRates_eq (q : Quad) :
    e.writeRates cfg q = { e with
      rate := narrowed cfg q
      rateMark := .written
      coef := if e.fsMark = .written then (narrowed cfg q).map (coefOf cfg e.fs) else e.coef
      coefMark := if e.fsMark = .written then .written else e.coefMark } := by
  simp only [Envelope.writeRates, Envelope.recompute, true_and]
  split <;> rfl

theorem writeSampleRate_eq (fs : Word) :
    e.writeSampleRate cfg fs = { e with
      fs := narrow cfg.fmt fs
      fsMark := .written
      coef := if e.rateMark = .written then e.rate.map (coefOf cfg (narrow cfg.fmt fs)) else e.coef
      coefMark := if e.rateMark = .written then .written else e.coefMark } := by
  simp only [Envelope.writeSampleRate, Envelope.recompute, and_true]
  split <;> rfl

/-- After both writes the coefficients are those of the new rates and sample rate, in either order
(40_configuration R91). -/
theorem writeSampleRate_writeRates (q : Quad) (fs : Word) :
    (e.writeRates cfg q).writeSampleRate cfg fs = { e with
      rate := narrowed cfg q
      rateMark := .written
      fs := narrow cfg.fmt fs
      fsMark := .written
      coef := (narrowed cfg q).map (coefOf cfg (narrow cfg.fmt fs))
      coefMark := .written } := by
  rw [writeSampleRate_eq, writeRates_eq]
  rfl

theorem writeRates_writeSampleRate (q : Quad) (fs : Word) :
    (e.writeSampleRate cfg fs).writeRates cfg q =
      (e.writeRates cfg q).writeSampleRate cfg fs := by
  rw [writeSampleRate_writeRates, writeRates_eq, writeSampleRate_eq]
  rfl

end writes

/-! What a configuration command leaves (40_configuration R81). -/

/-- What the configuration command `i` leaves of an envelope `e` that it makes `e'` of. -/
structure ConfigurationFrame (i : Instr) (e e' : Envelope) : Prop where
  stage : e'.stage = e.stage
  level : e'.level = e.level
  rate : (∀ r1 r2 r3 r4, i ≠ .setRates r1 r2 r3 r4) → e'.rate = e.rate ∧ e'.rateMark = e.rateMark
  lvl : (∀ l1 l2 l3 l4, i ≠ .setLevels l1 l2 l3 l4) → e'.lvl = e.lvl ∧ e'.lvlMark = e.lvlMark
  fs : (∀ fs, i ≠ .setSampleRate fs) → e'.fs = e.fs ∧ e'.fsMark = e.fsMark
  coef : (∃ l1 l2 l3 l4, i = .setLevels l1 l2 l3 l4) → e'.coef = e.coef ∧ e'.coefMark = e.coefMark

theorem ConfigurationFrame.refl (i : Instr) (e : Envelope) : ConfigurationFrame i e e :=
  ⟨rfl, rfl, fun _ => ⟨rfl, rfl⟩, fun _ => ⟨rfl, rfl⟩, fun _ => ⟨rfl, rfl⟩, fun _ => ⟨rfl, rfl⟩⟩

section configuration
variable (cfg : Config) (e : Envelope) {i : Instr} (hon : i ≠ .noteOn) (hoff : i ≠ .noteOff)
  (hprocess : i ≠ .process) (hactive : i ≠ .isActive)
include hon hoff hprocess hactive

theorem after_configurationFrame : ConfigurationFrame i e (e.after cfg i) := by
  cases i with
  | setRates r1 r2 r3 r4 =>
    rw [Envelope.after, writeRates_eq]
    exact ⟨rfl, rfl, fun h => absurd rfl (h r1 r2 r3 r4), fun _ => ⟨rfl, rfl⟩,
      fun _ => ⟨rfl, rfl⟩, fun ⟨_, _, _, _, h⟩ => by cases h⟩
  | setLevels l1 l2 l3 l4 =>
    exact ⟨rfl, rfl, fun _ => ⟨rfl, rfl⟩, fun h => absurd rfl (h l1 l2 l3 l4),
      fun _ => ⟨rfl, rfl⟩, fun _ => ⟨rfl, rfl⟩⟩
  | setSampleRate fs =>
    rw [Envelope.after, writeSampleRate_eq]
    exact ⟨rfl, rfl, fun _ => ⟨rfl, rfl⟩, fun _ => ⟨rfl, rfl⟩, fun h => absurd rfl (h fs),
      fun ⟨_, _, _, _, h⟩ => by cases h⟩
  | noteOn => exact absurd rfl hon
  | noteOff => exact absurd rfl hoff
  | process => exact absurd rfl hprocess
  | isActive => exact absurd rfl hactive

theorem answer_of_configuration : e.answer cfg i = none := by
  cases i with
  | process => exact absurd rfl hprocess
  | isActive => exact absurd rfl hactive
  | _ => rfl

end configuration

/-- A well-formed command but process writes the selected envelope and the response, and no more. -/
theorem exec_writes {i : Instr} {s : State} (hw : i.wellFormed s.cfg = true) (hi : i ≠ .process) :
    ∃ t, exec i s = .next t ∧ t.inst s.sel = (s.inst s.sel).after s.cfg i ∧
      t.response = (s.inst s.sel).answer s.cfg i ∧ t.cfg = s.cfg ∧ t.stream = s.stream ∧
      ∀ k, k ≠ s.sel → t.inst k = s.inst k :=
  ⟨_, exec_of_wellFormed hw fun h => absurd h hi, finish_inst_sel _ _ _, rfl, rfl, rfl,
    fun _ => finish_inst_other _ _ _⟩

end Sys2Proof.Machine

namespace Sys2Proof.Proofs

open Sys2Proof.Machine

/-- Settles O38: the reset envelope has no coefficients written, and every command that writes a
rate or the sample rate recomputes. -/
theorem coefficientsStayDerived : Obligations.CoefficientsStayDerived := by
  intro s t hs h
  rw [step_keeps_cfg h]
  exact step_keeps_every (derived_reset _) (fun _ i _ _ => after_keeps_derived i) hs h

/-- Settles O10: the command finishes with `Envelope.writeRates`. -/
theorem setRatesWritesRatesAndCoefficients : Obligations.SetRatesWritesRatesAndCoefficients := by
  refine ⟨fun s r1 r2 r3 r4 hdomain => ?_, fun _ q hfmt => narrowed_binary64 hfmt q⟩
  rw [← writeRates_eq]
  exact exec_writes (i := .setRates r1 r2 r3 r4) hdomain (by simp)

/-- Settles O12: the command finishes with `Envelope.writeLevels`. -/
theorem setLevelsWritesLevels : Obligations.SetLevelsWritesLevels :=
  fun _ l1 l2 l3 l4 hdomain => exec_writes (i := .setLevels l1 l2 l3 l4) hdomain (by simp)

/-- Settles O14: the command finishes with `Envelope.writeSampleRate`. -/
theorem setSampleRateWritesRateAndCoefficients :
    Obligations.SetSampleRateWritesRateAndCoefficients := by
  intro s fs hdomain
  rw [← writeSampleRate_eq]
  exact exec_writes (i := .setSampleRate fs) hdomain (by simp)

/-- Settles O11: the default bounds are 0 and 99 units, and one operand out of the domain fails the
test of the four. -/
theorem ratesOutOfDomainAreRefused : Obligations.RatesOutOfDomainAreRefused := by
  refine ⟨fun r => ?_, fun s r1 r2 r3 r4 hout => ?_⟩
  · exact inDomain_iff_units (by decide +kernel) (by decide +kernel)
  · rw [exec, execSetRates, if_neg (ne_true_of_eq_false (Quad.all_eq_false_iff.2 hout))]

/-- Settles O13: the default bounds are 0 and one unit, and one operand out of the domain fails the
test of the four. -/
theorem levelsOutOfDomainAreRefused : Obligations.LevelsOutOfDomainAreRefused := by
  refine ⟨fun l => ?_, fun s l1 l2 l3 l4 hout => ?_⟩
  · exact inDomain_iff_units (by decide +kernel) (by decide +kernel)
  · rw [exec, execSetLevels, if_neg (ne_true_of_eq_false (Quad.all_eq_false_iff.2 hout))]

/-- Settles O15: the default bounds are positive, so a value between them has no sign. -/
theorem sampleRateOutOfDomainIsRefused : Obligations.SampleRateOutOfDomainIsRefused := by
  refine ⟨fun fs => ?_, fun s fs hout => ?_⟩
  · rw [sampleRateInDomain, inDomain_iff_units (l := 8000 * unitsPerOne) (h := 384000 * unitsPerOne)
      (by decide +kernel) (by decide +kernel)]
    have hpos := unitsPerOne_pos
    generalize unitsPerOne = u at *
    constructor
    · rintro ⟨neg, m, hm, hlow, hhigh⟩
      obtain rfl := signedMag_pos (by omega) hlow
      rw [signedMag_false] at hlow hhigh
      exact ⟨m, hm, by exact_mod_cast hlow, by exact_mod_cast hhigh⟩
    · rintro ⟨m, hm, hlow, hhigh⟩
      refine ⟨false, m, hm, ?_⟩
      rw [signedMag_false]
      exact ⟨by exact_mod_cast hlow, by exact_mod_cast hhigh⟩
  · rw [exec, execSetSampleRate, if_neg (ne_true_of_eq_false hout)]

/-- Settles O16: what the command makes of the selected envelope has the frame, and the others are
untouched. -/
theorem configurationCommandFrame : Obligations.ConfigurationCommandFrame := by
  intro i s t h hon hoff hprocess hactive
  obtain ⟨-, -, rfl⟩ := exec_next h
  have frame (k : InstId) : ConfigurationFrame i (s.inst k) ((s.finish
      (s.current.after s.cfg i) (s.current.answer s.cfg i)).inst k) := by
    rw [finish_inst]
    split
    · next hk => exact hk ▸ after_configurationFrame _ _ hon hoff hprocess hactive
    · exact .refl _ _
  refine ⟨answer_of_configuration _ _ hon hoff hprocess hactive, rfl, rfl, rfl,
    fun _ => finish_inst_other _ _ _, fun k => ⟨(frame k).stage, (frame k).level, ?_⟩,
    fun hi k => (frame k).rate hi, fun hi k => (frame k).lvl hi, fun hi k => (frame k).fs hi,
    fun hi k => (frame k).coef hi⟩
  rw [active_eq, active_eq, (frame k).stage]

/-- Settles O17: in either order the envelope ends with both writes and their coefficients, which
the second command puts in the place of what the first left. -/
theorem ratesAndSampleRateCommute : Obligations.RatesAndSampleRateCommute := by
  intro s r1 r2 r3 r4 fs hrates hfs
  have hne : (s.current.writeRates s.cfg ⟨r1, r2, r3, r4⟩).writeSampleRate s.cfg fs ≠
      Envelope.reset := by
    rw [writeSampleRate_writeRates]
    exact fun h => by cases congrArg Envelope.coefMark h
  refine ⟨_, _, s.finish ((s.current.writeRates s.cfg ⟨r1, r2, r3, r4⟩).writeSampleRate s.cfg fs)
    none, if_pos hrates, if_pos hfs, ?_, ?_, ?_⟩
  · rw [exec, execSetSampleRate, finish_cfg, if_pos hfs, finish_current,
      finish_finish _ _ _ _ _ (.inr hne)]
  · rw [exec, execSetRates, finish_cfg, if_pos hrates, finish_current, writeRates_writeSampleRate,
      finish_finish _ _ _ _ _ (.inr hne)]
  · rw [finish_inst_sel, writeSampleRate_writeRates]
    exact ⟨rfl, rfl⟩

end Sys2Proof.Proofs

/-!
SUPPORT and PROOFS. 40_configuration R86: the properties E1 to E4 of `EXP64`. Both its bounds are
partial sums of the series of the exponential, which decrease with the size of the argument and lie
within 2^-150 of the exponential; so the choice between two neighbours keeps the order and is off by
one gap at most.
-/

namespace Sys2Proof.Machine

/-! The partial sums of the series of `exp (-z)`, for `z` from 0 to 1. -/

/-- The partial sum with `n` as its last index. -/
noncomputable def expSeries (n : Nat) (z : ℝ) : ℝ :=
  ∑ j ∈ Finset.range (n + 1), (-1) ^ j * (z ^ j / j.factorial)

theorem expSeries_zero (z : ℝ) : expSeries 0 z = 1 := by simp [expSeries]

theorem expSeries_succ (n : Nat) (z : ℝ) :
    expSeries (n + 1) z = expSeries n z + (-1) ^ (n + 1) * (z ^ (n + 1) / (n + 1).factorial) :=
  Finset.sum_range_succ _ _

theorem expSeries_at_zero (n : Nat) : expSeries n 0 = 1 := by
  induction n with
  | zero => exact expSeries_zero 0
  | succ n ih => rw [expSeries_succ, ih]; simp

theorem hasDerivAt_expTerm (j : Nat) (z : ℝ) :
    HasDerivAt (fun x : ℝ => (-1) ^ (j + 1) * (x ^ (j + 1) / (j + 1).factorial))
      (-((-1) ^ j * (z ^ j / j.factorial))) z := by
  refine (((hasDerivAt_pow (j + 1) z).div_const _).const_mul _).congr_deriv ?_
  have : (j.factorial : ℝ) ≠ 0 := by exact_mod_cast j.factorial_ne_zero
  rw [Nat.factorial_succ, Nat.add_sub_cancel, pow_succ]
  push_cast
  field_simp

theorem hasDerivAt_expSeries (n : Nat) (z : ℝ) :
    HasDerivAt (expSeries (n + 1)) (-expSeries n z) z := by
  rw [funext (expSeries_succ n)]
  induction n with
  | zero =>
    rw [funext expSeries_zero]
    refine ((hasDerivAt_const z (1 : ℝ)).add (hasDerivAt_expTerm 0 z)).congr_deriv ?_
    simp
  | succ n ih =>
    rw [funext (expSeries_succ n)]
    refine (ih.add (hasDerivAt_expTerm (n + 1) z)).congr_deriv ?_
    ring

section unit
variable {z : ℝ} (h0 : 0 ≤ z) (h1 : z ≤ 1)
include h0 h1

theorem exp_le_expSeries (k : Nat) : Real.exp (-z) ≤ expSeries (2 * k) z :=
  (exp_terms_antitone h0 h1).tendsto_le_alternating_series (exp_neg_tendsto z) k

theorem expSeries_le_exp (k : Nat) : expSeries (2 * k + 1) z ≤ Real.exp (-z) :=
  (exp_terms_antitone h0 h1).alternating_series_le_tendsto (exp_neg_tendsto z) (k + 1)

theorem expSeries_odd_nonneg (k : Nat) : 0 ≤ expSeries (2 * k + 1) z := by
  induction k with
  | zero => rw [expSeries_succ, expSeries_zero]; simpa using h1
  | succ k ih =>
    have hodd : (-1 : ℝ) ^ (2 * k + 1) = -1 := Odd.neg_one_pow ⟨k, rfl⟩
    have hterms : z ^ (2 * k + 1 + 1 + 1) / ((2 * k + 1 + 1 + 1).factorial : ℝ) ≤
        z ^ (2 * k + 1 + 1) / ((2 * k + 1 + 1).factorial : ℝ) :=
      exp_terms_antitone h0 h1 (Nat.le_succ _)
    rw [show 2 * (k + 1) + 1 = 2 * k + 1 + 1 + 1 from rfl, expSeries_succ, expSeries_succ,
      pow_succ (-1 : ℝ) (2 * k + 1 + 1), pow_succ (-1 : ℝ) (2 * k + 1), hodd]
    linarith

theorem expSeries_nonneg (n : Nat) : 0 ≤ expSeries n z := by
  obtain ⟨k, rfl | rfl⟩ := n.even_or_odd'
  · exact (Real.exp_pos _).le.trans (exp_le_expSeries h0 h1 k)
  · exact expSeries_odd_nonneg h0 h1 k

end unit

/-- The derivative is the negated sum of one term less. -/
theorem expSeries_antitoneOn (n : Nat) : AntitoneOn (expSeries n) (Set.Icc 0 1) := by
  cases n with
  | zero => exact fun a _ b _ _ => by rw [expSeries_zero, expSeries_zero]
  | succ n =>
    refine antitoneOn_of_deriv_nonpos (convex_Icc 0 1)
      (fun z _ => (hasDerivAt_expSeries n z).continuousAt.continuousWithinAt)
      (fun z _ => (hasDerivAt_expSeries n z).differentiableAt.differentiableWithinAt)
      fun z hz => ?_
    obtain ⟨hz0, hz1⟩ := interior_subset hz
    rw [(hasDerivAt_expSeries n z).deriv, neg_nonpos]
    exact expSeries_nonneg hz0 hz1 n

theorem expSeries_le_one {z : ℝ} (h0 : 0 ≤ z) (h1 : z ≤ 1) (n : Nat) : expSeries n z ≤ 1 := by
  rw [← expSeries_at_zero n]
  exact expSeries_antitoneOn n ⟨le_rfl, zero_le_one⟩ ⟨h0, h1⟩ h0

/-- The eighth powers of the two sums that `EXP64` takes. -/
theorem expSeries_pow_sub_le {z : ℝ} (h0 : 0 ≤ z) (h1 : z ≤ 1) :
    expSeries 40 z ^ 8 - expSeries 41 z ^ 8 ≤ 1 / 2 ^ 150 := by
  have hdiff : expSeries 40 z - expSeries 41 z = z ^ 41 / (41).factorial := by
    rw [expSeries_succ 40, Odd.neg_one_pow (⟨20, rfl⟩ : Odd (40 + 1))]
    ring
  have hterm0 : 0 ≤ z ^ 41 / ((41).factorial : ℝ) := by positivity
  have hterm : z ^ 41 / (41).factorial ≤ 1 / (41).factorial :=
    div_le_div_of_nonneg_right (pow_le_one₀ h0 h1) (Nat.cast_nonneg _)
  have hmax : max |expSeries 40 z| |expSeries 41 z| ^ 7 ≤ 1 := by
    refine pow_le_one₀ (le_max_of_le_left (abs_nonneg _)) (max_le ?_ ?_) <;>
      rw [abs_of_nonneg (expSeries_nonneg h0 h1 _)] <;> exact expSeries_le_one h0 h1 _
  have hnum : (1 : ℝ) / (41).factorial * 8 ≤ 1 / 2 ^ 150 := by norm_num [Nat.factorial]
  have hpow := abs_pow_sub_pow_le (expSeries 40 z) (expSeries 41 z) 8
  rw [hdiff, abs_of_nonneg hterm0] at hpow
  calc expSeries 40 z ^ 8 - expSeries 41 z ^ 8
      ≤ z ^ 41 / (41).factorial * (8 : Nat) * max |expSeries 40 z| |expSeries 41 z| ^ 7 :=
        (le_abs_self _).trans hpow
    _ ≤ z ^ 41 / (41).factorial * 8 * 1 := by
        exact_mod_cast mul_le_mul_of_nonneg_left hmax (by positivity)
    _ ≤ 1 / 2 ^ 150 := by linarith

/-! The bounds of `EXP64`, as partial sums of the argument's size. -/

/-- An eighth of `v` units. -/
noncomputable def eighth (v : Nat) : ℝ := v / unitsPerOne / 8

/-- The eighth power of a partial sum at an eighth of `v` units, in units. -/
noncomputable def expUnits (n v : Nat) : ℝ := expSeries n (eighth v) ^ 8 * unitsPerOne

/-- The exponential of `-v` units, in units. -/
noncomputable def expExact (v : Nat) : ℝ := Real.exp (-(v / unitsPerOne)) * unitsPerOne

theorem unitsPerOne_real_pos : (0 : ℝ) < unitsPerOne := by exact_mod_cast unitsPerOne_pos

theorem floorToValue_mono {fmt : Fmt} {p q : Nat} (h : p ≤ q) :
    floorToValue fmt p ≤ floorToValue fmt q :=
  le_floorToValue (gap_dvd_floorToValue fmt p) ((floorToValue_le fmt p).trans h)

theorem lt_floorToValue_add_gap (fmt : Fmt) (q : Nat) : q < floorToValue fmt q + gap fmt q :=
  Nat.lt_div_mul_add (gap_pos fmt q)

theorem gap_mono (fmt : Fmt) {m n : Nat} (h : m ≤ n) : gap fmt m ≤ gap fmt n :=
  Nat.le_of_dvd (gap_pos fmt n) (gap_dvd_gap fmt h)

/-- The value of the format taken below a number is at most that number. -/
theorem floorToValue_floor_le {fmt : Fmt} {x : ℝ} (h : 0 ≤ x) :
    (floorToValue fmt ⌊x⌋₊ : ℝ) ≤ x :=
  (Nat.cast_le.2 (floorToValue_le fmt _)).trans (Nat.floor_le h)

theorem expFloor_eq_series {a s : Nat} (h : a ≤ 2 ^ s) (fmt : Fmt) (n : Nat) :
    expFloor fmt a s n = floorToValue fmt ⌊expSeries n (a / 2 ^ s) ^ 8 * unitsPerOne⌋₊ := by
  have h1 : (a / 2 ^ s : ℝ) ≤ 1 := by
    rw [div_le_one (by positivity)]; exact_mod_cast h
  have hD : (0 : ℝ) < expDen s n := by exact_mod_cast expDen_pos s n
  have hsum : expSeries n (a / 2 ^ s) = expNum a s n / expDen s n := (expNum_div_expDen a s n).symm
  have hN : (0 : ℝ) ≤ expNum a s n := by
    have hnonneg := mul_nonneg (expSeries_nonneg (by positivity) h1 n) hD.le
    rwa [hsum, div_mul_cancel₀ _ hD.ne'] at hnonneg
  have hcast : (expNum a s n : ℝ) = (expNum a s n).toNat := by
    exact_mod_cast (Int.toNat_of_nonneg (by exact_mod_cast hN)).symm
  rw [expFloor_eq, hsum, hcast, div_pow, div_mul_eq_mul_div]
  congr 1
  rw [← Nat.floor_div_eq_div (K := ℝ)]
  push_cast
  rfl

theorem eighth_nonneg (v : Nat) : 0 ≤ eighth v :=
  div_nonneg (div_nonneg v.cast_nonneg unitsPerOne_real_pos.le) (by norm_num)

theorem eighth_mono {v w : Nat} (h : w ≤ v) : eighth w ≤ eighth v :=
  div_le_div_of_nonneg_right
    (div_le_div_of_nonneg_right (Nat.cast_le.2 h) unitsPerOne_real_pos.le) (by norm_num)

theorem eighth_le_one {v : Nat} (h7 : v ≤ 7 * unitsPerOne) : eighth v ≤ 1 := by
  have h : (v : ℝ) ≤ 7 * unitsPerOne := by exact_mod_cast h7
  have hU := unitsPerOne_real_pos
  rw [eighth, div_div, div_le_one (mul_pos hU (by norm_num))]
  linarith

theorem expExact_eq_pow (v : Nat) : expExact v = Real.exp (-eighth v) ^ 8 * unitsPerOne := by
  rw [expExact, eighth, ← Real.exp_nat_mul]
  congr 2
  push_cast
  ring

section argument
variable {v : Nat} (h7 : v ≤ 7 * unitsPerOne)
include h7

theorem expFloor_of_argument (hv : gap .binary64 v ∣ v) (n : Nat) :
    expFloor .binary64 (v / 2 ^ (v.log2 - 52)) (1077 - (v.log2 - 52)) n =
      floorToValue .binary64 ⌊expUnits n v⌋₊ := by
  obtain ⟨ha, hz⟩ := expMag_argument hv h7
  rw [expFloor_eq_series ha, expUnits, eighth, ← hz, mul_div_cancel_left₀ _ (by norm_num)]

theorem expAbove_eq (hv : gap .binary64 v ∣ v) :
    expAbove v = floorToValue .binary64 ⌊expUnits 40 v⌋₊ := expFloor_of_argument h7 hv 40

theorem expBelow_eq (hv : gap .binary64 v ∣ v) :
    expBelow v = floorToValue .binary64 ⌊expUnits 41 v⌋₊ := expFloor_of_argument h7 hv 41

theorem expSeries_eighth_nonneg (n : Nat) : 0 ≤ expSeries n (eighth v) :=
  expSeries_nonneg (eighth_nonneg v) (eighth_le_one h7) n

theorem expUnits_nonneg (n : Nat) : 0 ≤ expUnits n v :=
  mul_nonneg (pow_nonneg (expSeries_eighth_nonneg h7 n) 8) unitsPerOne_real_pos.le

theorem expUnits_antitone {w : Nat} (h : w ≤ v) (n : Nat) : expUnits n v ≤ expUnits n w := by
  have h1 := eighth_le_one h7
  have hz := eighth_mono h
  refine mul_le_mul_of_nonneg_right (pow_le_pow_left₀ (expSeries_eighth_nonneg h7 n) ?_ 8)
    unitsPerOne_real_pos.le
  exact expSeries_antitoneOn n ⟨eighth_nonneg w, hz.trans h1⟩ ⟨eighth_nonneg v, h1⟩ hz

theorem expExact_le : expExact v ≤ expUnits 40 v := by
  rw [expExact_eq_pow]
  exact mul_le_mul_of_nonneg_right (pow_le_pow_left₀ (Real.exp_pos _).le
    (exp_le_expSeries (eighth_nonneg v) (eighth_le_one h7) 20) 8) unitsPerOne_real_pos.le

theorem le_expExact : expUnits 41 v ≤ expExact v := by
  rw [expExact_eq_pow]
  exact mul_le_mul_of_nonneg_right (pow_le_pow_left₀ (expSeries_eighth_nonneg h7 41)
    (expSeries_le_exp (eighth_nonneg v) (eighth_le_one h7) 20) 8) unitsPerOne_real_pos.le

theorem expUnits_sub_le : expUnits 40 v - expUnits 41 v ≤ 1 / 2 ^ 150 * unitsPerOne := by
  rw [expUnits, expUnits, ← sub_mul]
  exact mul_le_mul_of_nonneg_right (expSeries_pow_sub_le (eighth_nonneg v) (eighth_le_one h7))
    unitsPerOne_real_pos.le

end argument

/-! E3: the order is kept. -/

/-- `expMag` through its two bounds and the switch. -/
theorem expMag_eq (switch : Fmt → Nat → Nat) {v : Nat} (h0 : v ≠ 0) :
    expMag switch .binary64 v =
      if expBelow v = expAbove v ∧ v < switch .binary64 (expAbove v) then
        expAbove v + gap .binary64 (expAbove v)
      else expAbove v :=
  if_neg h0

theorem expMag_le_add_gap (switch : Fmt → Nat → Nat) {v : Nat} (h0 : v ≠ 0) :
    expMag switch .binary64 v ≤ expAbove v + gap .binary64 (expAbove v) := by
  obtain h | ⟨-, h⟩ := expMag_cases switch h0 <;> rw [h]
  exact Nat.le_add_right _ _

/-- Where the bounds from above differ a neighbour lies between the two results; where they agree,
so do the bounds from below as soon as the larger argument has a choice, and the switch gives the
smaller argument at least as much. -/
theorem expMag_antitone (switch : Fmt → Nat → Nat) {v w : Nat} (hv : gap .binary64 v ∣ v)
    (hw : gap .binary64 w ∣ w) (h7 : v ≤ 7 * unitsPerOne) (h : w ≤ v) :
    expMag switch .binary64 v ≤ expMag switch .binary64 w := by
  have hw7 := h.trans h7
  rcases Nat.eq_zero_or_pos w with rfl | hpos
  · exact (expMag_le_one hv h7 switch).trans_eq (if_pos rfl).symm
  have habove : expAbove v ≤ expAbove w := by
    rw [expAbove_eq h7 hv, expAbove_eq hw7 hw]
    exact floorToValue_mono (Nat.floor_mono (expUnits_antitone h7 h 40))
  have hbelow : expBelow v ≤ expBelow w := by
    rw [expBelow_eq h7 hv, expBelow_eq hw7 hw]
    exact floorToValue_mono (Nat.floor_mono (expUnits_antitone h7 h 41))
  have hbounds : expBelow w ≤ expAbove w := by
    rw [expBelow_eq hw7 hw, expAbove_eq hw7 hw]
    exact floorToValue_mono (Nat.floor_mono ((le_expExact hw7).trans (expExact_le hw7)))
  have hv0 : v ≠ 0 := by omega
  rcases Nat.lt_or_eq_of_le habove with hlt | heq
  · calc expMag switch .binary64 v
        ≤ expAbove v + gap .binary64 (expAbove v) := expMag_le_add_gap switch hv0
      _ ≤ expAbove w := add_gap_le (gap_dvd_expAbove v) (gap_dvd_expAbove w) hlt
      _ ≤ expMag switch .binary64 w := expAbove_le_expMag switch hpos.ne'
  · rw [expMag_eq switch hv0]
    split
    · next hchoice =>
      obtain ⟨hsame, hswitch⟩ := hchoice
      rw [heq] at hsame hswitch
      rw [expMag_eq switch hpos.ne', if_pos ⟨by omega, by omega⟩, heq]
    · rw [heq]
      exact expAbove_le_expMag switch hpos.ne'

/-! E4: one gap from the exponential. -/

section exact
variable {v : Nat} (h7 : v ≤ 7 * unitsPerOne)
include h7

/-- The exponential of -7.0 is above 2^-11. -/
theorem unit_le_expExact : ((unitsPerOne / 2048 : Nat) : ℝ) ≤ expExact v := by
  have hU := unitsPerOne_real_pos
  have hv : (v / unitsPerOne : ℝ) ≤ 7 := by
    rw [div_le_iff₀ hU]
    exact_mod_cast h7
  have hexp : (1 / 2048 : ℝ) ≤ Real.exp (-(v / unitsPerOne)) := by
    have hseven := inv_2048_le_exp_neg_seven
    push_cast at hseven
    exact hseven.trans (Real.exp_le_exp.2 (neg_le_neg hv))
  calc ((unitsPerOne / 2048 : Nat) : ℝ) ≤ unitsPerOne / 2048 := by exact_mod_cast Nat.cast_div_le
    _ = 1 / 2048 * unitsPerOne := by ring
    _ ≤ expExact v := mul_le_mul_of_nonneg_right hexp hU.le

theorem expExact_nonneg : 0 ≤ expExact v := (Nat.cast_nonneg _).trans (unit_le_expExact h7)

/-- The two bounds are less than one gap apart. -/
theorem bounds_apart_le_gap : (1 / 2 ^ 150 * unitsPerOne : ℝ) ≤ gap .binary64 ⌊expExact v⌋₊ := by
  have hfloor : unitsPerOne / 2048 ≤ ⌊expExact v⌋₊ := Nat.le_floor (unit_le_expExact h7)
  have hnum : unitsPerOne ≤ 2 ^ 150 * gap .binary64 (unitsPerOne / 2048) := by decide +kernel
  have hgap := hnum.trans (Nat.mul_le_mul_left _ (gap_mono .binary64 hfloor))
  have hcast : (unitsPerOne : ℝ) ≤ 2 ^ 150 * gap .binary64 ⌊expExact v⌋₊ := by exact_mod_cast hgap
  rw [one_div_mul_eq_div, div_le_iff₀' (by norm_num)]
  exact hcast

theorem expAbove_sub_le (hv : gap .binary64 v ∣ v) :
    (expAbove v : ℝ) - expExact v ≤ gap .binary64 ⌊expExact v⌋₊ := by
  have hup := floorToValue_floor_le (fmt := .binary64) (expUnits_nonneg h7 40)
  rw [← expAbove_eq h7 hv] at hup
  linarith [expUnits_sub_le h7, le_expExact h7, bounds_apart_le_gap h7]

/-- The value of the format just below the exponential. -/
theorem floorToValue_expExact_bounds :
    (floorToValue .binary64 ⌊expExact v⌋₊ : ℝ) ≤ expExact v ∧
    expExact v ≤ floorToValue .binary64 ⌊expExact v⌋₊ + gap .binary64 ⌊expExact v⌋₊ := by
  refine ⟨floorToValue_floor_le (expExact_nonneg h7), (Nat.lt_floor_add_one _).le.trans ?_⟩
  exact_mod_cast lt_floorToValue_add_gap .binary64 ⌊expExact v⌋₊

/-- `EXP64` is within one gap of the exponential, whatever the switch is. -/
theorem abs_expMag_sub_le (switch : Fmt → Nat → Nat) (hv : gap .binary64 v ∣ v) :
    |(expMag switch .binary64 v : ℝ) - expExact v| ≤ gap .binary64 ⌊expExact v⌋₊ := by
  rcases Nat.eq_zero_or_pos v with rfl | hpos
  · have hexact : expExact 0 = unitsPerOne := by
      rw [expExact, Nat.cast_zero, zero_div, neg_zero, Real.exp_zero, one_mul]
    rw [expMag, if_pos rfl, hexact, sub_self, abs_zero]
    exact Nat.cast_nonneg _
  obtain ⟨hlow, hhigh⟩ := floorToValue_expExact_bounds h7
  have habove : floorToValue .binary64 ⌊expExact v⌋₊ ≤ expAbove v := by
    rw [expAbove_eq h7 hv]
    exact floorToValue_mono (Nat.floor_mono (expExact_le h7))
  have habove' : (floorToValue .binary64 ⌊expExact v⌋₊ : ℝ) ≤ expAbove v := by exact_mod_cast habove
  obtain h | ⟨heq, h⟩ := expMag_cases switch hpos.ne' <;> rw [h, abs_le]
  · exact ⟨by linarith, expAbove_sub_le h7 hv⟩
  · have hbelow : expBelow v ≤ floorToValue .binary64 ⌊expExact v⌋₊ := by
      rw [expBelow_eq h7 hv]
      exact floorToValue_mono (Nat.floor_mono (le_expExact h7))
    obtain hsame : expAbove v = floorToValue .binary64 ⌊expExact v⌋₊ := by omega
    have hgap : gap .binary64 (expAbove v) ≤ gap .binary64 ⌊expExact v⌋₊ := by
      rw [hsame]
      exact gap_mono _ (floorToValue_le _ _)
    have hgap' : (gap .binary64 (expAbove v) : ℝ) ≤ gap .binary64 ⌊expExact v⌋₊ := by
      exact_mod_cast hgap
    have hnonneg : (0 : ℝ) ≤ gap .binary64 (expAbove v) := Nat.cast_nonneg _
    rw [hsame] at hgap' hnonneg ⊢
    push_cast
    exact ⟨by linarith, by linarith⟩

/-- `EXP64` is positive: it keeps the bound 2^-11. -/
theorem expMag_pos (switch : Fmt → Nat → Nat) (hv : gap .binary64 v ∣ v) :
    0 < expMag switch .binary64 v :=
  lt_of_lt_of_le (by decide +kernel)
    (le_expMag switch hv h7 (b := unitsPerOne / 2048) (by decide +kernel) (unit_le_expExact h7))

/-- E2: from 2e-7 on the exponential is below 1.0 by far more than one gap. -/
theorem expMag_lt_one (switch : Fmt → Nat → Nat) (hv : gap .binary64 v ∣ v)
    (h2 : 2 * unitsPerOne ≤ v * 10 ^ 7) : expMag switch .binary64 v < unitsPerOne := by
  have hU := unitsPerOne_real_pos
  have hx : (2 / 10 ^ 7 : ℝ) ≤ v / unitsPerOne := by
    rw [div_le_div_iff₀ (by norm_num) hU]
    exact_mod_cast h2
  have hexp : Real.exp (-(v / unitsPerOne)) ≤ 1 - 1 / 10 ^ 7 := by
    have hinv := Real.add_one_le_exp (2 / 10 ^ 7 : ℝ)
    refine (Real.exp_le_exp.2 (neg_le_neg hx)).trans ?_
    rw [Real.exp_neg]
    refine inv_le_of_inv_le₀ (by norm_num) (le_trans ?_ hinv)
    norm_num
  have hexact : expExact v ≤ (1 - 1 / 10 ^ 7) * unitsPerOne :=
    mul_le_mul_of_nonneg_right hexp hU.le
  have hfloor : ⌊expExact v⌋₊ ≤ unitsPerOne - 1 :=
    Nat.le_sub_one_of_lt ((Nat.floor_lt (expExact_nonneg h7)).2 (by linarith))
  have hgap : gap .binary64 ⌊expExact v⌋₊ * 10 ^ 8 ≤ unitsPerOne :=
    (Nat.mul_le_mul_right _ (gap_mono .binary64 hfloor)).trans (by decide +kernel)
  have hgap' : (gap .binary64 ⌊expExact v⌋₊ * 10 ^ 8 : ℝ) ≤ unitsPerOne := by exact_mod_cast hgap
  obtain ⟨-, herror⟩ := abs_le.1 (abs_expMag_sub_le h7 switch hv)
  have hlt : (expMag switch .binary64 v : ℝ) < unitsPerOne := by linarith
  exact_mod_cast hlt

end exact

/-! `EXP64` as a value. -/

section value
variable {x : Word} {v : Nat} (h : ExpArgument x v)
include h

theorem expMag_isValue : IsValue .binary64 (expMag Config.expSwitch .binary64 v) :=
  ⟨(expMag_le_one (gap_dvd_of_argument h) h.2 Config.expSwitch).trans_lt (by decide +kernel),
    gap_dvd_expMag _ v⟩

theorem unpack_exp64 :
    unpack (exp64 .binary64 x) = .fin false (expMag Config.expSwitch .binary64 v) := by
  rw [exp64_of_argument h]
  exact unpack_pack false (expMag_isValue h)

theorem valueOf_exp64 :
    valueOf (exp64 .binary64 x) = expMag Config.expSwitch .binary64 v / unitsPerOne := by
  rw [valueOf_of_unpack (unpack_exp64 h), signFactor, if_neg Bool.false_ne_true, one_mul]

end value

end Sys2Proof.Machine

namespace Sys2Proof.Proofs

open Sys2Proof.Machine

/-- Settles O44: the size of the result is above 2^-11 and at most 1.0, and within one gap of the
exponential. -/
theorem expRange : Obligations.ExpRange := by
  intro x v hx
  have hv := gap_dvd_of_argument hx
  have ⟨_, h7⟩ := hx
  refine ⟨_, unpack_exp64 hx, expMag_pos h7 _ hv, expMag_le_one hv h7 _, ?_,
    fun h2 _ => expMag_lt_one h7 _ hv h2⟩
  rintro rfl
  exact if_pos rfl

/-- Settles O45: the sizes of the results keep the order. -/
theorem expMonotone : Obligations.ExpMonotone := by
  intro x y v w hx hy hwv
  have hmag := expMag_antitone Config.expSwitch (gap_dvd_of_argument hx) (gap_dvd_of_argument hy)
    hx.2 hwv
  rw [fle_iff (isFinite_iff.2 ⟨_, _, unpack_exp64 hx⟩) (isFinite_iff.2 ⟨_, _, unpack_exp64 hy⟩),
    valueOf_exp64 hx, valueOf_exp64 hy]
  exact div_le_div_of_nonneg_right (Nat.cast_le.2 hmag) (Nat.cast_nonneg _)

/-- Settles O46: in units, the result is within one gap of the exponential. -/
theorem expWithinOneUlp : Obligations.ExpWithinOneUlp := by
  intro x v hx
  have hU := unitsPerOne_real_pos
  have herror := abs_expMag_sub_le hx.2 Config.expSwitch (gap_dvd_of_argument hx)
  rw [valueOf_exp64 hx, ← abs_of_pos hU, ← abs_mul, abs_of_pos hU, sub_mul]
  push_cast
  rw [div_mul_cancel₀ _ hU.ne']
  exact herror

end Sys2Proof.Proofs

/-!
SUPPORT and PROOFS. 40_configuration R85, R87: the coefficients of the admitted domain. Rounding is
monotone, so each step of `CoefOf` keeps the order of its operands, and each step keeps the bounds
of its exact result that are values of the format.
-/

namespace Sys2Proof.Machine

/-! Rounding is monotone. -/

/-- `w` stands for `x` rounded once: `x` is `n / d` units with a sign. -/
def IsRounding (w : Word) (x : ℚ) : Prop :=
  ∃ (neg : Bool) (n d : Nat), 0 < d ∧ x * unitsPerOne = signFactor neg * (n / d) ∧
    valueOf w * unitsPerOne = signFactor neg * roundNearest .binary64 n d

theorem roundNearest_zero : roundNearest .binary64 0 1 = 0 :=
  roundNearest_of_dvd .binary64 (dvd_zero _)

/-- `roundNearest_mono` over the rationals. -/
theorem roundNearest_mono_div {n d n' d' : Nat} (hd : 0 < d) (hd' : 0 < d')
    (h : (n : ℚ) / d ≤ n' / d') :
    (roundNearest .binary64 n d : ℚ) ≤ roundNearest .binary64 n' d' := by
  rw [div_le_div_iff₀ (by exact_mod_cast hd) (by exact_mod_cast hd')] at h
  exact_mod_cast roundNearest_mono .binary64 hd hd' (by exact_mod_cast h)

theorem roundNearest_nonpos {n d : Nat} (hd : 0 < d) (h : (n : ℚ) / d ≤ 0) :
    (roundNearest .binary64 n d : ℚ) ≤ 0 := by
  have hle := roundNearest_mono_div (n := n) (n' := 0) (d' := 1) hd Nat.one_pos
    (by rwa [Nat.cast_zero, zero_div])
  rwa [roundNearest_zero, Nat.cast_zero] at hle

/-- Sign by sign: equal signs go by the sizes, and a value that is at least 0 is at most one that is
at most 0 only where both are 0. -/
theorem IsRounding.mono {w w' : Word} {x x' : ℚ} (hw : IsRounding w x) (hw' : IsRounding w' x')
    (h : x ≤ x') : valueOf w ≤ valueOf w' := by
  obtain ⟨neg, n, d, hd, hx, hv⟩ := hw
  obtain ⟨neg', n', d', hd', hx', hv'⟩ := hw'
  have hU : (0 : ℚ) < unitsPerOne := by exact_mod_cast unitsPerOne_pos
  rw [← mul_le_mul_iff_left₀ hU] at h ⊢
  rw [hx, hx'] at h
  rw [hv, hv']
  have hr : (0 : ℚ) ≤ roundNearest .binary64 n d := Nat.cast_nonneg _
  have hr' : (0 : ℚ) ≤ roundNearest .binary64 n' d' := Nat.cast_nonneg _
  have hq : (0 : ℚ) ≤ n / d := div_nonneg n.cast_nonneg d.cast_nonneg
  have hq' : (0 : ℚ) ≤ n' / d' := div_nonneg n'.cast_nonneg d'.cast_nonneg
  cases neg <;> cases neg' <;>
    simp only [signFactor, Bool.false_eq_true, ↓reduceIte, one_mul, neg_one_mul] at h ⊢
  case false.false => exact roundNearest_mono_div hd hd' h
  case true.true => exact neg_le_neg (roundNearest_mono_div hd' hd (neg_le_neg_iff.1 h))
  case true.false => linarith
  case false.true =>
    have hzero := roundNearest_nonpos hd (h.trans (neg_nonpos.2 hq'))
    have hzero' := roundNearest_nonpos hd' ((le_neg_of_le_neg h).trans (neg_nonpos.2 hq))
    linarith

theorem packRounded_isRounding {neg : Bool} {n d : Nat} {x : ℚ} (hd : 0 < d)
    (hx : x * unitsPerOne = signFactor neg * (n / d))
    (hfin : isFinite (packRounded .binary64 neg n d) = true) :
    IsRounding (packRounded .binary64 neg n d) x := by
  by_cases ho : roundNearest .binary64 n d < overflowMag .binary64
  · exact ⟨neg, n, d, hd, hx, (valueOf_packRounded hd ho).2⟩
  · unfold packRounded at hfin
    dsimp only at hfin
    rw [if_neg ho, infinity_not_finite] at hfin
    cases hfin

section operations
variable {a b : Word} (ha : isFinite a = true) (hb : isFinite b = true)
include ha hb

theorem fadd_isRounding (hfin : isFinite (fadd .binary64 a b) = true) :
    IsRounding (fadd .binary64 a b) (valueOf a + valueOf b) := by
  obtain ⟨sa, ma, ha⟩ := isFinite_iff.1 ha
  obtain ⟨sb, mb, hb⟩ := isFinite_iff.1 hb
  have hx : (valueOf a + valueOf b) * unitsPerOne = (signedMag sa ma + signedMag sb mb : Int) := by
    have := unitsPerOne_cast_ne_zero
    rw [valueOf_of_unpack ha, valueOf_of_unpack hb, Int.cast_add, signedMag_cast, signedMag_cast]
    field_simp
  simp only [fadd, ha, hb] at hfin ⊢
  generalize signedMag sa ma + signedMag sb mb = x at *
  split at hfin
  · next h0 =>
    rw [if_pos h0]
    refine ⟨false, 0, 1, Nat.one_pos, ?_, ?_⟩
    · rw [hx, h0, Int.cast_zero, Nat.cast_zero, zero_div, mul_zero]
    · rw [valueOf_pack_zero, roundNearest_zero, zero_mul, Nat.cast_zero, mul_zero]
  · next h0 =>
    rw [if_neg h0]
    refine packRounded_isRounding Nat.one_pos ?_ hfin
    rw [hx, Nat.cast_one, div_one, signFactor_mul_natAbs]

theorem fsub_isRounding (hfin : isFinite (fsub .binary64 a b) = true) :
    IsRounding (fsub .binary64 a b) (valueOf a - valueOf b) := by
  have h := fadd_isRounding ha (isFinite_fneg hb) hfin
  rwa [valueOf_fneg hb, ← sub_eq_add_neg] at h

theorem fmul_isRounding (hfin : isFinite (fmul .binary64 a b) = true) :
    IsRounding (fmul .binary64 a b) (valueOf a * valueOf b) := by
  obtain ⟨sa, ma, ha⟩ := isFinite_iff.1 ha
  obtain ⟨sb, mb, hb⟩ := isFinite_iff.1 hb
  rw [valueOf_of_unpack ha, valueOf_of_unpack hb]
  simp only [fmul, ha, hb] at hfin ⊢
  refine packRounded_isRounding unitsPerOne_pos ?_ hfin
  have := unitsPerOne_cast_ne_zero
  rw [signFactor_bne, Nat.cast_mul]
  field_simp

theorem fdiv_isRounding (hne : valueOf b ≠ 0) (hfin : isFinite (fdiv .binary64 a b) = true) :
    IsRounding (fdiv .binary64 a b) (valueOf a / valueOf b) := by
  obtain ⟨sa, ma, ha⟩ := isFinite_iff.1 ha
  obtain ⟨sb, mb, hb⟩ := isFinite_iff.1 hb
  have hmb : mb ≠ 0 := by
    rintro rfl
    exact hne (valueOf_of_unpack_zero hb)
  rw [valueOf_of_unpack ha, valueOf_of_unpack hb]
  simp only [fdiv, ha, hb, if_neg hmb] at hfin ⊢
  refine packRounded_isRounding (Nat.pos_of_ne_zero hmb) ?_ hfin
  have := unitsPerOne_cast_ne_zero
  have := signFactor_ne_zero sb
  rw [signFactor_bne_div, Nat.cast_mul]
  field_simp

end operations

/-! `EXP64` of finite values in [-7.0, 0.0]. -/

/-- E3 in terms of values. -/
theorem exp64_mono {x y : Word} (hx : isFinite x = true) (hy : isFinite y = true)
    (h7 : -7 ≤ valueOf x) (h0 : valueOf y ≤ 0) (h : valueOf x ≤ valueOf y) :
    valueOf (exp64 .binary64 x) ≤ valueOf (exp64 .binary64 y) := by
  have hU : (0 : ℚ) < unitsPerOne := by exact_mod_cast unitsPerOne_pos
  obtain ⟨v, hv, hvx⟩ := exists_expArgument hx h7 (h.trans h0)
  obtain ⟨w, hw, hwy⟩ := exists_expArgument hy (h7.trans h) h0
  have hwv : w ≤ v := by
    rw [hvx, hwy, neg_le_neg_iff, div_le_div_iff_of_pos_right hU] at h
    exact_mod_cast h
  rw [valueOf_exp64 hv, valueOf_exp64 hw]
  exact div_le_div_of_nonneg_right (Nat.cast_le.2 (expMag_antitone _ (gap_dvd_of_argument hv)
    (gap_dvd_of_argument hw) hv.2 hwv)) hU.le

/-- `EXP64` is above the exponential by one gap at most, which up to 1.0 is at most 2^-52. -/
theorem exp64_le {x : Word} (hx : isFinite x = true) (h7 : -7 ≤ valueOf x) (h0 : valueOf x ≤ 0) :
    ((valueOf (exp64 .binary64 x) : ℚ) : ℝ) ≤ Real.exp (valueOf x) + 1 / 2 ^ 52 := by
  have hU := unitsPerOne_real_pos
  obtain ⟨v, hv, hvx⟩ := exists_expArgument hx h7 h0
  have hexp : Real.exp (valueOf x) = expExact v / unitsPerOne := by
    rw [expExact, mul_div_cancel_right₀ _ hU.ne', hvx]
    push_cast
    rfl
  have hone : expExact v ≤ unitsPerOne := by
    rw [← div_le_one hU, ← hexp]
    exact Real.exp_le_one_iff.2 (by exact_mod_cast h0)
  have hgap : gap .binary64 ⌊expExact v⌋₊ * 2 ^ 52 ≤ unitsPerOne :=
    (Nat.mul_le_mul_right _ (gap_mono .binary64 (Nat.floor_le_of_le hone))).trans
      (by decide +kernel)
  have hgap' : (gap .binary64 ⌊expExact v⌋₊ * 2 ^ 52 : ℝ) ≤ unitsPerOne := by exact_mod_cast hgap
  obtain ⟨-, herror⟩ := abs_le.1 (abs_expMag_sub_le hv.2 Config.expSwitch (gap_dvd_of_argument hv))
  rw [valueOf_exp64 hv, hexp]
  push_cast
  rw [div_add' _ _ _ hU.ne', div_le_div_iff_of_pos_right hU]
  linarith

/-! The steps of `CoefOf` (40_configuration R85). -/

/-- A number of at most 53 bits over a power of two is representable. -/
theorem representable_dyadic {x : ℚ} (k n : Nat) (h : k < 2 ^ 53 ∧ n ≤ 1000 ∧ x = k / 2 ^ n) :
    Representable x := by
  obtain ⟨hk, hn, rfl⟩ := h
  have hvalue : IsValue .binary64 (k * 2 ^ (1074 - n)) := by
    have hlt : k * 2 ^ (1074 - n) < 2 ^ (53 + (1074 - n)) := by
      rw [Nat.pow_add]
      exact Nat.mul_lt_mul_of_pos_right hk (Nat.two_pow_pos _)
    exact ⟨lt_pow_of_lt_pow hlt (by omega),
      gap_dvd_of_le .binary64 (Nat.zero_le _) (Nat.dvd_mul_left _ _) hlt.le⟩
  have hunits : 2 ^ n * 2 ^ (1074 - n) = unitsPerOne := pow_mul_pow_sub 2 (by omega)
  have hrep := representable_units hvalue
  rw [← hunits] at hrep
  push_cast at hrep
  rwa [mul_div_mul_right _ _ (pow_ne_zero _ two_ne_zero)] at hrep

/-- `m` of `CoefOf` before its negation, at the default slope. -/
def slopeProduct (rate : Word) : Word := fmul .binary64 Config.default.kSlope rate

/-- `t` of `CoefOf`, the time constant in seconds. -/
def timeConstant (rate : Word) : Word :=
  fmul .binary64 Config.default.kT0 (exp64 .binary64 (fneg (slopeProduct rate)))

/-- `q` of `CoefOf`, the time constant in samples. -/
def timeInSamples (fs rate : Word) : Word := fmul .binary64 (timeConstant rate) fs

/-- `y` of `CoefOf`, the inverse of the time constant in samples. -/
def inverseTime (fs rate : Word) : Word := fdiv .binary64 Word.one (timeInSamples fs rate)

/-- `CoefOf` with the exponent of its last exponential as `y`. -/
def coefOfInverse (y : Word) : Word := fsub .binary64 Word.one (exp64 .binary64 (fneg y))

theorem coefOf_eq {cfg : Config} (hcfg : cfg.Admitted) (fs rate : Word) :
    coefOf cfg fs rate = coefOfInverse (inverseTime fs rate) := by
  obtain ⟨hfmt, hT0, hslope, -⟩ := hcfg
  simp only [coefOf, coefWith, hfmt, hT0, hslope, coefOfInverse, inverseTime, timeInSamples,
    timeConstant, slopeProduct]

theorem valueOf_kT0 : valueOf Config.default.kT0 = 10 := by decide +kernel

/-- A finite value between two bounds. -/
def FiniteIn (lo hi : ℚ) (w : Word) : Prop := isFinite w = true ∧ lo ≤ valueOf w ∧ valueOf w ≤ hi

theorem FiniteIn.finite {lo hi : ℚ} {w : Word} (h : FiniteIn lo hi w) : isFinite w = true := h.1

theorem rate_finiteIn {cfg : Config} {rate : Word} (hcfg : cfg.Admitted)
    (h : rateInDomain cfg rate = true) : FiniteIn 0 99 rate := (rateInDomain_iff hcfg).1 h

theorem sampleRate_finiteIn {cfg : Config} {fs : Word} (hcfg : cfg.Admitted)
    (h : sampleRateInDomain cfg fs = true) : FiniteIn 8000 384000 fs :=
  (sampleRateInDomain_iff hcfg).1 h

/-! The bounds of each step. Each is a number of few bits, so a value of the format, a little
outside the exact results at rate 99 and 8000 Hz, or at rate 0 and 384000 Hz. -/

/-- The range of `inverseTime` on the admitted domain. -/
abbrev InverseRange (y : Word) : Prop := FiniteIn (293203100 / 2 ^ 50) (198882022 / 2 ^ 34) y

theorem slope_bounds : 0 ≤ valueOf Config.default.kSlope ∧
    valueOf Config.default.kSlope * 99 ≤ 114605163 / 2 ^ 24 := by decide +kernel

/-- The exponential of the least exponent, split at -7.0. -/
theorem le_exp_slope : ((18550439 / 2 ^ 34 : ℚ) : ℝ) ≤ Real.exp (-(114605163 / 2 ^ 24)) := by
  have hseven : Real.exp 7 ≤ (2.7182818286 : ℝ) ^ 7 := by
    calc Real.exp 7 = Real.exp 1 ^ 7 := by rw [← Real.exp_nat_mul]; norm_num
      _ ≤ 2.7182818286 ^ 7 := pow_le_pow_left₀ (Real.exp_pos 1).le Real.exp_one_lt_d9.le 7
  have hrest := Real.sum_le_exp_of_nonneg (x := 7 - 114605163 / 2 ^ 24) (by norm_num) 7
  have hsum : (18550439 / 2 ^ 34 * 2.7182818286 ^ 7 : ℝ) ≤
      ∑ i ∈ Finset.range 7, (7 - 114605163 / 2 ^ 24 : ℝ) ^ i / i.factorial := by
    norm_num [Finset.sum_range_succ, Nat.factorial]
  have hsplit : Real.exp (-(114605163 / 2 ^ 24)) * Real.exp 7 =
      Real.exp (7 - 114605163 / 2 ^ 24) := by
    rw [← Real.exp_add]
    ring_nf
  push_cast
  refine le_of_mul_le_mul_right ?_ (Real.exp_pos 7)
  rw [hsplit]
  exact (mul_le_mul_of_nonneg_left hseven (by norm_num)).trans (hsum.trans hrest)

section steps
variable {rate fs : Word}

theorem slopeProduct_finiteIn (hrate : FiniteIn 0 99 rate) :
    FiniteIn 0 (114605163 / 2 ^ 24) (slopeProduct rate) := by
  obtain ⟨hr, h0, h99⟩ := hrate
  obtain ⟨hk0, hk99⟩ := slope_bounds
  have rep : Representable (114605163 / 2 ^ 24) := representable_dyadic 114605163 24 (by norm_num)
  exact fmul_keepsBounds (by decide +kernel) hr _ _ representable_zero rep (mul_nonneg hk0 h0)
    ((mul_le_mul_of_nonneg_left h99 hk0).trans hk99)

theorem exp64_slope_finiteIn (hrate : FiniteIn 0 99 rate) :
    FiniteIn (18550439 / 2 ^ 34) 1 (exp64 .binary64 (fneg (slopeProduct rate))) := by
  obtain ⟨hp, hp0, hp7⟩ := slopeProduct_finiteIn hrate
  have hneg := valueOf_fneg hp
  have rep : Representable (18550439 / 2 ^ 34) := representable_dyadic 18550439 34 (by norm_num)
  obtain ⟨he, he1, hlow⟩ := exp64_bounds (isFinite_fneg hp) (by rw [hneg]; linarith)
    (by rw [hneg]; linarith)
  refine ⟨he, hlow _ rep (le_exp_slope.trans (Real.exp_le_exp.2 ?_)), he1⟩
  have hcast : ((-(114605163 / 2 ^ 24) : ℚ) : ℝ) ≤ (-valueOf (slopeProduct rate) : ℚ) :=
    Rat.cast_le.2 (neg_le_neg hp7)
  rw [hneg]
  push_cast at hcast ⊢
  exact hcast

theorem timeConstant_finiteIn (hrate : FiniteIn 0 99 rate) :
    FiniteIn (185504390 / 2 ^ 34) 10 (timeConstant rate) := by
  obtain ⟨he, hlow, hhigh⟩ := exp64_slope_finiteIn hrate
  have repLow : Representable (185504390 / 2 ^ 34) :=
    representable_dyadic 185504390 34 (by norm_num)
  have repHigh : Representable 10 := ⟨Config.default.kT0, by decide +kernel, valueOf_kT0⟩
  exact fmul_keepsBounds (by decide +kernel) he _ _ repLow repHigh (by rw [valueOf_kT0]; linarith)
    (by rw [valueOf_kT0]; linarith)

theorem timeInSamples_finiteIn (hrate : FiniteIn 0 99 rate) (hfs : FiniteIn 8000 384000 fs) :
    FiniteIn (1484035120000 / 2 ^ 34) 3840000 (timeInSamples fs rate) := by
  obtain ⟨ht, htlow, hthigh⟩ := timeConstant_finiteIn hrate
  obtain ⟨hf, hflow, hfhigh⟩ := hfs
  have repLow : Representable (1484035120000 / 2 ^ 34) :=
    representable_dyadic 1484035120000 34 (by norm_num)
  have repHigh : Representable 3840000 := representable_dyadic 3840000 0 (by norm_num)
  exact fmul_keepsBounds ht hf _ _ repLow repHigh (by nlinarith) (by nlinarith)

theorem inverseTime_inverseRange (hrate : FiniteIn 0 99 rate) (hfs : FiniteIn 8000 384000 fs) :
    InverseRange (inverseTime fs rate) := by
  obtain ⟨hq, hqlow, hqhigh⟩ := timeInSamples_finiteIn hrate hfs
  have hq0 : 0 < valueOf (timeInSamples fs rate) := by linarith
  have repLow : Representable (293203100 / 2 ^ 50) :=
    representable_dyadic 293203100 50 (by norm_num)
  have repHigh : Representable (198882022 / 2 ^ 34) :=
    representable_dyadic 198882022 34 (by norm_num)
  refine fdiv_keepsBounds (by decide +kernel) hq hq0.ne' _ _ repLow repHigh ?_ ?_ <;>
    rw [valueOf_one]
  · rw [le_div_iff₀ hq0]; linarith
  · rw [div_le_iff₀ hq0]; linarith

/-! The order of the steps. -/

variable {rate' fs' : Word}

theorem timeConstant_antitone (hrate : FiniteIn 0 99 rate) (hrate' : FiniteIn 0 99 rate')
    (h : valueOf rate ≤ valueOf rate') :
    valueOf (timeConstant rate') ≤ valueOf (timeConstant rate) := by
  obtain ⟨hp, hp0, hp7⟩ := slopeProduct_finiteIn hrate
  obtain ⟨hp', hp0', hp7'⟩ := slopeProduct_finiteIn hrate'
  obtain ⟨he, -, -⟩ := exp64_slope_finiteIn hrate
  obtain ⟨he', -, -⟩ := exp64_slope_finiteIn hrate'
  obtain ⟨ht, -, -⟩ := timeConstant_finiteIn hrate
  obtain ⟨ht', -, -⟩ := timeConstant_finiteIn hrate'
  have hslope : valueOf (slopeProduct rate) ≤ valueOf (slopeProduct rate') :=
    (fmul_isRounding (by decide +kernel) hrate.finite hp).mono
      (fmul_isRounding (by decide +kernel) hrate'.finite hp')
      (mul_le_mul_of_nonneg_left h slope_bounds.1)
  have hexp := exp64_mono (isFinite_fneg hp') (isFinite_fneg hp)
    (by rw [valueOf_fneg hp']; linarith) (by rw [valueOf_fneg hp]; linarith)
    (by rw [valueOf_fneg hp, valueOf_fneg hp']; exact neg_le_neg hslope)
  exact (fmul_isRounding (by decide +kernel) he' ht').mono
    (fmul_isRounding (by decide +kernel) he ht)
    (mul_le_mul_of_nonneg_left hexp (by rw [valueOf_kT0]; norm_num))

theorem inverseTime_mono (hrate : FiniteIn 0 99 rate) (hrate' : FiniteIn 0 99 rate')
    (hfs : FiniteIn 8000 384000 fs) (hfs' : FiniteIn 8000 384000 fs')
    (hr : valueOf rate ≤ valueOf rate') (hf : valueOf fs' ≤ valueOf fs) :
    valueOf (inverseTime fs rate) ≤ valueOf (inverseTime fs' rate') := by
  obtain ⟨ht, htlow, -⟩ := timeConstant_finiteIn hrate
  obtain ⟨ht', -, -⟩ := timeConstant_finiteIn hrate'
  obtain ⟨hq, hqlow, -⟩ := timeInSamples_finiteIn hrate hfs
  obtain ⟨hq', hqlow', -⟩ := timeInSamples_finiteIn hrate' hfs'
  obtain ⟨hy, -, -⟩ := inverseTime_inverseRange hrate hfs
  obtain ⟨hy', -, -⟩ := inverseTime_inverseRange hrate' hfs'
  have hq0 : 0 < valueOf (timeInSamples fs rate) := by linarith
  have hq0' : 0 < valueOf (timeInSamples fs' rate') := by linarith
  obtain ⟨hfin', hfs8', -⟩ := hfs'
  have hprod : valueOf (timeConstant rate') * valueOf fs' ≤
      valueOf (timeConstant rate) * valueOf fs :=
    mul_le_mul (timeConstant_antitone hrate hrate' hr) hf (by linarith) (by linarith)
  have htime := (fmul_isRounding ht' hfin' hq').mono (fmul_isRounding ht hfs.finite hq) hprod
  refine (fdiv_isRounding (by decide +kernel) hq hq0.ne' hy).mono
    (fdiv_isRounding (by decide +kernel) hq' hq0'.ne' hy') ?_
  rw [valueOf_one]
  exact one_div_le_one_div_of_le hq0' htime

end steps

/-! The last exponential. -/

/-- The exponential of the least last exponent, bounded by the cubic partial sum. -/
theorem le_exp_inverse : ((16982133894 / 2 ^ 34 : ℚ) : ℝ) ≤ Real.exp (-(198882022 / 2 ^ 34)) := by
  refine le_trans ?_ (expSeries_le_exp (by norm_num) (by norm_num) 1)
  norm_num [expSeries, Finset.sum_range_succ, Nat.factorial]

/-- The exponential of the greatest last exponent, with a gap to spare below 1.0. -/
theorem exp_inverse_le :
    Real.exp (-(293203100 / 2 ^ 50)) + 1 / 2 ^ 52 ≤ ((1 - 293203000 / 2 ^ 50 : ℚ) : ℝ) := by
  have herror := Real.abs_exp_sub_one_sub_id_le (x := -(293203100 / 2 ^ 50))
    (by rw [abs_neg, abs_of_nonneg] <;> norm_num)
  have hquad : (-(293203100 / 2 ^ 50) : ℝ) ^ 2 ≤ 1 / 2 ^ 43 := by norm_num
  obtain ⟨-, hle⟩ := abs_le.1 herror
  push_cast
  linarith

section last
variable {y : Word} (hy : InverseRange y)
include hy

/-- The exponent of the last exponential is an argument of `EXP64`. -/
theorem neg_inverse_argument :
    isFinite (fneg y) = true ∧ -7 ≤ valueOf (fneg y) ∧ valueOf (fneg y) ≤ 0 := by
  obtain ⟨hfin, hlow, hhigh⟩ := hy
  rw [valueOf_fneg hfin]
  exact ⟨isFinite_fneg hfin, by linarith, by linarith⟩

theorem exp64_inverse_finiteIn :
    FiniteIn (16982133894 / 2 ^ 34) (1 - 293203000 / 2 ^ 50) (exp64 .binary64 (fneg y)) := by
  obtain ⟨hneg, h7, h0⟩ := neg_inverse_argument hy
  obtain ⟨hfin, hlow, hhigh⟩ := hy
  obtain ⟨he, -, hbound⟩ := exp64_bounds hneg h7 h0
  have hvalue : ((valueOf (fneg y) : ℚ) : ℝ) = -(valueOf y : ℚ) := by
    rw [valueOf_fneg hfin, Rat.cast_neg]
  have hlow' : ((293203100 / 2 ^ 50 : ℚ) : ℝ) ≤ (valueOf y : ℚ) := Rat.cast_le.2 hlow
  have hhigh' : ((valueOf y : ℚ) : ℝ) ≤ (198882022 / 2 ^ 34 : ℚ) := Rat.cast_le.2 hhigh
  push_cast at hlow' hhigh'
  refine ⟨he, hbound _ (representable_dyadic 16982133894 34 (by norm_num))
    (le_exp_inverse.trans ?_), ?_⟩
  · rw [hvalue]
    exact Real.exp_le_exp.2 (neg_le_neg hhigh')
  · have hup := exp64_le hneg h7 h0
    rw [hvalue] at hup
    have hexp := Real.exp_le_exp.2 (neg_le_neg hlow')
    exact_mod_cast hup.trans ((add_le_add_left hexp _).trans exp_inverse_le)

theorem coefOfInverse_finiteIn :
    FiniteIn (293203000 / 2 ^ 50) (197735290 / 2 ^ 34) (coefOfInverse y) := by
  obtain ⟨he, hlow, hhigh⟩ := exp64_inverse_finiteIn hy
  exact fsub_keepsBounds (by decide +kernel) he _ _
    (representable_dyadic 293203000 50 (by norm_num))
    (representable_dyadic 197735290 34 (by norm_num)) (by rw [valueOf_one]; linarith)
    (by rw [valueOf_one]; linarith)

theorem coefOfInverse_mono {y' : Word} (hy' : InverseRange y') (h : valueOf y ≤ valueOf y') :
    valueOf (coefOfInverse y) ≤ valueOf (coefOfInverse y') := by
  obtain ⟨hneg, -, h0⟩ := neg_inverse_argument hy
  obtain ⟨hneg', h7, -⟩ := neg_inverse_argument hy'
  obtain ⟨he, -, -⟩ := exp64_inverse_finiteIn hy
  obtain ⟨he', -, -⟩ := exp64_inverse_finiteIn hy'
  have hexp := exp64_mono hneg' hneg h7 h0
    (by rw [valueOf_fneg hy.finite, valueOf_fneg hy'.finite]; exact neg_le_neg h)
  exact (fsub_isRounding (by decide +kernel) he (coefOfInverse_finiteIn hy).finite).mono
    (fsub_isRounding (by decide +kernel) he' (coefOfInverse_finiteIn hy').finite)
    (sub_le_sub_left hexp _)

end last

end Sys2Proof.Machine

namespace Sys2Proof.Proofs

open Sys2Proof.Machine

/-- Settles O47: the bounds of each step of `CoefOf`, one after the other. -/
theorem coefficientRange : Obligations.CoefficientRange := by
  intro cfg rate fs hcfg hrate hfs
  have hinverse := inverseTime_inverseRange (rate_finiteIn hcfg hrate)
    (sampleRate_finiteIn hcfg hfs)
  obtain ⟨hfin, hlow, hhigh⟩ := coefOfInverse_finiteIn hinverse
  rw [coefOf_eq hcfg]
  exact ⟨hfin, le_trans (by norm_num) hlow, hhigh.trans (by norm_num)⟩

/-- Settles O48: each step of `CoefOf` keeps the order or turns it round. -/
theorem coefficientMonotone : Obligations.CoefficientMonotone := by
  intro cfg rate rate' fs fs' hcfg hrate hrate' hfs hfs' hr hf
  have hrate := rate_finiteIn hcfg hrate
  have hrate' := rate_finiteIn hcfg hrate'
  have hfs := sampleRate_finiteIn hcfg hfs
  have hfs' := sampleRate_finiteIn hcfg hfs'
  rw [fle_iff hrate.finite hrate'.finite] at hr
  rw [fle_iff hfs'.finite hfs.finite] at hf
  have hinverse := inverseTime_inverseRange hrate hfs
  have hinverse' := inverseTime_inverseRange hrate' hfs'
  rw [coefOf_eq hcfg, coefOf_eq hcfg, fle_iff (coefOfInverse_finiteIn hinverse).finite
    (coefOfInverse_finiteIn hinverse').finite]
  exact coefOfInverse_mono hinverse hinverse' (inverseTime_mono hrate hrate' hfs hfs' hr hf)

end Sys2Proof.Proofs

/-!
SUPPORT and PROOFS. 41_note_control: the gate commands and the query (R96 to R98), and the release
that a noteOff right after a noteOn makes of a level of +0.0 (R97, 42_process R113).
-/

namespace Sys2Proof.Machine

/-! The arithmetic of zeros (00_scope R13). -/

section zeros
variable (fmt : Fmt)

/-- A magnitude of no units is packed as it is, with its sign. -/
theorem packRounded_zero (neg : Bool) (d : Nat) : packRounded fmt neg 0 d = pack neg 0 := by
  have hround : roundNearest fmt 0 d = 0 := by simp [roundNearest]
  have hoverflow : 0 < overflowMag fmt := by cases fmt <;> decide +kernel
  simp only [packRounded, hround, if_pos hoverflow]

theorem fadd_of_zeros {a b : Word} {sa sb : Bool} (ha : unpack a = .fin sa 0)
    (hb : unpack b = .fin sb 0) : fadd fmt a b = pack (sa && sb) 0 := by
  simp [fadd, ha, hb, signedMag]

theorem fmul_zero_right {a b : Word} {sa sb : Bool} {m : Nat} (ha : unpack a = .fin sa m)
    (hb : unpack b = .fin sb 0) : fmul fmt a b = pack (sa != sb) 0 := by
  simp only [fmul, ha, hb, Nat.mul_zero, packRounded_zero]

theorem unpack_pack_zero (neg : Bool) : unpack (pack neg 0) = .fin neg 0 :=
  unpack_pack neg ⟨by decide +kernel, dvd_zero _⟩

/-- From +0.0 toward +0.0 a sample stays at +0.0, whatever the sign of the product. -/
theorem approached_zero {c : Word} (hc : isFinite c = true) :
    approached fmt Word.zero c Word.zero = Word.zero := by
  obtain ⟨neg, m, hc⟩ := isFinite_iff.1 hc
  have hzero : unpack Word.zero = .fin false 0 := by decide +kernel
  have hpack : pack false 0 = Word.zero := pack_unpack hzero
  have hdiff : fsub fmt Word.zero Word.zero = Word.zero :=
    (fadd_of_zeros fmt hzero (unpack_fneg hzero)).trans hpack
  have hproduct := fmul_zero_right fmt hc hzero
  rw [approached, hdiff, hproduct, fadd_of_zeros fmt hzero (unpack_pack_zero _), Bool.false_and,
    hpack]

end zeros

/-! The gate (41_note_control R96, R97). -/

section gate
variable (e : Envelope)

@[simp] theorem gateOn_active : e.gateOn.active = true := rfl

@[simp] theorem gateOff_active : e.gateOff.active = e.active := by
  obtain ⟨-, h⟩ | ⟨hs, h⟩ := gateOff_cases e <;> rw [h]
  rw [active_eq, active_eq, decide_eq_true hs]
  rfl

theorem gateOff_of_ne_idle {e : Envelope} (hs : e.stage ≠ .idle) :
    e.gateOff = { e with stage := .release } := if_neg hs

/-- A noteOff has nothing to do in Idle, nor in Release. -/
theorem gateOff_eq_self {e : Envelope} (hs : e.stage = .idle ∨ e.stage = .release) :
    e.gateOff = e := by
  obtain ⟨-, h⟩ | ⟨hne, h⟩ := gateOff_cases e <;> rw [h]
  rw [← hs.resolve_left hne]

/-- What the gate command or the query `i` leaves of an envelope `e` that it makes `e'` of. -/
structure GateFrame (i : Instr) (e e' : Envelope) : Prop where
  programming : e' = { e with stage := e'.stage, level := e'.level }
  level : i ≠ .noteOn → e'.level = e.level
  stage : i = .isActive → e'.stage = e.stage

theorem GateFrame.refl (i : Instr) (e : Envelope) : GateFrame i e e :=
  ⟨rfl, fun _ => rfl, fun _ => rfl⟩

theorem after_gateFrame (cfg : Config) {i : Instr}
    (hi : i = .noteOn ∨ i = .noteOff ∨ i = .isActive) :
    GateFrame i e (e.after cfg i) := by
  obtain rfl | rfl | rfl := hi
  · exact ⟨rfl, fun h => absurd rfl h, fun h => by cases h⟩
  · rw [Envelope.after]
    obtain ⟨-, h⟩ | ⟨-, h⟩ := gateOff_cases e <;> rw [h]
    · exact .refl _ _
    · exact ⟨rfl, fun _ => rfl, fun h => by cases h⟩
  · exact .refl _ _

end gate

/-- A noteOff right after a noteOn leaves Release at +0.0, and the programming as it was. -/
theorem exec_noteOn_noteOff (s : State) :
    ∃ a b, exec .noteOn s = .next a ∧ exec .noteOff a = .next b ∧ b.cfg = s.cfg ∧ b.sel = s.sel ∧
      b.inst s.sel = { s.inst s.sel with stage := .release, level := Word.zero } := by
  refine ⟨s.finish s.current.gateOn none, _, rfl, rfl, rfl, rfl, ?_⟩
  rw [finish_current]
  exact finish_inst_sel (s.finish s.current.gateOn none) _ _

/-- With the default target, a sample of Release at +0.0 ends in Idle, if the floor is positive
(42_process R113). -/
theorem sample_of_release_zero {cfg : Config} {e : Envelope} (htarget : cfg.releaseTarget = .zero)
    (hfloor : flt Word.zero cfg.kFloor = true) (hcoef : isFinite e.coef.v4 = true)
    (hstage : e.stage = .release) (hlevel : e.level = Word.zero) :
    e.sample cfg = { e with level := Word.zero, stage := .idle } := by
  have hzero : releaseTarget cfg e = Word.zero := by rw [releaseTarget, htarget]
  have happroached : approached cfg.fmt e.level e.coef.v4 (releaseTarget cfg e) = Word.zero := by
    rw [hlevel, hzero, approached_zero cfg.fmt hcoef]
  rw [sample_of_release hstage]
  obtain ⟨-, h⟩ | ⟨hnot, -⟩ := releaseArm_cases (cfg := cfg) (e := e)
  · exact h
  · rw [happroached, hfloor] at hnot
    cases hnot

/-- With the default target, Release reads the coefficients only (42_process R114). -/
theorem programmed_of_release {cfg : Config} {e : Envelope} (htarget : cfg.releaseTarget = .zero)
    (hstage : e.stage = .release) (hmark : e.coefMark = .written) : e.programmed cfg = true := by
  simp [Envelope.programmed, hstage, htarget, hmark]

end Sys2Proof.Machine

namespace Sys2Proof.Proofs

open Sys2Proof.Machine

/-- Settles O20: the command finishes with `Envelope.gateOff`, which after `Envelope.gateOn` finds
Attack at +0.0. -/
theorem noteOffReleasesUnlessIdle : Obligations.NoteOffReleasesUnlessIdle := by
  refine ⟨fun s => ?_, fun s => ?_⟩
  · obtain ⟨t, ht, hinst, hresponse, hcfg, hstream, hother⟩ :=
      exec_writes (i := .noteOff) (s := s) rfl (by simp)
    refine ⟨t, ht, hresponse, hcfg, hstream, hother, ?_⟩
    rw [hinst]
    exact ⟨gateOff_active _, gateOff_of_ne_idle, gateOff_eq_self⟩
  · obtain ⟨a, t, ha, ht, -, -, hinst⟩ := exec_noteOn_noteOff s
    exact ⟨a, t, ha, ht, by rw [hinst], by rw [hinst]⟩

/-- Settles O22: what the command makes of the selected envelope has the frame, and the others are
untouched. -/
theorem gateCommandFrame : Obligations.GateCommandFrame := by
  intro i s t hi h
  obtain ⟨-, -, rfl⟩ := exec_next h
  refine ⟨rfl, rfl, rfl, fun _ => finish_inst_other _ _ _, fun k => ?_⟩
  have frame : GateFrame i (s.inst k)
      ((s.finish (s.current.after s.cfg i) (s.current.answer s.cfg i)).inst k) := by
    rw [finish_inst]
    split
    · next hk => exact hk ▸ after_gateFrame _ _ hi
    · exact .refl _ _
  exact ⟨frame.programming, frame.level, frame.stage⟩

/-- Settles O23: the gate leaves Release at +0.0, where every term of the approach is a zero, below
any positive floor. -/
theorem noteOnNoteOffProcessIsIdle : Obligations.NoteOnNoteOffProcessIsIdle := by
  intro s htarget hfloor hmark hcoef
  obtain ⟨a, b, ha, hb, hcfg, hsel, hinst⟩ := exec_noteOn_noteOff s
  have hcurrent : b.current = { s.inst s.sel with stage := .release, level := Word.zero } := by
    rw [State.current, hsel, hinst]
  rw [← hcfg] at htarget hfloor
  have hsample : b.current.sample b.cfg = { b.current with level := Word.zero, stage := .idle } :=
    sample_of_release_zero htarget hfloor (by rw [hcurrent]; exact hcoef) (by rw [hcurrent])
      (by rw [hcurrent])
  have hprogrammed : b.current.programmed b.cfg = true :=
    programmed_of_release htarget (by rw [hcurrent]) (by rw [hcurrent]; exact hmark)
  refine ⟨a, b, _, ha, hb, exec_of_wellFormed rfl fun _ => hprogrammed, ?_⟩
  rw [← hsel, finish_inst_sel, finish_response, Envelope.after, Envelope.answer, hsample]
  exact ⟨rfl, rfl, rfl⟩

/-- Settles O19: the command finishes with `Envelope.gateOn`, and is idempotent as every command but
process is (20_memory R53). -/
theorem noteOnArmsFromEveryStage : Obligations.NoteOnArmsFromEveryStage := by
  intro s
  obtain ⟨t, ht, hinst, hframe⟩ := exec_writes (i := .noteOn) (s := s) rfl (by simp)
  have hagain : exec .noteOn t = .next t :=
    commandsButProcessAreIdempotent .noteOn s t (by simp) ht
  exact ⟨t, ht, hagain, hinst, by rw [hinst]; exact gateOn_active _, hframe⟩

/-- Settles O21: the query finishes with the envelope it finds. -/
theorem isActiveAnswersAndChangesNothing : Obligations.IsActiveAnswersAndChangesNothing := by
  intro s
  rw [exec, execIsActive, finish_current_self, active_eq, State.current]

end Sys2Proof.Proofs

/-!
SUPPORT and PROOFS. 42_process R106 to R116: the arms of the sample, the programming check and the
response.
-/

namespace Sys2Proof.Machine

/-! The outcome of process (42_process R106, R114, R116). -/

section process
variable {s : State} {e : Envelope}

/-- A programmed process writes the sample of the selected envelope and its response, and no
more. -/
theorem exec_process_of_programmed (hp : (s.inst s.sel).programmed s.cfg = true)
    (he : (s.inst s.sel).sample s.cfg = e) :
    ∃ t, exec .process s = .next t ∧ t.response = some (.level e.level) ∧ t.cfg = s.cfg ∧
      t.stream = s.stream ∧ (∀ k, k ≠ s.sel → t.inst k = s.inst k) ∧ t.inst s.sel = e := by
  subst he
  exact ⟨_, exec_of_wellFormed rfl fun _ => hp, rfl, rfl, rfl,
    fun _ => finish_inst_other _ _ _, finish_inst_sel _ _ _⟩

/-- A programmed process whose sample is the selected envelope changes the response alone. -/
theorem exec_process_of_sample_self (hp : (s.inst s.sel).programmed s.cfg = true)
    (he : (s.inst s.sel).sample s.cfg = s.inst s.sel) :
    exec .process s = .next { s with response := some (.level (s.inst s.sel).level) } := by
  rw [exec_of_wellFormed rfl fun _ => hp, Envelope.after, Envelope.answer, State.current, he]
  exact congrArg _ (finish_current_self s _)

theorem exec_process_eq_fault_iff {f : Fault} :
    exec .process s = .fault f ↔
      f = .unprogrammedRead (s.inst s.sel).stage ∧ (s.inst s.sel).programmed s.cfg = false := by
  rw [exec, execProcess, State.current]
  cases (s.inst s.sel).programmed s.cfg <;> simp [eq_comm]

end process

/-! The programming check (42_process R114). -/

section programmed
variable {cfg : Config} {e : Envelope}

/-- No arm reads anything but coefficients and levels. -/
theorem programmed_of_written (hc : e.coefMark = .written) (hl : e.lvlMark = .written) :
    e.programmed cfg = true := by
  unfold Envelope.programmed
  cases e.stage <;> cases cfg.sustainMode <;> cases cfg.releaseTarget <;> simp [hc, hl]

theorem programmed_of_idle (hs : e.stage = .idle) : e.programmed cfg = true := by
  simp only [Envelope.programmed, hs]

theorem programmed_of_freeze (hs : e.stage = .sustain) (hm : cfg.sustainMode = .freeze) :
    e.programmed cfg = true := by
  simp only [Envelope.programmed, hs, hm]

theorem programmed_of_trackL3 (hs : e.stage = .sustain) (hm : cfg.sustainMode = .trackL3)
    (hl : e.lvlMark = .written) : e.programmed cfg = true := by
  simp only [Envelope.programmed, hs, hm, hl, decide_true]

theorem ne_written_iff {m : Mark} : m ≠ .written ↔ m = .unset := by
  cases m <;> simp

/-- The table of R114, stage by stage. -/
theorem programmed_eq_false_iff :
    e.programmed cfg = false ↔
      ((e.stage = .attack ∨ e.stage = .decay1 ∨ e.stage = .decay2) ∧
          (e.coefMark = .unset ∨ e.lvlMark = .unset) ∨
        e.stage = .sustain ∧ cfg.sustainMode = .trackL3 ∧ e.lvlMark = .unset ∨
        e.stage = .release ∧
          (e.coefMark = .unset ∨ cfg.releaseTarget = .level4 ∧ e.lvlMark = .unset)) := by
  unfold Envelope.programmed
  cases e.stage with
  | idle => simp
  | attack | decay1 | decay2 => simp [imp_iff_not_or, ne_written_iff, ← ne_eq]
  | sustain => cases cfg.sustainMode <;> simp [ne_written_iff, ← ne_eq]
  | release => cases cfg.releaseTarget <;> simp [imp_iff_not_or, ne_written_iff, ← ne_eq]

end programmed

/-! The arms (42_process R108, R112, R113). -/

section arms
variable {cfg : Config} {e : Envelope}

theorem sustainArm_of_freeze (h : cfg.sustainMode = .freeze) : e.sustainArm cfg = e := by
  simp only [Envelope.sustainArm, h]

theorem sustainArm_of_trackL3 (h : cfg.sustainMode = .trackL3) :
    e.sustainArm cfg = { e with level := e.lvl.v3 } := by
  simp only [Envelope.sustainArm, h]

theorem releaseTarget_of_zero (h : cfg.releaseTarget = .zero) :
    releaseTarget cfg e = Word.zero := by
  simp only [releaseTarget, h]

theorem releaseTarget_of_level4 (h : cfg.releaseTarget = .level4) :
    releaseTarget cfg e = e.lvl.v4 := by
  simp only [releaseTarget, h]

/-- Toward +0.0 from +0.0 a single sample completes Attack, whatever the coefficient. -/
theorem attackArm_of_zero (hlevel : e.level = Word.zero) (htarget : e.lvl.v1 = Word.zero)
    (hc : isFinite e.coef.v1 = true) (hk : isFinite cfg.kAttack = true) :
    e.attackArm cfg = { e with level := Word.zero, stage := .decay1 } := by
  obtain ⟨neg, m, hk⟩ := isFinite_iff.1 hk
  have hthreshold : fmul cfg.fmt cfg.kAttack Word.zero = pack (neg != false) 0 :=
    fmul_zero_right cfg.fmt hk (by decide +kernel)
  have htest (b : Bool) : fle (pack b 0) Word.zero = true := by cases b <;> decide +kernel
  rw [Envelope.attackArm, hlevel, htarget, approached_zero cfg.fmt hc, hthreshold, htest,
    if_pos rfl]

end arms

end Sys2Proof.Machine

namespace Sys2Proof.Proofs

open Sys2Proof.Machine

/-- Settles O24: the Idle arm leaves the envelope as it is. -/
theorem processInIdleChangesNothing : Obligations.ProcessInIdleChangesNothing := by
  intro s hs
  have hnext := exec_process_of_sample_self (programmed_of_idle hs) (sample_of_idle hs)
  exact ⟨hnext, fun hsilent => hsilent hs ▸ hnext⟩

/-- Settles O25: the arm as it stands, and the product of `K_ATTACK` and +0.0, which is a zero. -/
theorem processInAttack : Obligations.ProcessInAttack := by
  refine ⟨fun s level hs hc hl hlevel => ?_, fun s hs hc hl hlevel htarget hcoef hk => ?_⟩
  · subst hlevel
    exact exec_process_of_programmed (programmed_of_written hc hl) (sample_of_attack hs)
  · obtain ⟨t, ht, -, -, -, -, hinst⟩ := exec_process_of_programmed
      (programmed_of_written hc hl)
      ((sample_of_attack hs).trans (attackArm_of_zero hlevel htarget hcoef hk))
    exact ⟨t, ht, by rw [hinst], by rw [hinst]⟩

/-- Settles O26: process finishes with the arm of its stage. -/
theorem processInDecay1 : Obligations.ProcessInDecay1 := by
  intro s level hs hc hl hlevel
  subst hlevel
  exact exec_process_of_programmed (programmed_of_written hc hl) (sample_of_decay1 hs)

/-- Settles O27: process finishes with the arm of its stage. -/
theorem processInDecay2 : Obligations.ProcessInDecay2 := by
  intro s level hs hc hl hlevel
  subst hlevel
  exact exec_process_of_programmed (programmed_of_written hc hl) (sample_of_decay2 hs)

/-- Settles O28: the two modes of the Sustain arm, of which FREEZE reads no UNSET element. -/
theorem processInSustain : Obligations.ProcessInSustain := by
  refine ⟨fun s hs hm => ?_, fun s hs hm hl => ?_⟩
  · exact exec_process_of_sample_self (programmed_of_freeze hs hm)
      ((sample_of_sustain hs).trans (sustainArm_of_freeze hm))
  · obtain ⟨t, ht, hresponse, hcfg, hstream, hother, hinst⟩ := exec_process_of_programmed
      (programmed_of_trackL3 hs hm hl) ((sample_of_sustain hs).trans (sustainArm_of_trackL3 hm))
    exact ⟨t, ht, hinst, hresponse, hcfg, hstream, hother⟩

/-- Settles O29: the two outcomes of the Release arm, toward the target of either choice. -/
theorem processInRelease : Obligations.ProcessInRelease := by
  intro s target level hs hc htarget hlevel
  have hread : (s.inst s.sel).programmed s.cfg = true ∧
      releaseTarget s.cfg (s.inst s.sel) = target := by
    obtain ⟨hzero, rfl⟩ | ⟨hfour, hl, rfl⟩ := htarget
    · exact ⟨programmed_of_release hzero hs hc, releaseTarget_of_zero hzero⟩
    · exact ⟨programmed_of_written hc hl, releaseTarget_of_level4 hfour⟩
  obtain ⟨hp, htarget⟩ := hread
  have happroached : approached s.cfg.fmt (s.inst s.sel).level (s.inst s.sel).coef.v4
      (releaseTarget s.cfg (s.inst s.sel)) = level := by rw [htarget, hlevel]; rfl
  obtain ⟨t, ht, hresponse, hcfg, hstream, hother, hinst⟩ :=
    exec_process_of_programmed hp (sample_of_release hs)
  refine ⟨t, ht, hcfg, hstream, hother, ?_⟩
  rw [hresponse, hinst]
  have hcases := releaseArm_cases (cfg := s.cfg) (e := s.inst s.sel)
  rw [happroached] at hcases
  obtain ⟨htest, harm⟩ | ⟨htest, harm⟩ := hcases <;> rw [harm, htest]
  · exact ⟨fun _ => ⟨rfl, rfl⟩, nofun⟩
  · exact ⟨nofun, fun _ => ⟨rfl, rfl⟩⟩

/-- Settles O30: process faults exactly where the programming check fails, which is the table. -/
theorem processFaultsExactlyWhenUnprogrammed :
    Obligations.ProcessFaultsExactlyWhenUnprogrammed := by
  intro s f
  rw [exec_process_eq_fault_iff, programmed_eq_false_iff]

/-- Settles O31: process finishes with a sample, which writes the stage and the level alone. -/
theorem processFrameAndResponse : Obligations.ProcessFrameAndResponse := by
  intro s t h
  obtain ⟨-, -, rfl⟩ := exec_next h
  refine ⟨rfl, rfl, rfl, ?_, fun _ => finish_inst_other _ _ _, ?_⟩ <;> rw [finish_inst_sel]
  · rfl
  · exact sample_eq _ _

end Sys2Proof.Proofs

/-!
SUPPORT and PROOFS. 42_process R117 to R119, R122: the approach, and how long the stages last.
-/

namespace Sys2Proof.Machine

/-! Absolute values and comparisons, as values. -/

/-- The absolute value clears the sign bit and keeps the exponent and the fraction. -/
theorem unpack_fabs {w : Word} {neg : Bool} {m : Nat} (h : unpack w = .fin neg m) :
    unpack (fabs w) = .fin false m := by
  have hN : (fabs w).toNat = w.toNat % 2 ^ 63 := by
    rw [fabs, BitVec.toNat_and]
    exact Nat.and_two_pow_sub_one_eq_mod w.toNat 63
  have he : expField (fabs w) = expField w := by
    unfold expField
    omega
  have hf : fracField (fabs w) = fracField w := by
    unfold fracField
    omega
  have hs : (fabs w).msb = false := by
    rw [BitVec.msb_eq_decide, hN, decide_eq_false_iff_not]
    omega
  unfold unpack at h ⊢
  rw [he, hf, hs]
  split_ifs at h ⊢ <;> cases h <;> rfl

theorem isFinite_fabs {w : Word} (h : isFinite w = true) : isFinite (fabs w) = true := by
  obtain ⟨neg, m, hw⟩ := isFinite_iff.1 h
  exact isFinite_iff.2 ⟨_, _, unpack_fabs hw⟩

theorem valueOf_fabs {w : Word} (h : isFinite w = true) : valueOf (fabs w) = |valueOf w| := by
  obtain ⟨neg, m, hw⟩ := isFinite_iff.1 h
  rw [valueOf_of_unpack (unpack_fabs hw), valueOf_of_unpack hw, abs_div, abs_mul, abs_signFactor,
    Nat.abs_cast, Nat.abs_cast, signFactor, if_neg Bool.false_ne_true]

theorem flt_eq_false_iff {a b : Word} (ha : isFinite a = true) (hb : isFinite b = true) :
    flt a b = false ↔ valueOf b ≤ valueOf a := by
  rw [← not_lt, ← flt_iff ha hb, Bool.not_eq_true]

theorem flt_iff_orderKey {a b : Word} :
    flt a b = true ↔
      ∃ x y, orderKey (unpack a) = some x ∧ orderKey (unpack b) = some y ∧ x < y := by
  unfold flt
  cases orderKey (unpack a) <;> cases orderKey (unpack b) <;> simp

theorem fle_iff_orderKey {a b : Word} :
    fle a b = true ↔
      ∃ x y, orderKey (unpack a) = some x ∧ orderKey (unpack b) = some y ∧ x ≤ y := by
  unfold fle
  cases orderKey (unpack a) <;> cases orderKey (unpack b) <;> simp

/-- A bound, an infinity included, holds of every smaller value. -/
theorem flt_of_fle_of_flt {a b x : Word} (h : fle a b = true) (hx : flt b x = true) :
    flt a x = true := by
  obtain ⟨ka, kb, ha, hb, hab⟩ := fle_iff_orderKey.1 h
  obtain ⟨kb', kx, hb', hx, hbx⟩ := flt_iff_orderKey.1 hx
  obtain rfl : kb = kb' := Option.some.inj (hb.symm.trans hb')
  exact flt_iff_orderKey.2 ⟨ka, kx, ha, hx, hab.trans_lt hbx⟩

theorem signedMag_bounds (neg : Bool) (m : Nat) :
    -(m : Int) ≤ signedMag neg m ∧ signedMag neg m ≤ m := by
  cases neg <;> simp [signedMag]

/-- The order of a finite value lies between those of the infinities. -/
theorem orderKey_of_isFinite {w : Word} (h : isFinite w = true) :
    ∃ x, orderKey (unpack w) = some x ∧ -(2 ^ 2098 : Nat) < x ∧ x < (2 ^ 2098 : Nat) := by
  obtain ⟨neg, m, hw⟩ := isFinite_iff.1 h
  obtain ⟨hm, -⟩ := unpack_isValue hw
  rw [overflowMag_binary64] at hm
  obtain ⟨hlow, hhigh⟩ := signedMag_bounds neg m
  refine ⟨signedMag neg m, by rw [hw, orderKey], ?_, ?_⟩ <;> generalize 2 ^ 2098 = N at hm ⊢ <;>
    omega

/-- A number between two finite ones is finite. -/
theorem isFinite_of_flt_of_fle {low high x : Word} (hl : isFinite low = true)
    (hh : isFinite high = true) (hlow : flt low x = true) (hhigh : fle x high = true) :
    isFinite x = true := by
  obtain ⟨kl, hkl, hl, -⟩ := orderKey_of_isFinite hl
  obtain ⟨kh, hkh, -, hh⟩ := orderKey_of_isFinite hh
  obtain ⟨l, k, hl', hk, hlk⟩ := flt_iff_orderKey.1 hlow
  obtain ⟨k', h, hk', hh', hkh'⟩ := fle_iff_orderKey.1 hhigh
  rw [hkl, Option.some.injEq] at hl'
  rw [hkh, Option.some.injEq] at hh'
  rw [hk, Option.some.injEq] at hk'
  unfold isFinite
  cases hx : unpack x with
  | fin => rfl
  | nan => rw [hx] at hk; cases hk
  | inf neg =>
    rw [hx, orderKey, Option.some.injEq] at hk
    generalize 2 ^ 2098 = N at *
    cases neg <;> simp only [signedMag, Bool.false_eq_true, ↓reduceIte] at hk <;> omega

/-- A coefficient in the range of R87 is in [2^-22, 1/2]. -/
theorem inCoefRange_finiteIn {c : Word} (h : inCoefRange c = true) :
    FiniteIn (1 / 2 ^ 22) (1 / 2) c := by
  obtain ⟨hfin, hlow, hhigh⟩ := (inDomain_iff (by decide +kernel) (by decide +kernel)).1 h
  have hlow' : 1 / 2 ^ 22 ≤ valueOf 0x3E9172C417C771EF#64 := by decide +kernel
  have hhigh' : valueOf 0x3FDF5C28F5C28F5C#64 ≤ 1 / 2 := by decide +kernel
  exact ⟨hfin, hlow'.trans hlow, hhigh.trans hhigh'⟩

theorem inCoefRange_inHalf {c : Word} (h : inCoefRange c = true) : InHalf c := by
  obtain ⟨hfin, hlow, hhigh⟩ := inCoefRange_finiteIn h
  exact ⟨hfin, by linarith, hhigh⟩

/-! The distance to the next value of the format. -/

/-- The gap at `x`, as a number. -/
def ulp (x : ℚ) : ℚ := gap .binary64 ⌊x * unitsPerOne⌋₊ / unitsPerOne

theorem ulp_pos (x : ℚ) : 0 < ulp x :=
  div_pos (Nat.cast_pos.2 (gap_pos _ _)) (Nat.cast_pos.2 unitsPerOne_pos)

/-- Of a normal number the gap is one part in 2^52 at most. -/
theorem gap_mul_le {m : Nat} (h : 2 ^ 52 ≤ m) : gap .binary64 m * 2 ^ 52 ≤ m := by
  have hne : m ≠ 0 := by omega
  have hlog : 52 ≤ m.log2 := (Nat.le_log2 hne).2 h
  have hplace : lastPlace 53 0 m + 52 = m.log2 := by
    unfold lastPlace
    omega
  calc gap .binary64 m * 2 ^ 52 = 2 ^ (lastPlace 53 0 m + 52) := (pow_add 2 _ 52).symm
    _ = 2 ^ m.log2 := by rw [hplace]
    _ ≤ m := Nat.log2_self_le hne

theorem two_pow_le_units : (2 ^ 52 : ℚ) ≤ 1 / 2 ^ 1000 * unitsPerOne := by decide +kernel

/-- Up to a number well above the subnormals the gap is one part in 2^52 of that number at most. -/
theorem ulp_mul_le {x y : ℚ} (h : x ≤ y) (hy : 1 / 2 ^ 1000 ≤ y) : ulp x * 2 ^ 52 ≤ y := by
  have hU : (0 : ℚ) < unitsPerOne := by exact_mod_cast unitsPerOne_pos
  have hyU := two_pow_le_units.trans (mul_le_mul_of_nonneg_right hy hU.le)
  have hfloor : ⌊x * unitsPerOne⌋₊ ≤ ⌊y * unitsPerOne⌋₊ :=
    Nat.floor_le_floor (mul_le_mul_of_nonneg_right h hU.le)
  have hle : gap .binary64 ⌊x * unitsPerOne⌋₊ * 2 ^ 52 ≤ ⌊y * unitsPerOne⌋₊ :=
    (Nat.mul_le_mul_right _ (gap_mono _ hfloor)).trans
      (gap_mul_le (Nat.le_floor (by exact_mod_cast hyU)))
  rw [ulp, div_mul_eq_mul_div, div_le_iff₀ hU]
  calc (gap .binary64 ⌊x * unitsPerOne⌋₊ : ℚ) * 2 ^ 52 ≤ ⌊y * unitsPerOne⌋₊ := by exact_mod_cast hle
    _ ≤ y * unitsPerOne := Nat.floor_le ((by norm_num : (0 : ℚ) ≤ 2 ^ 52).trans hyU)

theorem isValue_gap {m : Nat} (h : m ≤ unitsPerOne) : IsValue .binary64 (gap .binary64 m) := by
  have hone : gap .binary64 unitsPerOne < overflowMag .binary64 := by decide +kernel
  exact ⟨(gap_mono _ h).trans_lt hone, gap_dvd_of_le .binary64 (Nat.zero_le _) dvd_rfl
    (Nat.pow_le_pow_right (by omega) (by omega))⟩

/-- The value of the format just below one of it is one, or 0. -/
theorem isValue_sub_gap {m : Nat} (h : IsValue .binary64 m) :
    IsValue .binary64 (m - gap .binary64 m) := by
  obtain ⟨hlt, hdvd⟩ := h
  refine ⟨(Nat.sub_le _ _).trans_lt hlt, gap_dvd_of_le .binary64 (Nat.zero_le _)
    (Nat.dvd_sub hdvd dvd_rfl) ?_⟩
  exact (Nat.sub_le _ _).trans (lt_two_pow_lastPlace _ _ _ (precision_pos _)).le

/-- A level in [0, 1] and its gap in units, a count that the format has. -/
theorem inUnit_value {w : Word} (h : inUnit w = true) :
    ∃ m, IsValue .binary64 m ∧ m ≤ unitsPerOne ∧ valueOf w = m / unitsPerOne ∧
      ulp (valueOf w) = gap .binary64 m / unitsPerOne := by
  obtain ⟨m, hle, hm⟩ := inUnit_units h
  obtain ⟨hfin, h0, -⟩ := inUnit_iff.1 h
  obtain ⟨m', hvalue, hm'⟩ := (representable_valueOf hfin).abs_units
  rw [abs_of_nonneg h0, hm, div_mul_cancel₀ _ unitsPerOne_cast_ne_zero, Nat.cast_inj] at hm'
  subst hm'
  refine ⟨m, hvalue, hle, hm, ?_⟩
  rw [ulp, hm, div_mul_cancel₀ _ unitsPerOne_cast_ne_zero, Nat.floor_natCast]

section neighbours
variable {a b : Word} (ha : inUnit a = true)
include ha

theorem representable_ulp : Representable (ulp (valueOf a)) := by
  obtain ⟨m, -, hle, -, hulp⟩ := inUnit_value ha
  rw [hulp]
  exact representable_units (isValue_gap hle)

theorem representable_add_ulp (hb : inUnit b = true) (h : valueOf a < valueOf b) :
    Representable (valueOf a + ulp (valueOf a)) := by
  obtain ⟨m, ⟨hm, hdvd⟩, -, hval, hulp⟩ := inUnit_value ha
  obtain ⟨n, ⟨hn, hdvd'⟩, -, hval', -⟩ := inUnit_value hb
  rw [hval, hval', div_lt_div_iff_of_pos_right (Nat.cast_pos.2 unitsPerOne_pos), Nat.cast_lt] at h
  rw [hulp, hval, ← add_div, ← Nat.cast_add]
  exact representable_units ⟨(add_gap_le hdvd hdvd' h).trans_lt hn, gap_dvd_add_gap hdvd⟩

theorem representable_sub_ulp (h : 0 < valueOf a) :
    Representable (valueOf a - ulp (valueOf a)) := by
  obtain ⟨m, hm, -, hval, hulp⟩ := inUnit_value ha
  rw [hval, div_pos_iff_of_pos_right (Nat.cast_pos.2 unitsPerOne_pos), Nat.cast_pos] at h
  rw [hulp, hval, ← sub_div, ← Nat.cast_sub (Nat.le_of_dvd h hm.2)]
  exact representable_units (isValue_sub_gap hm)

end neighbours

/-! The approach advances, unless the target is within some gaps of the level (42_process R117,
R118). -/

theorem representable_two : Representable 2 := representable_dyadic 2 0 (by norm_num)

section approach
variable {a b c : Word} (ha : inUnit a = true) (hb : inUnit b = true)
include ha hb

/-- The rounded difference is at least half the exact one. -/
theorem half_le_fsub (h : valueOf a ≤ valueOf b) :
    FiniteIn ((valueOf b - valueOf a) / 2) 1 (fsub .binary64 b a) := by
  obtain ⟨lo, hi, hbounds⟩ := exists_halvedBounds ha hb
  obtain ⟨hfa, ha0, -⟩ := inUnit_iff.1 ha
  obtain ⟨hfb, -, hb1⟩ := inUnit_iff.1 hb
  have hhalf := hbounds.hi_half.2
  have hhi := hbounds.le_hi
  rw [max_eq_right (sub_nonneg.2 h)] at hhalf
  obtain ⟨hfin, hlow, hhigh⟩ := fsub_keepsBounds hfb hfa (hi / 2) 1 hbounds.hi_half_rep
    representable_one hhalf (by linarith)
  exact ⟨hfin, by linarith, hhigh⟩

theorem fsub_le_half (h : valueOf b ≤ valueOf a) :
    FiniteIn (-1) ((valueOf b - valueOf a) / 2) (fsub .binary64 b a) := by
  obtain ⟨lo, hi, hbounds⟩ := exists_halvedBounds ha hb
  obtain ⟨hfa, -, ha1⟩ := inUnit_iff.1 ha
  obtain ⟨hfb, hb0, -⟩ := inUnit_iff.1 hb
  have hhalf := hbounds.lo_half.1
  have hlo := hbounds.lo_le
  rw [min_eq_right (sub_nonpos.2 h)] at hhalf
  obtain ⟨hfin, hlow, hhigh⟩ := fsub_keepsBounds hfb hfa (-1) (lo / 2) representable_one.neg
    hbounds.lo_half_rep (by linarith) hhalf
  exact ⟨hfin, hlow, by linarith⟩

theorem approached_of_le (hc : InHalf c) (h : valueOf a ≤ valueOf b) :
    valueOf a ≤ valueOf (approached .binary64 a c b) ∧
    valueOf (approached .binary64 a c b) ≤ valueOf b := by
  obtain ⟨hfc, hc0, hc1⟩ := hc
  obtain ⟨-, hmin, hmax⟩ := approached_between ha hb hfc hc0 hc1
  rw [min_eq_left h] at hmin
  rw [max_eq_right h] at hmax
  exact ⟨hmin, hmax⟩

theorem approached_of_ge (hc : InHalf c) (h : valueOf b ≤ valueOf a) :
    valueOf b ≤ valueOf (approached .binary64 a c b) ∧
    valueOf (approached .binary64 a c b) ≤ valueOf a := by
  obtain ⟨hfc, hc0, hc1⟩ := hc
  obtain ⟨-, hmin, hmax⟩ := approached_between ha hb hfc hc0 hc1
  rw [min_eq_right h] at hmin
  rw [max_eq_left h] at hmax
  exact ⟨hmin, hmax⟩

variable (hc : inCoefRange c = true)
include hc

/-- The move is at least a gap, and the next value above bounds the sum. -/
theorem lt_approached (hlt : valueOf a < valueOf b)
    (hmove : ulp (valueOf a) * 2 ^ 23 ≤ valueOf b - valueOf a) :
    valueOf a < valueOf (approached .binary64 a c b) := by
  obtain ⟨hfa, -, ha1⟩ := inUnit_iff.1 ha
  obtain ⟨hfc, hc0, hc1⟩ := inCoefRange_finiteIn hc
  obtain ⟨hfd, hd0, hd1⟩ := half_le_fsub ha hb hlt.le
  have hpos := ulp_pos (valueOf a)
  obtain ⟨hfp, hp0, hp1⟩ := fmul_keepsBounds hfc hfd (ulp (valueOf a)) 1 (representable_ulp ha)
    representable_one (by nlinarith) (by nlinarith)
  obtain ⟨-, hnext, -⟩ := fadd_keepsBounds hfa hfp (valueOf a + ulp (valueOf a)) 2
    (representable_add_ulp ha hb hlt) representable_two (by linarith) (by linarith)
  exact (lt_add_of_pos_right _ hpos).trans_le hnext

theorem approached_lt (hlt : valueOf b < valueOf a)
    (hmove : ulp (valueOf a) * 2 ^ 23 ≤ valueOf a - valueOf b) :
    valueOf (approached .binary64 a c b) < valueOf a := by
  obtain ⟨hfa, ha0, -⟩ := inUnit_iff.1 ha
  obtain ⟨-, hb0, -⟩ := inUnit_iff.1 hb
  obtain ⟨hfc, hc0, hc1⟩ := inCoefRange_finiteIn hc
  obtain ⟨hfd, hd0, hd1⟩ := fsub_le_half ha hb hlt.le
  have hpos := ulp_pos (valueOf a)
  obtain ⟨hfp, hp0, hp1⟩ := fmul_keepsBounds hfc hfd (-1) (-ulp (valueOf a))
    representable_one.neg (representable_ulp ha).neg (by nlinarith) (by nlinarith)
  obtain ⟨-, -, hnext⟩ := fadd_keepsBounds hfa hfp (-1) (valueOf a - ulp (valueOf a))
    representable_one.neg (representable_sub_ulp ha (hb0.trans_lt hlt)) (by linarith) (by linarith)
  exact hnext.trans_lt (sub_lt_self _ hpos)

/-- The approach moves a level that is at most `x` and is at least `x` / 2^20 away from its
target. -/
theorem approached_ne {x : ℚ} (hx : 1 / 2 ^ 1000 ≤ x) (hax : valueOf a ≤ x)
    (hfar : x ≤ |valueOf b - valueOf a| * 2 ^ 20) :
    valueOf (approached .binary64 a c b) ≠ valueOf a := by
  have hulp := ulp_mul_le hax hx
  have hpos := ulp_pos (valueOf a)
  have hmove : ulp (valueOf a) * 2 ^ 23 ≤ |valueOf b - valueOf a| := by linarith
  rcases lt_trichotomy (valueOf a) (valueOf b) with h | h | h
  · rw [abs_of_pos (sub_pos.2 h)] at hmove
    exact (lt_approached ha hb hc h hmove).ne'
  · have hzero : |valueOf b - valueOf a| = 0 := by rw [h, sub_self, abs_zero]
    linarith
  · rw [abs_of_neg (sub_neg.2 h), neg_sub] at hmove
    exact (approached_lt ha hb hc h hmove).ne

/-- A level that moves is nearer to its target, since it is not beyond. -/
theorem abs_approached_sub_lt (hne : valueOf (approached .binary64 a c b) ≠ valueOf a) :
    |valueOf (approached .binary64 a c b) - valueOf b| < |valueOf a - valueOf b| := by
  have hhalf := inCoefRange_inHalf hc
  rcases le_total (valueOf a) (valueOf b) with h | h
  · obtain ⟨hlow, hhigh⟩ := approached_of_le ha hb hhalf h
    rw [abs_of_nonpos (sub_nonpos.2 h), abs_of_nonpos (sub_nonpos.2 hhigh)]
    linarith [lt_of_le_of_ne hlow hne.symm]
  · obtain ⟨hlow, hhigh⟩ := approached_of_ge ha hb hhalf h
    rw [abs_of_nonneg (sub_nonneg.2 h), abs_of_nonneg (sub_nonneg.2 hlow)]
    linarith [lt_of_le_of_ne hhigh hne]

theorem abs_approached_sub_le :
    |valueOf (approached .binary64 a c b) - valueOf b| ≤ |valueOf a - valueOf b| := by
  by_cases hne : valueOf (approached .binary64 a c b) = valueOf a
  · rw [hne]
  · exact (abs_approached_sub_lt ha hb hc hne).le

end approach

/-! The completion tests (42_process R109 to R111, R113, R118, R119). -/

theorem inv_2048_lt_kEps : 1 / 2048 < valueOf Config.default.kEps := by decide +kernel

theorem inv_2048_lt_kFloor : 1 / 2048 < valueOf Config.default.kFloor := by decide +kernel

theorem kAttack_bounds :
    0 ≤ valueOf Config.default.kAttack ∧ valueOf Config.default.kAttack ≤ 991 / 1000 := by
  decide +kernel

theorem IsRounding.abs_mono {w w' : Word} {x x' : ℚ} (hw : IsRounding w x)
    (hw' : IsRounding w' x') (h : |x| ≤ |x'|) : |valueOf w| ≤ |valueOf w'| := by
  obtain ⟨neg, n, d, hd, hx, hv⟩ := hw
  obtain ⟨neg', n', d', hd', hx', hv'⟩ := hw'
  have hU : (0 : ℚ) < unitsPerOne := by exact_mod_cast unitsPerOne_pos
  have size {z y : ℚ} {s : Bool} (hy : 0 ≤ y) (hz : z * unitsPerOne = signFactor s * y) :
      |z| * unitsPerOne = y := by
    rw [← abs_of_pos hU, ← abs_mul, hz, abs_mul, abs_signFactor, one_mul, abs_of_nonneg hy]
  rw [← mul_le_mul_iff_left₀ hU] at h ⊢
  rw [size (div_nonneg n.cast_nonneg d.cast_nonneg) hx,
    size (div_nonneg n'.cast_nonneg d'.cast_nonneg) hx'] at h
  rw [size (Nat.cast_nonneg _) hv, size (Nat.cast_nonneg _) hv']
  exact roundNearest_mono_div hd hd' h

/-- An error of half a gap, as a number. -/
theorem WithinHalfGap.abs_sub_le {w : Word} {x : ℚ} (h : WithinHalfGap w x) :
    |valueOf w - x| * 2 ≤ ulp |x| := by
  rw [ulp, le_div_iff₀ (Nat.cast_pos.2 unitsPerOne_pos), mul_right_comm]
  exact h

section tests
variable {a b c : Word} (ha : inUnit a = true) (hb : inUnit b = true)
include ha hb

/-- The difference of two levels is finite. -/
theorem isFinite_fsub : isFinite (fsub .binary64 a b) = true := by
  rcases le_total (valueOf b) (valueOf a) with h | h
  · exact (half_le_fsub hb ha h).finite
  · exact (fsub_le_half hb ha h).finite

/-- A level that the default test finds away from its target is 2^-11 from it at least. -/
theorem far_of_withinEps_eq_false {cfg : Config} (hf : cfg.fmt = .binary64)
    (hk : cfg.kEps = Config.default.kEps) (h : withinEps cfg a b = false) :
    1 / 2048 ≤ |valueOf b - valueOf a| := by
  have hfin := isFinite_fsub ha hb
  rw [withinEps, hf, hk, flt_eq_false_iff (isFinite_fabs hfin) (by decide +kernel),
    valueOf_fabs hfin] at h
  by_contra hnear
  obtain ⟨hlow, hhigh⟩ := abs_lt.1 (not_le.1 hnear)
  have rep : Representable (1 / 2048) := representable_dyadic 1 11 (by norm_num)
  obtain ⟨-, hlow, hhigh⟩ := fsub_keepsBounds (inUnit_iff.1 ha).1 (inUnit_iff.1 hb).1 (-(1 / 2048))
    (1 / 2048) rep.neg rep (by linarith) (by linarith)
  linarith [inv_2048_lt_kEps, abs_le.2 ⟨hlow, hhigh⟩]

variable (hc : inCoefRange c = true)
include hc

/-- A sample that leaves the level well away from its target has moved it. -/
theorem approached_ne_of_far
    (hfar : 1 / 2048 ≤ |valueOf b - valueOf (approached .binary64 a c b)|) :
    valueOf (approached .binary64 a c b) ≠ valueOf a := by
  obtain ⟨-, -, ha1⟩ := inUnit_iff.1 ha
  have hle := abs_approached_sub_le ha hb hc
  rw [abs_sub_comm, abs_sub_comm (valueOf a)] at hle
  have hone : (1 / 2 ^ 1000 : ℚ) ≤ 1 := div_le_one_of_le₀ (one_le_pow₀ one_le_two) (by positivity)
  exact approached_ne ha hb hc hone ha1 (by linarith)

/-- Once a level is within any bound of its target, the approach keeps it so (42_process R119). -/
theorem withinEps_approached {cfg : Config} (hf : cfg.fmt = .binary64)
    (h : withinEps cfg a b = true) : withinEps cfg (approached .binary64 a c b) b = true := by
  have hu := approached_inUnit ha hb (inCoefRange_inHalf hc)
  have hfa := isFinite_fsub ha hb
  have hfn := isFinite_fsub hu hb
  have hround {x : Word} (hx : inUnit x = true) :=
    fsub_isRounding (inUnit_iff.1 hx).1 (inUnit_iff.1 hb).1 (isFinite_fsub hx hb)
  have hle := (hround hu).abs_mono (hround ha) (abs_approached_sub_le ha hb hc)
  rw [← valueOf_fabs hfa, ← valueOf_fabs hfn] at hle
  rw [withinEps, hf] at h ⊢
  exact flt_of_fle_of_flt ((fle_iff (isFinite_fabs hfn) (isFinite_fabs hfa)).2 hle) h

/-- Attack reaches a target at or below the level at once: rounding keeps `K_ATTACK ⊗ LVL[1]` at
most `LVL[1]`. Toward a higher one the threshold leaves a hundredth of the way, less a rounding. -/
theorem approached_ne_of_below_threshold (htarget : valueOf b = 0 ∨ 1 / 2 ^ 1000 ≤ valueOf b)
    (h : fle (fmul .binary64 Config.default.kAttack b) (approached .binary64 a c b) = false) :
    valueOf (approached .binary64 a c b) ≠ valueOf a := by
  obtain ⟨hfa, ha0, -⟩ := inUnit_iff.1 ha
  obtain ⟨hfb, hb0, -⟩ := inUnit_iff.1 hb
  obtain ⟨hk0, hk1⟩ := kAttack_bounds
  have hhalf := inCoefRange_inHalf hc
  have hfk : isFinite Config.default.kAttack = true := by decide +kernel
  obtain ⟨hfn, -⟩ := inUnit_iff.1 (approached_inUnit ha hb hhalf)
  obtain ⟨hft, -, hthreshold⟩ := fmul_keepsBounds hfk hfb 0 (valueOf b) representable_zero
    (representable_valueOf hfb) (mul_nonneg hk0 hb0) (by nlinarith)
  rw [← Bool.not_eq_true, fle_iff hft hfn, not_le] at h
  have hab : valueOf a < valueOf b := by
    by_contra hba
    linarith [(approached_of_ge ha hb hhalf (not_lt.1 hba)).1]
  have hup := (approached_of_le ha hb hhalf hab.le).1
  have hlarge : 1 / 2 ^ 1000 ≤ valueOf b := htarget.resolve_left (ha0.trans_lt hab).ne'
  have herror := (fmul_withinHalfGap hfk hfb hft).abs_sub_le
  rw [abs_of_nonneg (mul_nonneg hk0 hb0)] at herror
  have hulp := ulp_mul_le (x := valueOf Config.default.kAttack * valueOf b) (by nlinarith) hlarge
  have hgap : valueOf b ≤ (valueOf b - valueOf a) * 2 ^ 20 := by
    have habs := le_abs_self
      (valueOf (fmul .binary64 Config.default.kAttack b) -
        valueOf Config.default.kAttack * valueOf b)
    have hmul : valueOf Config.default.kAttack * valueOf b ≤ 991 / 1000 * valueOf b :=
      mul_le_mul_of_nonneg_right hk1 hb0
    linarith
  refine approached_ne ha hb hc hlarge hab.le ?_
  rwa [abs_of_pos (sub_pos.2 hab)]

end tests

/-- Attack stands still where the level does and is below the threshold (42_process R118, R122). -/
theorem sample_eq_self_of_attack {cfg : Config} {e : Envelope} (hs : e.stage = .attack)
    (hlevel : approached cfg.fmt e.level e.coef.v1 e.lvl.v1 = e.level)
    (htest : fle (fmul cfg.fmt cfg.kAttack e.lvl.v1) e.level = false) : e.sample cfg = e := by
  rw [sample_of_attack hs, Envelope.attackArm, hlevel, htest, ← hs]
  rfl

/-! A stage that approaches a target ends (42_process R118): each sample that does not complete it
moves the level nearer to the target, and there are finitely many patterns. -/

/-- `v` is nearer to `b` than `w` is. -/
def Nearer (b v w : Word) : Prop := |valueOf v - valueOf b| < |valueOf w - valueOf b|

theorem nearer_wellFounded (b : Word) : WellFounded (Nearer b) := by
  have : Finite Word := Finite.of_injective _ BitVec.toFin_injective
  have : IsTrans Word (Nearer b) := ⟨fun _ _ _ => lt_trans⟩
  have : Std.Irrefl (Nearer b) := ⟨fun _ => lt_irrefl _⟩
  exact Finite.wellFounded_of_trans_of_irrefl _

/-- The stage of `e` approaches `b` by `c` and is left, for `done`, when `test` holds of the new
level. -/
structure Envelope.Approaches (cfg : Config) (e : Envelope) (c b : Word) (test : Word → Bool)
    (done : Word → Envelope) : Prop where
  programmed : e.programmed cfg = true
  completes : ∀ a, test (approached .binary64 a c b) = true →
    ({ e with level := a } : Envelope).sample cfg = done (approached .binary64 a c b)
  stays : ∀ a, test (approached .binary64 a c b) = false →
    ({ e with level := a } : Envelope).sample cfg = { e with level := approached .binary64 a c b }

/-- A sample on which the test holds completes the stage. -/
theorem Envelope.Approaches.ends_now {s : State} {b c : Word} {test : Word → Bool}
    {done : Word → Envelope} (h : (s.inst s.sel).Approaches s.cfg c b test done)
    (htest : test (approached .binary64 (s.inst s.sel).level c b) = true) :
    ∃ t, exec .process s = .next t ∧
      t.inst s.sel = done (approached .binary64 (s.inst s.sel).level c b) := by
  obtain ⟨t, ht, -, -, -, -, hinst⟩ :=
    exec_process_of_programmed h.programmed (h.completes _ htest)
  exact ⟨t, ht, hinst⟩

theorem processTimes_succ {s t : State} (n : Nat) (h : exec .process s = .next t) :
    processTimes (n + 1) s = processTimes n t := by
  simp only [processTimes, h]

theorem exec_keeps_sel {i : Instr} {s t : State} (h : exec i s = .next t) : t.sel = s.sel := by
  obtain ⟨-, -, rfl⟩ := exec_next h
  rfl

/-- Such a stage ends if the level moves wherever the test fails. -/
theorem Envelope.Approaches.ends {s : State} {e : Envelope} {b c : Word} {test : Word → Bool}
    {done : Word → Envelope} (h : e.Approaches s.cfg c b test done) (hb : inUnit b = true)
    (hc : inCoefRange c = true)
    (hmoves : ∀ a, inUnit a = true → test (approached .binary64 a c b) = false →
      valueOf (approached .binary64 a c b) ≠ valueOf a)
    {a : Word} (ha : inUnit a = true) (hs : s.inst s.sel = { e with level := a }) :
    ∃ n t l, processTimes n s = .next t ∧ t.inst s.sel = done l := by
  induction a using (nearer_wellFounded b).induction generalizing s with
  | _ a ih =>
  have hp : (s.inst s.sel).programmed s.cfg = true := hs ▸ h.programmed
  obtain ⟨t, ht, -, hcfg, -, -, hinst⟩ := exec_process_of_programmed hp rfl
  rw [hs] at hinst
  cases htest : test (approached .binary64 a c b) with
  | true =>
    refine ⟨1, t, approached .binary64 a c b, processTimes_succ 0 ht, ?_⟩
    rw [hinst, h.completes a htest]
  | false =>
    rw [h.stays a htest] at hinst
    have hsel := exec_keeps_sel ht
    have hnearer : Nearer b (approached .binary64 a c b) a :=
      abs_approached_sub_lt ha hb hc (hmoves a ha htest)
    obtain ⟨n, u, l, hu, hdone⟩ := ih _ hnearer (s := t) (by rwa [hcfg])
      (approached_inUnit ha hb (inCoefRange_inHalf hc)) (by rwa [hsel])
    exact ⟨n + 1, u, l, by rw [processTimes_succ n ht, hu], by rw [← hdone, hsel]⟩

/-! The stages that approach a target (42_process R109 to R111, R113). -/

section stages
variable {cfg : Config} {e : Envelope} (hf : cfg.fmt = .binary64)
include hf

theorem approaches_of_attack (hs : e.stage = .attack) (hp : e.programmed cfg = true) :
    e.Approaches cfg e.coef.v1 e.lvl.v1 (fle (fmul .binary64 cfg.kAttack e.lvl.v1))
      fun l => { e with level := l, stage := .decay1 } where
  programmed := hp
  completes a h := by
    rw [sample_of_attack (e := { e with level := a }) hs, Envelope.attackArm, hf, h, if_pos rfl]
  stays a h := by
    rw [sample_of_attack (e := { e with level := a }) hs, Envelope.attackArm, hf, h, ← hs]
    rfl

theorem approaches_of_decay1 (hs : e.stage = .decay1) (hp : e.programmed cfg = true) :
    e.Approaches cfg e.coef.v2 e.lvl.v2 (withinEps cfg · e.lvl.v2)
      fun l => { e with level := l, stage := .decay2 } where
  programmed := hp
  completes a h := by
    rw [sample_of_decay1 (e := { e with level := a }) hs, Envelope.decay1Arm, hf, h, if_pos rfl]
  stays a h := by
    rw [sample_of_decay1 (e := { e with level := a }) hs, Envelope.decay1Arm, hf, h, ← hs]
    rfl

theorem approaches_of_decay2 (hs : e.stage = .decay2) (hp : e.programmed cfg = true) :
    e.Approaches cfg e.coef.v3 e.lvl.v3 (withinEps cfg · e.lvl.v3)
      fun l => { e with level := l, stage := .sustain } where
  programmed := hp
  completes a h := by
    rw [sample_of_decay2 (e := { e with level := a }) hs, Envelope.decay2Arm, hf, h, if_pos rfl]
  stays a h := by
    rw [sample_of_decay2 (e := { e with level := a }) hs, Envelope.decay2Arm, hf, h, ← hs]
    rfl

theorem approaches_of_release (htarget : cfg.releaseTarget = .zero) (hs : e.stage = .release)
    (hp : e.programmed cfg = true) :
    e.Approaches cfg e.coef.v4 Word.zero (flt · cfg.kFloor)
      fun _ => { e with level := Word.zero, stage := .idle } where
  programmed := hp
  completes a h := by
    rw [sample_of_release (e := { e with level := a }) hs, Envelope.releaseArm,
      releaseTarget_of_zero htarget, hf, h, if_pos rfl]
  stays a h := by
    rw [sample_of_release (e := { e with level := a }) hs, Envelope.releaseArm,
      releaseTarget_of_zero htarget, hf, h]
    rfl

end stages

end Sys2Proof.Machine

namespace Sys2Proof.Proofs

open Sys2Proof.Machine

/-- Settles O49: a coefficient in (0, 0.49] is in [0, 1/2], where no approach overshoots. -/
theorem approachNeverOvershoots : Obligations.ApproachNeverOvershoots := by
  intro a b c ha hb hc0 hc1
  have hlimit : isFinite 0x3FDF5C28F5C28F5C#64 = true := by decide +kernel
  have hlimit' : valueOf 0x3FDF5C28F5C28F5C#64 ≤ 1 / 2 := by decide +kernel
  have hzero : isFinite Word.zero = true := by decide +kernel
  have hfc := isFinite_of_flt_of_fle hzero hlimit hc0 hc1
  rw [flt_iff hzero hfc, valueOf_zero] at hc0
  rw [fle_iff hfc hlimit] at hc1
  obtain ⟨hfa, -⟩ := inUnit_iff.1 ha
  obtain ⟨hfb, -⟩ := inUnit_iff.1 hb
  have hhalf : InHalf c := ⟨hfc, hc0.le, hc1.trans hlimit'⟩
  obtain ⟨hfn, -⟩ := inUnit_iff.1 (approached_inUnit ha hb hhalf)
  rw [fle_iff hfa hfb, fle_iff hfb hfa, fle_iff hfa hfn, fle_iff hfn hfb, fle_iff hfb hfn,
    fle_iff hfn hfa]
  exact ⟨approached_of_le ha hb hhalf, approached_of_ge ha hb hhalf⟩

/-- Settles O50: the approach is no farther from the target, and rounding keeps the order of the
two distances. -/
theorem decayWithinEpsLastsOneSample : Obligations.DecayWithinEpsLastsOneSample := by
  intro s hf hc hl hu
  have within {b : Word}
      (h : flt (fabs (fsub .binary64 (s.inst s.sel).level b)) s.cfg.kEps = true) :
      withinEps s.cfg (s.inst s.sel).level b = true := by rwa [withinEps, hf]
  have hp := programmed_of_written (cfg := s.cfg) hc hl
  refine ⟨fun hs hb hcoef h => ?_, fun hs hb hcoef h => ?_⟩
  · obtain ⟨t, ht, hinst⟩ := (approaches_of_decay1 hf hs hp).ends_now
      (withinEps_approached hu hb hcoef hf (within h))
    exact ⟨t, ht, by rw [hinst]⟩
  · obtain ⟨t, ht, hinst⟩ := (approaches_of_decay2 hf hs hp).ends_now
      (withinEps_approached hu hb hcoef hf (within h))
    exact ⟨t, ht, by rw [hinst]⟩

/-- Settles O51: above the floor the level is well away from +0.0, so each sample lowers it. -/
theorem releaseReachesIdle : Obligations.ReleaseReachesIdle := by
  intro s hf htarget hk hs hc hu hcoef
  have hmoves {c : Word} (hcoef : inCoefRange c = true) (a : Word) (ha : inUnit a = true)
      (hfloor : flt (approached .binary64 a c Word.zero) s.cfg.kFloor = false) :
      valueOf (approached .binary64 a c Word.zero) ≠ valueOf a := by
    obtain ⟨hfin, h0, -⟩ := inUnit_iff.1
      (approached_inUnit ha zero_inUnit (inCoefRange_inHalf hcoef))
    rw [hk, flt_eq_false_iff hfin (by decide +kernel)] at hfloor
    refine approached_ne_of_far ha zero_inUnit hcoef ?_
    rw [valueOf_zero, zero_sub, abs_neg, abs_of_nonneg h0]
    exact inv_2048_lt_kFloor.le.trans hfloor
  obtain ⟨n, t, l, ht, hinst⟩ := (approaches_of_release hf htarget hs
    (programmed_of_release htarget hs hc)).ends zero_inUnit hcoef (hmoves hcoef) hu rfl
  exact ⟨n, t, ht, by rw [hinst], by rw [hinst]⟩

/-- Settles O52: outside the epsilon the level is well away from its target, so each sample moves
it. -/
theorem decaysEnd : Obligations.DecaysEnd := by
  intro s hf hk hc hl hu
  have moves {a b c : Word} (hb : inUnit b = true) (hcoef : inCoefRange c = true)
      (ha : inUnit a = true) (htest : withinEps s.cfg (approached .binary64 a c b) b = false) :
      valueOf (approached .binary64 a c b) ≠ valueOf a :=
    approached_ne_of_far ha hb hcoef (far_of_withinEps_eq_false
      (approached_inUnit ha hb (inCoefRange_inHalf hcoef)) hb hf hk htest)
  have hp := programmed_of_written (cfg := s.cfg) hc hl
  refine ⟨fun hs hb hcoef => ?_, fun hs hb hcoef => ?_⟩
  · obtain ⟨n, t, l, ht, hinst⟩ :=
      (approaches_of_decay1 hf hs hp).ends hb hcoef (fun _ => moves hb hcoef) hu rfl
    exact ⟨n, t, ht, by rw [hinst]⟩
  · obtain ⟨n, t, l, ht, hinst⟩ :=
      (approaches_of_decay2 hf hs hp).ends hb hcoef (fun _ => moves hb hcoef) hu rfl
    exact ⟨n, t, ht, by rw [hinst]⟩

/-- Settles O53: below the threshold the level is well away from its target, measured by the target
itself, so each sample raises it. -/
theorem attackEnds : Obligations.AttackEnds := by
  intro s hf hk hs hc hl hu hcoef hb htarget
  obtain ⟨n, t, l, ht, hinst⟩ := (approaches_of_attack hf hs (programmed_of_written hc hl)).ends
    hb hcoef (fun a ha h => approached_ne_of_below_threshold ha hb hcoef htarget (hk ▸ h)) hu rfl
  exact ⟨n, t, ht, by rw [hinst]⟩

/-- Settles O54: the product rounds to +0.0, which is below the threshold. -/
theorem tinyAttackTargetHangs : Obligations.TinyAttackTargetHangs := by
  intro s hcfg hs hlevel hc hl hcoef htarget
  have hsample : (s.inst s.sel).sample s.cfg = s.inst s.sel := by
    refine sample_eq_self_of_attack hs ?_ ?_ <;> rw [hcfg, hlevel, htarget]
    · rw [hcoef]
      decide +kernel
    · decide +kernel
  exact ⟨_, exec_process_of_sample_self (programmed_of_written hc hl) hsample, rfl, by rw [hlevel]⟩

/-- Settles O55: the sum rounds to the level that stands, which is below the threshold. -/
theorem binary32AttackStalls : Obligations.Binary32AttackStalls := by
  intro s hcfg hs hlevel hc hl hcoef htarget
  have hsample : (s.inst s.sel).sample s.cfg = s.inst s.sel := by
    refine sample_eq_self_of_attack hs ?_ ?_ <;> rw [hcfg, hlevel, htarget]
    · rw [hcoef]
      decide +kernel
    · decide +kernel
  exact ⟨_, exec_process_of_sample_self (programmed_of_written hc hl) hsample, rfl⟩

end Sys2Proof.Proofs

/-!
SUPPORT and PROOFS. 60_exceptions R132 to R134: which commands step, which are refused and which
fault, and the marks that a refusal and a fault leave in the run.
-/

namespace Sys2Proof.Machine

/-! The outcome of a command (60_exceptions R132). -/

/-- A command with an operand out of its domain is refused. -/
theorem exec_of_not_wellFormed {i : Instr} {s : State} (hw : i.wellFormed s.cfg = false) :
    ∃ r, exec i s = .refused r := by
  cases i with
  | setRates r1 r2 r3 r4 => exact ⟨_, if_neg (Bool.eq_false_iff.1 hw)⟩
  | setLevels l1 l2 l3 l4 => exact ⟨_, if_neg (Bool.eq_false_iff.1 hw)⟩
  | setSampleRate fs => exact ⟨_, if_neg (Bool.eq_false_iff.1 hw)⟩
  | noteOn | noteOff | process | isActive => cases hw

/-- The three outcomes of a command, each with its condition. -/
theorem exec_cases (i : Instr) (s : State) :
    (i.wellFormed s.cfg = true ∧ (i = .process → (s.inst s.sel).programmed s.cfg = true) ∧
      ∃ t, exec i s = .next t) ∨
    (i.wellFormed s.cfg = false ∧ i ≠ .process ∧ ∃ r, exec i s = .refused r) ∨
    (i = .process ∧ (s.inst s.sel).programmed s.cfg = false ∧ ∃ f, exec i s = .fault f) := by
  cases hw : i.wellFormed s.cfg with
  | false =>
    have hne : i ≠ .process := by rintro rfl; cases hw
    exact .inr (.inl ⟨rfl, hne, exec_of_not_wellFormed hw⟩)
  | true =>
    by_cases hfault : i = .process ∧ (s.inst s.sel).programmed s.cfg = false
    · obtain ⟨rfl, hp⟩ := hfault
      exact .inr (.inr ⟨rfl, hp, _, exec_process_eq_fault_iff.2 ⟨rfl, hp⟩⟩)
    · have hp : i = .process → (s.inst s.sel).programmed s.cfg = true := by simpa using hfault
      exact .inl ⟨rfl, hp, _, exec_of_wellFormed hw hp⟩

/-! The marks of a run (60_exceptions R133, R134). -/

section run
variable {r : Run}

theorem advance_of_next {t : State} (h : step r.state = .next t) :
    r.advance.state = t ∧ r.advance.refusals = r.refusals ∧ r.advance.faults = r.faults := by
  obtain ⟨t', v, ht, hstate, hrefusals, hfaults, -⟩ | ⟨inp, rest, e, -, he, -⟩ |
    ⟨inp, rest, f, -, hf, -⟩ := advance_cases r
  · rw [h] at ht; cases ht
    exact ⟨hstate, hrefusals, hfaults⟩
  · rw [h] at he; cases he
  · rw [h] at hf; cases hf

/-- A refusal is no fault; the mark it does leave is in `advance_of_refused`. -/
theorem advance_faults_of_refused {e : Refusal} (h : step r.state = .refused e) :
    r.advance.faults = r.faults := by
  obtain ⟨t, v, ht, -⟩ | ⟨inp, rest, e', -, -, -, hfaults, -⟩ | ⟨inp, rest, f, -, hf, -⟩ :=
    advance_cases r
  · rw [h] at ht; cases ht
  · exact hfaults
  · rw [h] at hf; cases hf

theorem advance_of_fault {inp : Input} {rest : List Input} {f : Fault}
    (hs : r.state.stream = inp :: rest) (h : step r.state = .fault f) :
    r.advance.faults = r.faults ++ [⟨r.position, inp.inst, f⟩] ∧
    r.advance.refusals = r.refusals := by
  obtain ⟨t, v, ht, -⟩ | ⟨inp', rest', e, -, he, -⟩ |
    ⟨inp', rest', f', hs', hf, hmark, hrefusals, -⟩ := advance_cases r
  · rw [h] at ht; cases ht
  · rw [h] at he; cases he
  · rw [hs] at hs'; cases hs'
    rw [h] at hf; cases hf
    exact ⟨hmark, hrefusals⟩

/-- A presentation that leaves a mark shows nothing and writes nothing. -/
theorem advance_of_new_mark
    (h : r.advance.refusals ≠ r.refusals ∨ r.advance.faults ≠ r.faults) :
    r.advance.shown = r.shown ∧ r.advance.state.cfg = r.state.cfg ∧
    ∀ k, r.advance.state.inst k = r.state.inst k := by
  obtain ⟨t, v, -, -, hrefusals, hfaults, -⟩ | ⟨inp, rest, e, -, -, -, -, hshown, hcfg, hinsts⟩ |
    ⟨inp, rest, f, -, -, -, -, hshown, hcfg, hinsts⟩ := advance_cases r
  · exact (h.elim (· hrefusals) (· hfaults)).elim
  · exact ⟨hshown, hcfg, fun k => by rw [State.inst, State.inst, hinsts]⟩
  · exact ⟨hshown, hcfg, fun k => by rw [State.inst, State.inst, hinsts]⟩

/-- The marks so far are the first of those after one more presentation. -/
theorem marks_prefix_advance (r : Run) :
    r.refusals <+: r.advance.refusals ∧ r.faults <+: r.advance.faults := by
  obtain ⟨t, v, -, -, hrefusals, hfaults, -⟩ | ⟨inp, rest, e, -, -, hrefusals, hfaults, -⟩ |
    ⟨inp, rest, f, -, -, hfaults, hrefusals, -⟩ := advance_cases r <;> rw [hrefusals, hfaults]
  · exact ⟨List.prefix_rfl, List.prefix_rfl⟩
  · exact ⟨List.prefix_append _ _, List.prefix_rfl⟩
  · exact ⟨List.prefix_rfl, List.prefix_append _ _⟩

theorem marks_prefix_steps (n : Nat) (r : Run) :
    r.refusals <+: (r.steps n).refusals ∧ r.faults <+: (r.steps n).faults := by
  induction n generalizing r with
  | zero => exact ⟨List.prefix_rfl, List.prefix_rfl⟩
  | succ n ih =>
    obtain ⟨hrefusals, hfaults⟩ := marks_prefix_advance r
    obtain ⟨hrefusals', hfaults'⟩ := ih r.advance
    exact ⟨hrefusals.trans hrefusals', hfaults.trans hfaults'⟩

theorem marked_steps {k : InstId} (n : Nat) (h : r.marked k = true) :
    (r.steps n).marked k = true ∧ (r.steps n).shownAt k = r.shownAt k := by
  induction n generalizing r with
  | zero => exact ⟨h, rfl⟩
  | succ n ih =>
    obtain ⟨hmarked, hshown⟩ := marked_advance h
    obtain ⟨hmarked', hshown'⟩ := ih hmarked
    exact ⟨hmarked', hshown'.trans hshown⟩

end run

end Sys2Proof.Machine

namespace Sys2Proof.Proofs

open Sys2Proof.Machine

/-- Settles O32: the three outcomes exclude each other, and so do their conditions. -/
theorem outcomesOfCommands : Obligations.OutcomesOfCommands := by
  intro i s
  obtain ⟨hw, hp, t, ht⟩ | ⟨hw, hne, r, hr⟩ | ⟨rfl, hp, f, hf⟩ := exec_cases i s
  · simpa [ht, hw] using hp
  · simp [hr, hw, hne]
  · simp [hf, hp, Instr.wellFormed]

/-- Settles O56: each clause is a lemma of one more presentation, or its induction over the
presentations. -/
theorem marksAreKeptForGood : Obligations.MarksAreKeptForGood := by
  refine ⟨fun r inp rest hs => ⟨fun e h => ?_, fun f h => advance_of_fault hs h⟩,
    fun r t h => advance_of_next h, fun n r => ?_, fun r h => advance_of_new_mark h,
    fun n r k h => marked_steps n h⟩
  · obtain ⟨hmark, -, -⟩ := advance_of_refused hs h
    exact ⟨hmark, advance_faults_of_refused h⟩
  · obtain ⟨⟨l, hl⟩, ⟨m, hm⟩⟩ := marks_prefix_steps n r
    exact ⟨l, m, hl.symm, hm.symm⟩

end Sys2Proof.Proofs

/-!
SUPPORT and PROOFS. 70_reset: the reset input and the words presented with it.
-/

namespace Sys2Proof.Machine

/-- A reset at an instance that the configuration gives is a step of its own, whatever words are
presented with it (70_reset R153). -/
theorem step_of_reset {s : State} {inp : Input} {rest : List Input} (hs : s.stream = inp :: rest)
    (hh : s.has inp.inst = true) (hr : inp.reset = true) :
    step s = .next ({ s with stream := rest }.resetInst inp.inst) := by
  simp [step, State.take, hs, hh, hr]

theorem resetInst_inst_same (s : State) (k : InstId) : (s.resetInst k).inst k = Envelope.reset := by
  rw [resetInst_inst, if_pos rfl]

theorem resetInst_inst_other (s : State) {j k : InstId} (h : j ≠ k) :
    (s.resetInst k).inst j = s.inst j := by
  rw [resetInst_inst, if_neg h]

end Sys2Proof.Machine

namespace Sys2Proof.Proofs

open Sys2Proof.Machine

/-- Settles O2: the step is the reset alone, which writes its one instance and the response port. -/
theorem resetInputTakesPrecedence : Obligations.ResetInputTakesPrecedence := by
  intro s inp rest hs hh hr
  exact ⟨_, step_of_reset hs hh hr, rfl, rfl, rfl, resetInst_inst_same _ _,
    fun _ hk => resetInst_inst_other _ hk⟩

end Sys2Proof.Proofs
